-- ==== Sys2Proof/Word.lean ====
section
/-! DEFINITION. The widths of the engine's data (00_scope.md R6, R7): names only.
A one-bit port or register is a Bool, `true` for 1 (R7). -/

namespace Sys2Proof

/-- `DATA_W` = 32: a data word, also the width of the timestamp register (R6, R28). -/
abbrev Data := BitVec 32

/-- `PKT_W` = 8: the request packet (R6, R82), and one byte of an instruction's written-out word. -/
abbrev Byte := BitVec 8

/-- `REQ_W` = 4: the request nibble (R6, R80). -/
abbrev Nibble := BitVec 4

/-- `ACK_W` = 3: the acknowledge field (R6, R85). -/
abbrev Ack := BitVec 3

/-- The address select A[3:2] (R20, R61; 90_conflicts.md C2). -/
abbrev Select := BitVec 2

end Sys2Proof
end

