-- ==== Sys2Proof/Config.lean ====
section
/-! DEFINITION. What the spec leaves to an implementation (00_scope.md R6, status OPEN) and the
values it leaves free (93_implementation_defined.md U6, U7). Each is opaque and has no body, so no
proof can see what it is. -/

namespace Sys2Proof

/-- One less than `CLK_DELAY_W`, the width of CFG.CLKDLY: the spec allows any width of 1 bit or more
(92_eei_decisions.md, OPEN parameters). Log 10. -/
opaque Config.clkDelayExtra : Nat

/-- A clock delay factor, `CLK_DELAY_W` bits, opaque (10_state.md R26). -/
abbrev ClkDelay := BitVec (Config.clkDelayExtra + 1)

/-- `CLK_DELAY_RESET`, the reset value of CFG.CLKDLY (10_state.md R44, OPEN). Log 10. -/
opaque Config.clkDelayReset : ClkDelay

/-- The two kinds of shim backend (40_bus_primitives.md R107). -/
inductive Backend where
  | bitBangedGpio
  | serialPeripheral
  deriving DecidableEq, Repr, Inhabited

/-- `BACKEND` (R6, R107, OPEN): no definition of the model reads it, which is what R107 says of it.
Log 15. -/
opaque Config.backend : Backend

/-- The level of `swdio_in` in the step of a given number, where the caller's list of inputs has
run out: the target is an oracle under no law (40_bus_primitives.md R103, 20_memory.md R66). Log 3. -/
opaque Config.swdioIn : Nat → Bool

/-- The value of `ts_now` in the step of a given number, where the list of inputs has run out: a
draw under no law (60_exceptions.md R210). Log 4. -/
opaque Config.tsNow : Nat → Data

end Sys2Proof
end

