-- ==== Sys2Proof/Syntax.lean ====
section
/-! DEFINITION. The instructions: the four transfer operations and the configuration write
(00_scope.md R1, 30_encoding.md R90, R91; one constructor per row of opcode_table.json). -/

namespace Sys2Proof

/-- One caller operation. `a` is the address select A[3:2]; the byte offset is the two bits of `a`
followed by 00 (20_memory.md R61, R64). `ts` is the `.TS` suffix, the port `req_ts` (R81). -/
inductive Instr where
  /-- DPW, write a debug-port register (46_transfers.md R185). -/
  | dpw (a : Select) (ts : Bool) (wdata : Data)
  /-- APW, write an access-port register (R187). -/
  | apw (a : Select) (ts : Bool) (wdata : Data)
  /-- DPR, read a debug-port register (R184). -/
  | dpr (a : Select) (ts : Bool)
  /-- APR, read an access-port register (R186). -/
  | apr (a : Select) (ts : Bool)
  /-- CFG, the configuration write (10_state.md R27, 30_encoding.md R89). -/
  | cfg (trn : BitVec 3) (idle : BitVec 8) (dpen : Bool) (clkdly : ClkDelay)
  deriving DecidableEq, Repr

end Sys2Proof
end

