-- ==== Sys2Proof/WellFormed.lean ====
section
/-! DEFINITION. Which instructions the spec calls legal. Every request is legal (30_encoding.md R84);
of the configuration write only the turnaround count has illegal values (R89, 10_state.md R23). -/

namespace Sys2Proof

/-- A legal turnaround count: 1, 2, 3 or 4 (10_state.md R23). -/
def legalTrn (trn : BitVec 3) : Bool := decide (1 ≤ trn.toNat ∧ trn.toNat ≤ 4)

/-- The instruction is one the notation of 30_encoding.md R91 can spell. An ill-formed one is still
an encoding the hardware meets: its meaning raises the mark CfgIllegal (R27). Log 22. -/
def Instr.wf : Instr → Bool
  | .dpw _ _ _ => true
  | .apw _ _ _ => true
  | .dpr _ _ => true
  | .apr _ _ => true
  | .cfg trn _ _ _ => legalTrn trn

end Sys2Proof
end

