-- ==== Sys2Proof/Decode.lean ====
section
/-! DEFINITION. Encodings (30_encoding.md R80, R89, R90; opcode_table.json) and the decoder, total on
any word, then the encoder. An instruction reaches the engine on ports, not as bytes in a memory:
a request is the nibble REQ beside `req_ts` and `wdata`, a configuration write is the fields of CFGW
beside `cfg_clkdly`, and the strobe (`start` or `cfg_we`) says which of the two it is. -/

namespace Sys2Proof

/-- Which port strobes the word in: `start` for format REQ4, `cfg_we` for format CFGW. -/
inductive Strobe where
  | start
  | cfgWe
  deriving DecidableEq, Repr

/-- One instruction as the caller drives it: the strobe, the word of the opcode table written out in
bytes (least significant first), and the operand ports that the word does not carry. Log 13. -/
structure PortWord where
  strobe : Strobe
  word   : List Byte
  ts     : Bool
  wdata  : Data
  clkdly : ClkDelay
  deriving DecidableEq, Repr

/-- Why a written-out word is no instruction. -/
inductive DecodeError where
  /-- A request is one byte, a configuration word two. -/
  | wrongLength
  /-- REQ4 has bits 3..0 only. -/
  | bitsAboveRequest
  /-- CFGW has bits 11..0 only. -/
  | bitsAboveConfig
  deriving DecidableEq, Repr

/-! ### The nibble REQ4 -/

/-- `REQ = {A[1], A[0], RnW, APnDP}` (R80). -/
def reqNibble (apndp rnw : Bool) (a : Select) : Nibble :=
  a ++ (BitVec.ofBool rnw ++ BitVec.ofBool apndp)

/-- The operation is selected by REQ[1:0] = {RnW, APnDP} and its operand is `a = REQ[3:2]` (R90). -/
def decodeReq4 (req : Nibble) (ts : Bool) (wdata : Data) : Instr :=
  let a := req.extractLsb' 2 2
  match req.getLsbD 1, req.getLsbD 0 with
  | false, false => .dpw a ts wdata
  | false, true  => .apw a ts wdata
  | true,  false => .dpr a ts
  | true,  true  => .apr a ts

/-! ### The configuration word CFGW -/

/-- The pattern tttiiiiiiiid of opcode_table.json: TRN in bits 11..9, IDLE in bits 8..1, DPEN in
bit 0. -/
def cfgWord (trn : BitVec 3) (idle : BitVec 8) (dpen : Bool) : BitVec 12 :=
  trn ++ (idle ++ BitVec.ofBool dpen)

/-- The fields of a configuration word. Every value decodes; an illegal TRN is met by the meaning
(10_state.md R27). Log 22. -/
def decodeCfgw (w : BitVec 12) (clkdly : ClkDelay) : Instr :=
  .cfg (w.extractLsb' 9 3) (w.extractLsb' 1 8) (w.getLsbD 0) clkdly

/-! ### The decoder -/

/-- The instruction a port word spells, or the reason it spells none. -/
def decode (p : PortWord) : Except DecodeError Instr :=
  match p.strobe, p.word with
  | .start, [b] =>
    if b.extractLsb' 4 4 = 0#4 then .ok (decodeReq4 (b.extractLsb' 0 4) p.ts p.wdata)
    else .error .bitsAboveRequest
  | .cfgWe, [lo, hi] =>
    if hi.extractLsb' 4 4 = 0#4 then .ok (decodeCfgw (hi.extractLsb' 0 4 ++ lo) p.clkdly)
    else .error .bitsAboveConfig
  | .start, [] => .error .wrongLength
  | .start, _ :: _ :: _ => .error .wrongLength
  | .cfgWe, [] => .error .wrongLength
  | .cfgWe, [_] => .error .wrongLength
  | .cfgWe, _ :: _ :: _ :: _ => .error .wrongLength

/-- The port word of an opcode-table word: REQ4 is the table's format of one byte, CFGW its format
of two; the operand ports are zero. Log 13. -/
def tablePortWord (nbits w : Nat) : Option PortWord :=
  if nbits = 0 then none
  else if nbits ≤ 8 then
    if w < 2 ^ 8 then some ⟨.start, [BitVec.ofNat 8 w], false, 0#32, 0#_⟩ else none
  else if nbits ≤ 16 then
    if w < 2 ^ 16 then
      some ⟨.cfgWe, [BitVec.ofNat 8 w, BitVec.ofNat 8 (w / 256)], false, 0#32, 0#_⟩
    else none
  else none

/-- The instruction the decoder reads from an opcode-table word of `nbits` bits, if any. -/
def decodeTableWord (nbits w : Nat) : Option Instr :=
  match tablePortWord nbits w with
  | none => none
  | some p =>
    match decode p with
    | .ok i => some i
    | .error _ => none

/-! ### The encoder -/

/-- One byte that carries the request nibble. -/
def reqByte (apndp rnw : Bool) (a : Select) : Byte := 0#4 ++ reqNibble apndp rnw a

/-- The port word of an instruction, from the same tables (R80, R89). -/
def encode : Instr → PortWord
  | .dpw a ts v => ⟨.start, [reqByte false false a], ts, v, 0#_⟩
  | .apw a ts v => ⟨.start, [reqByte true false a], ts, v, 0#_⟩
  | .dpr a ts => ⟨.start, [reqByte false true a], ts, 0#32, 0#_⟩
  | .apr a ts => ⟨.start, [reqByte true true a], ts, 0#32, 0#_⟩
  | .cfg trn idle dpen clkdly =>
    let w := cfgWord trn idle dpen
    ⟨.cfgWe, [w.extractLsb' 0 8, 0#4 ++ w.extractLsb' 8 4], false, 0#32, clkdly⟩

end Sys2Proof
end

