-- ==== Sys2Proof/Machine/State.lean ====
section
/-! DEFINITION. The state of the engine (10_state.md), the environment's coming inputs as plain data,
and the state after reset (R44). -/

namespace Sys2Proof.Machine

open Sys2Proof

/-- The phases of the sequencer (10_state.md R34, 46_transfers.md R181). -/
inductive Phase where
  | idle | req | trn1 | ack | rdata | rpar | trn2r | trn2w | wdata | wpar
  | post | idlec | dummyr | trnwf | dummyw | backoff | finish
  deriving DecidableEq, Repr

/-- The record of one bus cycle (40_bus_primitives.md R101): `W b`, `R b` or `Z`. -/
inductive BusCycle where
  | w (b : Bool)
  | r (b : Bool)
  | z
  deriving DecidableEq, Repr

/-- The reasons of a model fault (60_exceptions.md R204). Each is a caller action; each sets a sticky
mark, and none stops the machine. -/
inductive ModelFault where
  /-- `start = 1` while BUSY = 1 (R180). -/
  | startWhileBusy
  /-- `cfg_we = 1` while BUSY = 1 (R27). -/
  | cfgWriteWhileBusy
  /-- `cfg_we = 1` with `cfg_trn` not in 1 to 4 (R27). -/
  | cfgIllegal
  /-- A read of an output register that holds no value, or of TSR while BUSY = 1 (R43). -/
  | readUnwritten
  /-- `rst = 1` while BUSY = 1 (R230). -/
  | resetWhileBusy
  deriving DecidableEq, Repr

/-- The sticky fault mark of 00_scope.md R10, one bit per reason. Log 6. -/
structure FaultMark where
  startWhileBusy    : Bool
  cfgWriteWhileBusy : Bool
  cfgIllegal        : Bool
  readUnwritten     : Bool
  resetWhileBusy    : Bool
  deriving DecidableEq, Repr

/-- No fault recorded. -/
def FaultMark.clear : FaultMark := ⟨false, false, false, false, false⟩

/-- The output registers that hold no value at some times (10_state.md R43): what a caller's read
names. -/
inductive OutReg where
  | tsr | result | ackRaw | rdata
  deriving DecidableEq, Repr

/-- What a caller's read returned. -/
inductive ReadValue where
  | tsr (v : Data)
  | result (v : BitVec 4)
  | ackRaw (v : Ack)
  | rdata (v : Data)
  deriving DecidableEq, Repr

/-- What the outside drives in one step: the input ports of 10_state.md R20, in its order, and the
output registers the caller reads in that step (60_exceptions.md R211). Log 2, log 7. -/
structure Inputs where
  rst       : Bool := false
  cfgWe     : Bool := false
  cfgTrn    : BitVec 3 := 0#3
  cfgIdle   : BitVec 8 := 0#8
  cfgDpen   : Bool := false
  cfgClkdly : ClkDelay := 0#_
  start     : Bool := false
  reqApndp  : Bool := false
  reqRnw    : Bool := false
  reqA      : Select := 0#2
  reqTs     : Bool := false
  wdata     : Data := 0#32
  swdioIn   : Bool := false
  tsNow     : Data := 0#32
  reads     : List OutReg := []
  deriving DecidableEq, Repr

/-- The configuration register CFG (10_state.md R23 to R26). -/
structure Cfg where
  trn    : BitVec 3
  idle   : BitVec 8
  dpen   : Bool
  clkdly : ClkDelay
  deriving DecidableEq, Repr

/-- Everything the spec gives the machine, and the environment as plain data. -/
structure State where
  /-- CFG, R23 to R27. -/
  cfg : Cfg
  /-- TSR, R28. -/
  tsr : Option Data
  /-- RESULT, R29. -/
  result : Option (BitVec 4)
  /-- ACK_RAW, R30. -/
  ackRaw : Option Ack
  /-- RDATA, R31. -/
  rdata : Option Data
  /-- SWCLK, R32. -/
  swclk : Bool
  /-- OE, R32. -/
  oe : Bool
  /-- DOUT, R32. -/
  dout : Bool
  /-- BUSY, R33. -/
  busy : Bool
  /-- DONE, R33. -/
  done : Bool
  /-- PHASE, R34. -/
  phase : Phase
  /-- CNT, R34. -/
  cnt : BitVec 8
  /-- PKT, R35. -/
  pkt : Byte
  /-- SH, R36. -/
  sh : Data
  /-- PAR, R37. -/
  par : Bool
  /-- ACK, R38. -/
  ack : Ack
  /-- PERR, R39. -/
  perr : Bool
  /-- L_APNDP, R40. -/
  lApndp : Bool
  /-- L_RNW, R40. -/
  lRnw : Bool
  /-- L_A, R40. -/
  lA : Select
  /-- L_TS, R40. -/
  lTs : Bool
  /-- L_WDATA, R40: it holds no value in a read. -/
  lWdata : Option Data
  /-- S_TRN, R41. -/
  sTrn : BitVec 3
  /-- S_IDLE, R41. -/
  sIdle : BitVec 8
  /-- S_DPEN, R41. -/
  sDpen : Bool
  /-- The model fault mark, 00_scope.md R10. -/
  faults : FaultMark
  /-- The cycle records so far, oldest first, 40_bus_primitives.md R109 (a). Log 11. -/
  trace : List BusCycle
  /-- What the outside drives in the coming steps, the next step first. Log 2. -/
  inputs : List Inputs
  /-- The number of the coming step: the index of the free values. Log 25. -/
  stepNo : Nat
  /-- What the caller's reads of the last step returned, in their order. Log 7. -/
  readBack : List ReadValue
  deriving DecidableEq, Repr

/-- The stops. A run from reset meets neither: each answers for a state that no rule of the spec
speaks of. -/
inductive Fault where
  /-- Raised by the engine's step when BUSY = 1 and PHASE = IDLE: 46_transfers.md R181 has no such
  row. Safe: the machine stops. Log 12. -/
  | busyInIdlePhase
  /-- Raised where `SH <- L_WDATA` (R162) finds L_WDATA holding no value. Safe: the machine stops.
  Log 12. -/
  | latchedDataAbsent
  deriving DecidableEq, Repr

/-- The refusals. -/
inductive Refusal where
  /-- Raised by the dispatch for an instruction that has no meaning yet; no arm does so. Safe. -/
  | notModelled (mnemonic : String)
  deriving DecidableEq, Repr

/-- The configuration after reset (10_state.md R44, 70_reset_and_hazards.md R231). -/
def Cfg.reset : Cfg := { trn := 1#3, idle := 0#8, dpen := false, clkdly := Config.clkDelayReset }

/-- The machine right after reset (10_state.md R44): the rows of its table, then the internal
registers it leaves unspecified at zero (DESIGN CHOICE, log 5), then an empty trace and an
environment that drives nothing. -/
def State.reset : State where
  cfg := Cfg.reset
  tsr := none
  result := none
  ackRaw := none
  rdata := none
  swclk := true
  oe := true
  dout := true
  busy := false
  done := false
  phase := .idle
  cnt := 0#8
  pkt := 0#8
  sh := 0#32
  par := false
  ack := 0#3
  perr := false
  lApndp := false
  lRnw := false
  lA := 0#2
  lTs := false
  lWdata := none
  sTrn := 0#3
  sIdle := 0#8
  sDpen := false
  faults := FaultMark.clear
  trace := []
  inputs := []
  stepNo := 0
  readBack := []

end Sys2Proof.Machine
end

