-- ==== Sys2Proof/Machine/Ops.lean ====
section
/-! DEFINITION. The named operations over the state: sequencing of outcomes, bit fields, the sticky
fault mark, the seven shim operations and the three bus cycles (40_bus_primitives.md), moves of the
sequencer position, the inputs of a step, and reset. -/

namespace Sys2Proof.Machine

open Sys2Proof

/-- What a meaning or a step answers. -/
abbrev Answer := Host.Outcome State Fault Refusal

/-- Go on from a next state; a stop stays a stop. -/
def andThen (o : Answer) (f : State → Answer) : Answer :=
  match o with
  | .next s => f s
  | .fault r => .fault r
  | .refused r => .refused r

/-- `v[i] <- b`, the other bits kept; no effect where i is not a bit of v (00_scope.md R7). -/
def putBit {n : Nat} (v : BitVec n) (i : Nat) (b : Bool) : BitVec n :=
  if b then v ||| (1#n <<< i) else v &&& ~~~(1#n <<< i)

/-- `P 0; P 1; …; P (n-1)`: the loops of the pseudocode (00_scope.md R9). -/
def forN (n : Nat) (P : Nat → State → State) (s : State) : State :=
  match n with
  | 0 => s
  | k + 1 => P k (forN k P s)

/-! ### Model faults (00_scope.md R10) -/

/-- Set the mark of one reason; the others stay as they are. -/
def FaultMark.set (m : FaultMark) (f : ModelFault) : FaultMark :=
  match f with
  | .startWhileBusy => { m with startWhileBusy := true }
  | .cfgWriteWhileBusy => { m with cfgWriteWhileBusy := true }
  | .cfgIllegal => { m with cfgIllegal := true }
  | .readUnwritten => { m with readUnwritten := true }
  | .resetWhileBusy => { m with resetWhileBusy := true }

/-- `raise Fault(reason)`: the sticky mark, and nothing else (R10). This hardware has no trap; raising
a mark is all that a model fault does (60_exceptions.md R201, R204). Log 6. -/
def raise (f : ModelFault) (s : State) : State := { s with faults := s.faults.set f }

/-! ### The shim (40_bus_primitives.md R100) -/

/-- `clock_low()`: SWCLK <- 0. -/
def clockLow (s : State) : State := { s with swclk := false }

/-- `clock_high()`: SWCLK <- 1. -/
def clockHigh (s : State) : State := { s with swclk := true }

/-- `delay()`: one half-period. A model represents time only as the order of cycles (R108). Log 14. -/
def delay (s : State) : State := s

/-- `drive_bit(b)`: DOUT <- b. -/
def driveBit (b : Bool) (s : State) : State := { s with dout := b }

/-- `read_bit()`: the level of `swdio_in` in this step (R103). -/
def readBit (p : Inputs) : Bool := p.swdioIn

/-- `enable_output()`: OE <- 1. -/
def enableOutput (s : State) : State := { s with oe := true }

/-- `disable_output()`: OE <- 0. -/
def disableOutput (s : State) : State := { s with oe := false }

/-! ### Bus cycles (40_bus_primitives.md R101 to R104) -/

/-- Append one cycle record to the trace (R101, R109). -/
def record (c : BusCycle) (s : State) : State := { s with trace := s.trace ++ [c] }

/-- `CycleW(b)` (R102). Its precondition OE = 1 is an invariant, not checked here. Log 23. -/
def cycleW (b : Bool) (s : State) : State :=
  record (.w b) (delay (clockHigh (delay (clockLow (driveBit b s)))))

/-- `CycleR()` (R103) with the sampled bit b: the sample is taken while SWCLK = 0. -/
def cycleR (b : Bool) (s : State) : State :=
  record (.r b) (delay (clockHigh (delay (clockLow s))))

/-- `CycleZ()` (R104). -/
def cycleZ (s : State) : State :=
  record .z (delay (clockHigh (delay (clockLow s))))

/-! ### The sequencer position (46_transfers.md R181) -/

/-- Enter a phase: PHASE <- ph and CNT <- 0. -/
def enter (ph : Phase) (s : State) : State := { s with phase := ph, cnt := 0#8 }

/-- One more cycle of the phase is done. -/
def countUp (s : State) : State := { s with cnt := s.cnt + 1#8 }

/-- One row of R181 with length `len` > 0: the per-cycle action, and in the cycle with CNT = len - 1
the exit action too. -/
def row (len : Nat) (act : State → State) (exit : State → Answer) (s : State) : Answer :=
  if s.cnt.toNat + 1 = len then exit (act s) else .next (countUp (act s))

/-! ### The inputs of a step (10_state.md R20) -/

/-- What the outside drives in the coming step: the head of the list, or, where it has run out, a
silent caller with a free line level and a free time. Log 2, log 3, log 4. -/
def currentInputs (s : State) : Inputs :=
  match s.inputs with
  | p :: _ => p
  | [] => { swdioIn := Config.swdioIn s.stepNo, tsNow := Config.tsNow s.stepNo }

/-- The step has taken its inputs. -/
def takeInputs (s : State) : State :=
  { s with inputs := s.inputs.tail, stepNo := s.stepNo + 1 }

/-! ### Reset (70_reset_and_hazards.md R230) -/

/-- Every register takes its reset value; the fault mark is kept, with ResetWhileBusy raised where a
transfer was in flight; the trace already issued stands. Log 16. -/
def resetEngine (s : State) : State :=
  { State.reset with
    faults := if s.busy then s.faults.set .resetWhileBusy else s.faults
    trace := s.trace
    inputs := s.inputs
    stepNo := s.stepNo
    readBack := s.readBack }

end Sys2Proof.Machine
end

