-- ==== Sys2Proof/Machine/Flags.lean ====
section
/-! DEFINITION. The parity unit (41_parity_unit.md), the acknowledge decoder (44_ack_interpreter.md
R151), the outcome function (46_transfers.md R183) and the result code (30_encoding.md R88). -/

namespace Sys2Proof.Machine

open Sys2Proof

/-- `Parity4(r) = r[0] ^ r[1] ^ r[2] ^ r[3]` (R120). -/
def parity4 (r : Nibble) : Bool :=
  xor (xor (xor (r.getLsbD 0) (r.getLsbD 1)) (r.getLsbD 2)) (r.getLsbD 3)

/-- The exclusive or of the bits of d below n: what PAR holds after n data bits (R123). -/
def parityBelow (n : Nat) (d : Data) : Bool :=
  match n with
  | 0 => false
  | k + 1 => xor (parityBelow k d) (d.getLsbD k)

/-- `Parity32(d) = d[0] ^ … ^ d[31]` (R121). -/
def parity32 (d : Data) : Bool := parityBelow 32 d

/-- `PAR <- PAR ^ bit` (R123). -/
def accumulate (b : Bool) (s : State) : State := { s with par := xor s.par b }

/-- `PERR <- (PAR != p)` (R122, 45_data_phase_sequencer.md R160). -/
def checkParity (p : Bool) (s : State) : State := { s with perr := (s.par != p) }

/-- The four classes of an acknowledge (R151). -/
inductive AckClass where
  | ok | wait | fault | protocolError
  deriving DecidableEq, Repr

/-- `AckDecode` (R151). -/
def ackDecode (a : Ack) : AckClass :=
  if a = 0b001#3 then .ok
  else if a = 0b010#3 then .wait
  else if a = 0b100#3 then .fault
  else .protocolError

/-- The five outcomes of a transfer (60_exceptions.md R200). -/
inductive TransferOutcome where
  | ok | wait | fault | protocolError | parityMismatch
  deriving DecidableEq, Repr

/-- `Outcome(ack, rnw, perr)` (R183). -/
def outcome (a : Ack) (rnw perr : Bool) : TransferOutcome :=
  match ackDecode a with
  | .ok => if rnw && perr then .parityMismatch else .ok
  | .wait => .wait
  | .fault => .fault
  | .protocolError => .protocolError

/-- The result code of an outcome; ProtocolError carries the acknowledge (R88). -/
def resultCode (o : TransferOutcome) (a : Ack) : BitVec 4 :=
  match o with
  | .ok => 0x1#4
  | .wait => 0x2#4
  | .fault => 0x4#4
  | .parityMismatch => 0x8#4
  | .protocolError => a.setWidth 4

end Sys2Proof.Machine
end

