-- ==== Sys2Proof/Machine/Operands.lean ====
section
/-! DEFINITION. The operands of an operation: the request framer (42_request_framer.md), the ports an
instruction is driven on and read from (10_state.md R20), the output ports (R21) and a caller's read of
an output register (R43). -/

namespace Sys2Proof.Machine

open Sys2Proof

/-- `Frame(REQ) = {park 1, stop 0, Parity4(REQ), REQ[3:0], start 1}` (R82, R130). -/
def frame (req : Nibble) : Byte :=
  1#1 ++ (0#1 ++ (BitVec.ofBool (parity4 req) ++ (req ++ 1#1)))

/-! ### Instructions on the ports -/

/-- The configuration write the caller drives in this step, if any (R27). -/
def fetchCfg (p : Inputs) : Option Instr :=
  if p.cfgWe then some (decodeCfgw (cfgWord p.cfgTrn p.cfgIdle p.cfgDpen) p.cfgClkdly) else none

/-- The request the caller starts in this step, if any (46_transfers.md R180). -/
def fetchStart (p : Inputs) : Option Instr :=
  if p.start then some (decodeReq4 (reqNibble p.reqApndp p.reqRnw p.reqA) p.reqTs p.wdata) else none

/-- The ports that carry a port word, on top of what else is driven in the step. -/
def drivePorts (w : PortWord) (p : Inputs) : Inputs :=
  match w.strobe with
  | .start =>
    let b := w.word.getD 0 0#8
    { p with
      rst := false, cfgWe := false, start := true
      reqApndp := b.getLsbD 0, reqRnw := b.getLsbD 1, reqA := b.extractLsb' 2 2
      reqTs := w.ts, wdata := w.wdata, reads := [] }
  | .cfgWe =>
    let b := w.word.getD 1 0#8 ++ w.word.getD 0 0#8
    { p with
      rst := false, cfgWe := true, start := false
      cfgTrn := b.extractLsb' 9 3, cfgIdle := b.extractLsb' 1 8, cfgDpen := b.getLsbD 0
      cfgClkdly := w.clkdly, reads := [] }

/-! ### Output ports (R21) -/

/-- The output ports. An output that holds no value is `none` (R43). -/
structure OutPorts where
  swclk     : Bool
  swdioOut  : Bool
  swdioOe   : Bool
  busy      : Bool
  done      : Bool
  result    : Option (BitVec 4)
  ackRaw    : Option Ack
  rdata     : Option Data
  timestamp : Option Data
  deriving DecidableEq, Repr

/-- Each output port is driven from its register (R21). -/
def outPorts (s : State) : OutPorts where
  swclk := s.swclk
  swdioOut := s.dout
  swdioOe := s.oe
  busy := s.busy
  done := s.done
  result := s.result
  ackRaw := s.ackRaw
  rdata := s.rdata
  timestamp := s.tsr

/-- What the host puts on SWDIO: its level when OE = 1, nothing when it has released the line (R22). -/
def hostLevel (s : State) : Option Bool := if s.oe then some s.dout else none

/-- The value a caller's read of an output register returns, none where it holds none or where a
read of TSR races with the capture (R43). -/
def readOut (r : OutReg) (s : State) : Option ReadValue :=
  match r with
  | .tsr => if s.busy then none else s.tsr.map .tsr
  | .result => s.result.map .result
  | .ackRaw => s.ackRaw.map .ackRaw
  | .rdata => s.rdata.map .rdata

/-- One caller read: the value is returned, or `Fault(ReadUnwritten)` is raised (R43). -/
def serveRead (s : State) (r : OutReg) : State :=
  match readOut r s with
  | some v => { s with readBack := s.readBack ++ [v] }
  | none => raise .readUnwritten s

/-- The caller's reads of one step, in order; they see the registers as the step finds them.
Log 7. -/
def serveReads (rs : List OutReg) (s : State) : State :=
  rs.foldl serveRead { s with readBack := [] }

end Sys2Proof.Machine
end

