-- ==== Sys2Proof/Machine/Configuration.lean ====
section
/-! DEFINITION. The meaning of CFG, the configuration write (10_state.md R27). -/

namespace Sys2Proof.Machine

open Sys2Proof

/-- The configuration write: refused with a mark while BUSY = 1 or where the turnaround count is
illegal, CFG then unchanged (R27, R23, R89). -/
def writeConfig (c : Cfg) (s : State) : State :=
  if s.busy then raise .cfgWriteWhileBusy s
  else if legalTrn c.trn then { s with cfg := c }
  else raise .cfgIllegal s

/-- CFG (R27). -/
def execCfg (trn : BitVec 3) (idle : BitVec 8) (dpen : Bool) (clkdly : ClkDelay) (s : State) : Answer :=
  .next (writeConfig { trn := trn, idle := idle, dpen := dpen, clkdly := clkdly } s)

end Sys2Proof.Machine
end

