-- ==== Sys2Proof/Machine/Transfers.lean ====
section
/-! DEFINITION. The meanings of the four transfer operations (46_transfers.md R184 to R187): each is
the start of R180 with its own request. The cycles that follow are the rows of R181, one a step
(Machine/Sequencer.lean), and the completion of R182. Log 1. -/

namespace Sys2Proof.Machine

open Sys2Proof

/-- Transfer start (R180). While BUSY = 1 it raises `Fault(StartWhileBusy)` and changes nothing else.
Otherwise it latches the request, snapshots CFG, invalidates RESULT, ACK_RAW and RDATA, frames the
packet and enters REQ. -/
def startTransfer (apndp rnw : Bool) (a : Select) (ts : Bool) (wdata : Option Data) (s : State) : State :=
  if s.busy then raise .startWhileBusy s
  else
    { s with
      lApndp := apndp, lRnw := rnw, lA := a, lTs := ts, lWdata := wdata
      sTrn := s.cfg.trn, sIdle := s.cfg.idle, sDpen := s.cfg.dpen
      result := none, ackRaw := none, rdata := none, perr := false
      pkt := frame (reqNibble apndp rnw a)
      busy := true, done := false
      phase := .req, cnt := 0#8 }

/-- DPR, read a debug-port register (R184). -/
def execDpr (a : Select) (ts : Bool) (s : State) : Answer :=
  .next (startTransfer false true a ts none s)

/-- DPW, write a debug-port register (R185). -/
def execDpw (a : Select) (ts : Bool) (wdata : Data) (s : State) : Answer :=
  .next (startTransfer false false a ts (some wdata) s)

/-- APR, read an access-port register (R186). -/
def execApr (a : Select) (ts : Bool) (s : State) : Answer :=
  .next (startTransfer true true a ts none s)

/-- APW, write an access-port register (R187). -/
def execApw (a : Select) (ts : Bool) (wdata : Data) (s : State) : Answer :=
  .next (startTransfer true false a ts (some wdata) s)

end Sys2Proof.Machine
end

