-- ==== Sys2Proof/Machine/Dispatch.lean ====
section
/-! DEFINITION. One arm per instruction: the meaning it calls. -/

namespace Sys2Proof.Machine

open Sys2Proof

def exec (i : Instr) (s : State) : Host.Outcome State Fault Refusal :=
  match i with
  | .dpw a ts wdata => Sys2Proof.Machine.execDpw a ts wdata s
  | .apw a ts wdata => Sys2Proof.Machine.execApw a ts wdata s
  | .dpr a ts => Sys2Proof.Machine.execDpr a ts s
  | .apr a ts => Sys2Proof.Machine.execApr a ts s
  | .cfg trn idle dpen clkdly => Sys2Proof.Machine.execCfg trn idle dpen clkdly s

end Sys2Proof.Machine
end

