-- ==== Sys2Proof/Machine/Sequencer.lean ====
section
/-! DEFINITION. The transfer sequencer: one definition per row of the table of 46_transfers.md R181, and
the completion of R182. -/

namespace Sys2Proof.Machine

open Sys2Proof

/-- The cycles of a dummy data phase and of the back-off, `DUMMY_N` = 33 (00_scope.md R6). -/
def dummyN : Nat := 33

/-! ### Shared actions -/

/-- `ACK[i] <- CycleR()` (44_ack_interpreter.md R150). -/
def sampleAck (i : Nat) (b : Bool) (s : State) : State :=
  let s := cycleR b s
  { s with ack := putBit s.ack i b }

/-- `b <- CycleR(); SH[i] <- b; PAR <- PAR ^ b` (45_data_phase_sequencer.md R160). -/
def sampleData (i : Nat) (b : Bool) (s : State) : State :=
  let s := cycleR b s
  accumulate b { s with sh := putBit s.sh i b }

/-- `CycleW(SH[i]); PAR <- PAR ^ SH[i]` (R162). -/
def sendData (i : Nat) (s : State) : State :=
  let b := s.sh.getLsbD i
  accumulate b (cycleW b s)

/-- `PAR <- 0` (R123). -/
def clearParity (s : State) : State := { s with par := false }

/-- `SH <- L_WDATA; PAR <- 0` (R162). L_WDATA holds a value in every write (R40). Log 12. -/
def loadWriteData (s : State) : Answer :=
  match s.lWdata with
  | some v => .next (clearParity { s with sh := v })
  | none => .fault .latchedDataAbsent

/-- `if L_TS == 1 then TSR <- ts_now` (R163). -/
def captureTime (t : Data) (s : State) : State := if s.lTs then { s with tsr := some t } else s

/-- The phase the acknowledge selects (44_ack_interpreter.md R152, R181): this engine's only branch,
and its entry to the error paths (60_exceptions.md R206). -/
def dispatchAck (s : State) : State :=
  match ackDecode s.ack with
  | .ok => if s.lRnw then enter .rdata (clearParity s) else enter .trn2w s
  | .wait => if s.sDpen && s.lRnw then enter .dummyr s else enter .trnwf s
  | .fault => if s.sDpen && s.lRnw then enter .dummyr s else enter .trnwf s
  | .protocolError => enter .backoff s

/-! ### The rows -/

/-- REQ: eight packet cycles, then the release (42_request_framer.md R131, R132). -/
def rowReq (s : State) : Answer :=
  row 8 (fun s => cycleW (s.pkt.getLsbD s.cnt.toNat) s)
    (fun s => .next (enter .trn1 (disableOutput s))) s

/-- TRN1 (43_turnaround_fsm.md R140). -/
def rowTrn1 (s : State) : Answer :=
  row s.sTrn.toNat cycleZ (fun s => .next (enter .ack s)) s

/-- ACK: three samples, then the dispatch (44_ack_interpreter.md R150, R152). -/
def rowAck (b : Bool) (s : State) : Answer :=
  row 3 (fun s => sampleAck s.cnt.toNat b s) (fun s => .next (dispatchAck s)) s

/-- RDATA: 32 data samples (R160). -/
def rowRdata (b : Bool) (s : State) : Answer :=
  row 32 (fun s => sampleData s.cnt.toNat b s) (fun s => .next (enter .rpar s)) s

/-- RPAR: the parity sample and the check (R160, 41_parity_unit.md R122). -/
def rowRpar (b : Bool) (s : State) : Answer :=
  row 1 (fun s => checkParity b (cycleR b s)) (fun s => .next (enter .trn2r s)) s

/-- TRN2R (R161). -/
def rowTrn2r (s : State) : Answer :=
  row s.sTrn.toNat cycleZ (fun s => .next (enter .post (enableOutput s))) s

/-- TRN2W, then the load of the write data (R162). -/
def rowTrn2w (s : State) : Answer :=
  row s.sTrn.toNat cycleZ
    (fun s => andThen (loadWriteData (enableOutput s)) fun s => .next (enter .wdata s)) s

/-- WDATA: 32 data cycles (R162). -/
def rowWdata (s : State) : Answer :=
  row 32 (fun s => sendData s.cnt.toNat s) (fun s => .next (enter .wpar s)) s

/-- WPAR: the parity cycle (R162). -/
def rowWpar (s : State) : Answer :=
  row 1 (fun s => cycleW s.par s) (fun s => .next (enter .post s)) s

/-- POST, a control step: the timestamp, then the idle cycles if there are any (R163, R164). -/
def rowPost (t : Data) (s : State) : Answer :=
  let s := captureTime t s
  if s.sIdle = 0#8 then .next (enter .finish s) else .next (enter .idlec (driveBit false s))

/-- IDLEC: the idle cycles (R164). -/
def rowIdlec (s : State) : Answer :=
  row s.sIdle.toNat (cycleW false) (fun s => .next (enter .finish s)) s

/-- DUMMYR: the dummy read (R166). -/
def rowDummyr (s : State) : Answer :=
  row dummyN cycleZ (fun s => .next (enter .trnwf s)) s

/-- TRNWF, then the dummy write if one runs (R167, R168). -/
def rowTrnwf (s : State) : Answer :=
  row s.sTrn.toNat cycleZ
    (fun s =>
      let s := enableOutput s
      if s.sDpen && !s.lRnw then .next (enter .dummyw (driveBit false s)) else .next (enter .finish s)) s

/-- DUMMYW: the dummy write (R168). -/
def rowDummyw (s : State) : Answer :=
  row dummyN (cycleW false) (fun s => .next (enter .finish s)) s

/-- BACKOFF: the turnaround and 33 released cycles, then the driver again (R170). -/
def rowBackoff (s : State) : Answer :=
  row (s.sTrn.toNat + dummyN) cycleZ (fun s => .next (enter .finish (enableOutput s))) s

/-- Transfer completion, the FINISH step (R182). Log 19 for CNT. -/
def complete (s : State) : State :=
  let s := driveBit true s
  enter .idle
    { s with
      ackRaw := some s.ack
      result := some (resultCode (outcome s.ack s.lRnw s.perr) s.ack)
      rdata := if ackDecode s.ack = .ok ∧ s.lRnw = true then some s.sh else none
      busy := false
      done := true }

/-- One engine step while BUSY = 1: the row of the current PHASE (R181). -/
def engineRow (p : Inputs) (s : State) : Answer :=
  match s.phase with
  | .idle => .fault .busyInIdlePhase
  | .req => rowReq s
  | .trn1 => rowTrn1 s
  | .ack => rowAck (readBit p) s
  | .rdata => rowRdata (readBit p) s
  | .rpar => rowRpar (readBit p) s
  | .trn2r => rowTrn2r s
  | .trn2w => rowTrn2w s
  | .wdata => rowWdata s
  | .wpar => rowWpar s
  | .post => rowPost p.tsNow s
  | .idlec => rowIdlec s
  | .dummyr => rowDummyr s
  | .trnwf => rowTrnwf s
  | .dummyw => rowDummyw s
  | .backoff => rowBackoff s
  | .finish => .next (complete s)

end Sys2Proof.Machine
end

