-- ==== Sys2Proof/Machine/Issue.lean ====
section
/-! DEFINITION. What one step is made of, in the order the spec gives: the caller's reads, reset, the
configuration write, the start, and the engine's own row (10_state.md R27, R33; 46_transfers.md R180,
R181; 70_reset_and_hazards.md R230). -/

namespace Sys2Proof.Machine

open Sys2Proof

/-- Run the instruction on the ports, if there is one. -/
def issue (i : Option Instr) (s : State) : Answer :=
  match i with
  | some i => exec i s
  | none => .next s

/-- The step takes its inputs and serves the caller's reads, which see the registers as the step finds
them. Log 7. -/
def openStep (p : Inputs) (s : State) : State := serveReads p.reads (takeInputs s)

/-- Every step but a completion leaves DONE = 0 (R33). -/
def clearDone (s : State) : State := { s with done := false }

/-- The engine's part of a step: its row if a transfer was in flight when the step began (R181); a
start accepted in this step issues no bus cycle (R180). Log 8. -/
def engineStep (wasBusy : Bool) (p : Inputs) (s : State) : Answer :=
  if wasBusy then engineRow p s else .next s

/-- One step on inputs p. `rst` wins over every other input (R230); a configuration write comes before
a start in the same step (R180). -/
def stepOn (p : Inputs) (s : State) : Answer :=
  let s' := openStep p s
  if p.rst then .next (resetEngine s')
  else
    andThen (issue (fetchCfg p) (clearDone s')) fun s1 =>
    andThen (issue (fetchStart p) s1) fun s2 =>
    engineStep s.busy p s2

/-- The state in which the caller drives a port word in the coming step, and nothing else. -/
def withPortWord (s : State) (w : PortWord) : State :=
  { s with inputs := drivePorts w (currentInputs s) :: s.inputs.tail }

end Sys2Proof.Machine
end

