-- ==== Sys2Proof/Machine/Step.lean ====
section
/-! DEFINITION. One step of the machine, and the placing of an instruction where it fetches: on the
caller's ports in the coming step. -/

namespace Sys2Proof.Machine

open Sys2Proof

/-- One step: the inputs of this step, the caller's actions on them, and the engine's row. -/
def step (s : State) : Host.Outcome State Fault Refusal := stepOn (currentInputs s) s

/-- `s` with the instruction of an opcode-table word driven on the ports in the coming step. A word
the table has no format for is not driven. Log 13. -/
def State.withFetchWord (s : State) (nbits w : Nat) : State :=
  match tablePortWord nbits w with
  | some p => withPortWord s p
  | none => s

end Sys2Proof.Machine
end

