-- ==== Sys2Proof/Machine/Sequential.lean ====
section
/-! DEFINITION. The sequential view of a transfer (46_transfers.md R188): the procedures of files 42 to
45 as their pseudocode writes them, over the same bus cycles, with no sequencer position. The machine
never runs this text; an obligation says that its steps perform it. Each cycle and each control step
takes the inputs of one step. -/

namespace Sys2Proof.Machine

open Sys2Proof

/-- The inputs of one step go by. -/
def pass (s : State) : State := clearDone (openStep (currentInputs s) s)

/-- `CycleW(b)` in a step of its own. -/
def stepW (b : Bool) (s : State) : State := cycleW b (pass s)

/-- `CycleZ()` in a step of its own. -/
def stepZ (s : State) : State := cycleZ (pass s)

/-- The level on `swdio_in` in the coming step. -/
def lineLevel (s : State) : Bool := readBit (currentInputs s)

/-- `for i in 0..7: CycleW(PKT[i]); OE <- 0` (R131, R132). -/
def packetPhase (s : State) : State :=
  disableOutput (forN 8 (fun i s => stepW (s.pkt.getLsbD i) s) s)

/-- `Turnaround() = repeat S_TRN: CycleZ()` (R140). -/
def turnaround (s : State) : State := forN s.sTrn.toNat (fun _ => stepZ) s

/-- `for i in 0..2: ACK[i] <- CycleR()` (R150). -/
def ackPhase (s : State) : State := forN 3 (fun i s => sampleAck i (lineLevel s) (pass s)) s

/-- `ReadData()` (R160). -/
def readData (s : State) : State :=
  let s := forN 32 (fun i s => sampleData i (lineLevel s) (pass s)) (clearParity s)
  checkParity (lineLevel s) (cycleR (lineLevel s) (pass s))

/-- `PostOk()` without its last act, which `complete` does (R163, R164, R165). -/
def postOk (s : State) : State :=
  let s := captureTime (currentInputs s).tsNow (pass s)
  if s.sIdle = 0#8 then s else forN s.sIdle.toNat (fun _ => stepW false) (driveBit false s)

/-- `ReadTail()` (R161). -/
def readTail (s : State) : State := postOk (enableOutput (turnaround s))

/-- `WriteData()` (R162). -/
def writeData (s : State) : Answer :=
  andThen (loadWriteData (enableOutput (turnaround s))) fun s =>
    let s := forN 32 (fun i s => sendData i (pass s)) s
    .next (postOk (stepW s.par s))

/-- `WaitFaultTail()` without its last act (R166 to R169). -/
def waitFaultTail (s : State) : State :=
  let s := if s.sDpen && s.lRnw then forN dummyN (fun _ => stepZ) s else s
  let s := enableOutput (turnaround s)
  if s.sDpen && !s.lRnw then forN dummyN (fun _ => stepW false) (driveBit false s) else s

/-- `ProtocolErrorBackoff()` without its last act (R170). -/
def protocolErrorBackoff (s : State) : State :=
  enableOutput (forN dummyN (fun _ => stepZ) (turnaround s))

/-- `Transfer()`, from the state that the start of R180 leaves (R188). -/
def transfer (s : State) : Answer :=
  let s := ackPhase (turnaround (packetPhase s))
  let tail : Answer :=
    match ackDecode s.ack with
    | .ok => if s.lRnw then .next (readTail (readData s)) else writeData s
    | .wait => .next (waitFaultTail s)
    | .fault => .next (waitFaultTail s)
    | .protocolError => .next (protocolErrorBackoff s)
  andThen tail fun s => .next (complete (pass s))

end Sys2Proof.Machine
end

