-- ==== Sys2Proof/Safety.lean ====
section
/-! DEFINITION. The terms claims are stated in: what the outside does over the coming steps, what a
caller may do (60_exceptions.md R211), what a transfer's path looks like on the wire (70_reset_and_hazards.md
R239), and the invariant that every step keeps. -/

namespace Sys2Proof.Machine

open Sys2Proof

/-! ### The coming inputs -/

/-- What the outside drives k steps from now. -/
def upcoming (k : Nat) (s : State) : Inputs :=
  match s.inputs[k]? with
  | some p => p
  | none => { swdioIn := Config.swdioIn (s.stepNo + k), tsNow := Config.tsNow (s.stepNo + k) }

/-- The level on `swdio_in` k steps from now. -/
def level (k : Nat) (s : State) : Bool := (upcoming k s).swdioIn

/-- The caller drives none of `rst`, `cfg_we` and `start`, and reads nothing. -/
def Inputs.silent (p : Inputs) : Bool := !p.rst && !p.cfgWe && !p.start && p.reads.isEmpty

/-- The caller is silent for the next n steps. -/
def quiet (n : Nat) (s : State) : Prop := ∀ k, k < n → (upcoming k s).silent = true

/-- The environment assumption of 60_exceptions.md R210, a premise that a claim may take
(93_implementation_defined.md U7): `ts_now` in the coming steps is the time T modulo 2^32, and T never runs
backwards. No definition of the machine rests on it. Log 21. -/
def monotonicTime (T : Nat → Nat) (s : State) : Prop :=
  (∀ j k, j ≤ k → T j ≤ T k) ∧ ∀ k, (upcoming k s).tsNow = BitVec.ofNat 32 (T k)

/-- The coming step is a capture: POST in flight with L_TS = 1, and no reset
(45_data_phase_sequencer.md R163). -/
def capturing (s : State) : Prop :=
  s.busy = true ∧ s.phase = .post ∧ s.lTs = true ∧ (currentInputs s).rst = false

/-- n steps, stopping at the first stop: the host's run (Host/Core.lean), over this machine's own
types. -/
def run (n : Nat) (s : State) : Answer :=
  match n with
  | 0 => .next s
  | k + 1 => andThen (step s) (run k)

/-- The state in which the row of a step with a silent caller runs: the inputs taken, DONE cleared. -/
def base (s : State) : State :=
  { s with inputs := s.inputs.tail, stepNo := s.stepNo + 1, done := false, readBack := [] }

/-- The caller may read this register now (R211, R43). -/
def readable (r : OutReg) (s : State) : Bool :=
  match r with
  | .tsr => !s.busy && s.tsr.isSome
  | .result => s.result.isSome
  | .ackRaw => s.ackRaw.isSome
  | .rdata => s.rdata.isSome

/-- The value such a read returns. -/
def registerValue (r : OutReg) (s : State) : Option ReadValue :=
  match r with
  | .tsr => s.tsr.map .tsr
  | .result => s.result.map .result
  | .ackRaw => s.ackRaw.map .ackRaw
  | .rdata => s.rdata.map .rdata

/-- The caller keeps to the column "when it may" of R211. -/
def dutiful (p : Inputs) (s : State) : Bool :=
  (!p.rst || !s.busy)
  && (!p.cfgWe || p.rst || (!s.busy && legalTrn p.cfgTrn))
  && (!p.start || p.rst || !s.busy)
  && p.reads.all (fun r => readable r s)

/-! ### A transfer's path on the wire -/

/-- One of the four transfer operations. -/
def isTransfer : Instr → Bool
  | .dpw _ _ _ => true
  | .apw _ _ _ => true
  | .dpr _ _ => true
  | .apr _ _ => true
  | .cfg _ _ _ _ => false

/-- The acknowledge the target is about to give, from the state a start leaves: the levels of the
three steps after the packet and the first turnaround (R85, R150). -/
def comingAck (s : State) : Ack :=
  let n := 8 + s.sTrn.toNat
  BitVec.ofBool (level (n + 2) s) ++ (BitVec.ofBool (level (n + 1) s) ++ BitVec.ofBool (level n s))

/-- The class of that acknowledge. -/
def comingClass (s : State) : AckClass := ackDecode (comingAck s)

/-- The table of R239: the number of bus cycles, with t = S_TRN and i = S_IDLE. -/
def cycleCount (c : AckClass) (rnw dpen : Bool) (t i : Nat) : Nat :=
  match c with
  | .ok => if rnw then 8 + t + 3 + 33 + t + i else 8 + t + 3 + t + 33 + i
  | .wait => if dpen then 8 + t + 3 + 33 + t else 8 + t + 3 + t
  | .fault => if dpen then 8 + t + 3 + 33 + t else 8 + t + 3 + t
  | .protocolError => 8 + t + 3 + (t + 33)

/-- The bus cycles of the transfer a start has just begun. -/
def transferCycles (s : State) : Nat :=
  cycleCount (comingClass s) s.lRnw s.sDpen s.sTrn.toNat s.sIdle.toNat

/-- The engine steps from the state a start leaves to completion: the cycles, FINISH, and POST on an
OK acknowledge (R181; 95_test_vectors.md, "Steps"). -/
def transferSteps (s : State) : Nat :=
  transferCycles s + (if comingClass s = .ok then 2 else 1)

/-- n sampled cycles from step k on. -/
def sampledCycles (k n : Nat) (s : State) : List BusCycle :=
  (List.range n).map fun i => .r (level (k + i) s)

/-- The packet on the wire, bit 0 first (R83). -/
def packetCycles (pkt : Byte) : List BusCycle := (List.range 8).map fun i => .w (pkt.getLsbD i)

/-- The write data frame on the wire, bit 0 first, then its parity (R87). -/
def writeFrame (d : Data) : List BusCycle :=
  (List.range 32).map (fun i => .w (d.getLsbD i)) ++ [.w (parity32 d)]

/-- The cycles after the acknowledge (R141, R160 to R170); d is the write data. -/
def tailCycles (d : Data) (s : State) : List BusCycle :=
  let t := s.sTrn.toNat
  let turn := List.replicate t BusCycle.z
  let idle := List.replicate s.sIdle.toNat (BusCycle.w false)
  match comingClass s with
  | .ok => if s.lRnw then sampledCycles (11 + t) 33 s ++ turn ++ idle else turn ++ writeFrame d ++ idle
  | .protocolError => turn ++ List.replicate 33 .z
  | .wait | .fault =>
    (if s.sDpen && s.lRnw then List.replicate 33 .z else []) ++ turn
      ++ (if s.sDpen && !s.lRnw then List.replicate 33 (.w false) else [])

/-- The whole trace of the transfer a start has just begun (R188). -/
def transferTrace (d : Data) (s : State) : List BusCycle :=
  packetCycles s.pkt ++ List.replicate s.sTrn.toNat .z
    ++ sampledCycles (8 + s.sTrn.toNat) 3 s ++ tailCycles d s

/-- The idle posture: SWCLK = 1, OE = 1, DOUT = 1 (10_state.md R32). -/
def idlePosture (s : State) : Prop := s.swclk = true ∧ s.oe = true ∧ s.dout = true

/-! ### The invariant -/

/-- The column L of R181; 0 for the control steps. -/
def phaseLength (s : State) : Nat :=
  match s.phase with
  | .idle | .post | .finish => 0
  | .req => 8
  | .ack => 3
  | .rdata | .wdata => 32
  | .rpar | .wpar => 1
  | .trn1 | .trn2r | .trn2w | .trnwf => s.sTrn.toNat
  | .idlec => s.sIdle.toNat
  | .dummyr | .dummyw => 33
  | .backoff => s.sTrn.toNat + 33

/-- The phases in which the host drives the line (43_turnaround_fsm.md R143). -/
def hostPhase : Phase → Bool
  | .idle | .req | .wdata | .wpar | .post | .idlec | .dummyw | .finish => true
  | .trn1 | .ack | .rdata | .rpar | .trn2r | .trn2w | .dummyr | .trnwf | .backoff => false

/-- The phases in which the host samples the line (40_bus_primitives.md R103). -/
def samplePhase : Phase → Bool
  | .ack | .rdata | .rpar => true
  | .idle | .req | .trn1 | .trn2r | .trn2w | .wdata | .wpar | .post | .idlec | .dummyr | .trnwf
  | .dummyw | .backoff | .finish => false

/-- What the acknowledge, the request and the snapshot must be for the engine to be in a phase: the
dispatch of 44_ack_interpreter.md R152 and the rows of R181. -/
def onPath (s : State) : Prop :=
  match s.phase with
  | .idle | .req | .trn1 | .ack => True
  | .rdata | .rpar | .trn2r => ackDecode s.ack = .ok ∧ s.lRnw = true
  | .trn2w => ackDecode s.ack = .ok ∧ s.lRnw = false
  | .wdata | .wpar => ackDecode s.ack = .ok ∧ s.lRnw = false ∧ s.lWdata = some s.sh
  | .post => ackDecode s.ack = .ok
  | .idlec => ackDecode s.ack = .ok ∧ s.sIdle ≠ 0#8
  | .dummyr => (ackDecode s.ack = .wait ∨ ackDecode s.ack = .fault) ∧ s.sDpen = true ∧ s.lRnw = true
  | .trnwf => ackDecode s.ack = .wait ∨ ackDecode s.ack = .fault
  | .dummyw => (ackDecode s.ack = .wait ∨ ackDecode s.ack = .fault) ∧ s.sDpen = true ∧ s.lRnw = false
  | .backoff => ackDecode s.ack = .protocolError
  | .finish => True

/-- What PAR holds in the data phases (10_state.md R37, 41_parity_unit.md R123). -/
def parityHeld (s : State) : Prop :=
  match s.phase with
  | .rdata | .wdata => s.par = parityBelow s.cnt.toNat s.sh
  | .rpar | .wpar => s.par = parity32 s.sh
  | .idle | .req | .trn1 | .ack | .trn2r | .trn2w | .post | .idlec | .dummyr | .trnwf | .dummyw
  | .backoff | .finish => True

/-- What holds in every state that a run reaches. -/
structure Inv (s : State) : Prop where
  /-- CFG is legal (10_state.md R23). -/
  cfgLegal : legalTrn s.cfg.trn = true
  /-- SWCLK = 1 between bus cycles (R32). -/
  clockIsHigh : s.swclk = true
  /-- BUSY = 0 exactly in PHASE = IDLE (R33, R34). -/
  busyIffPhase : s.busy = true ↔ s.phase ≠ .idle
  /-- OE follows the phase: no driven cycle while released, no released cycle while driving
  (40_bus_primitives.md R102, 43_turnaround_fsm.md R143). -/
  driver : s.oe = hostPhase s.phase
  /-- The idle posture between transfers (R32). -/
  idleHigh : s.busy = false → s.dout = true
  /-- RESULT, ACK_RAW and RDATA hold no value during a transfer (R29 to R31). -/
  invalidated : s.busy = true → s.result = none ∧ s.ackRaw = none ∧ s.rdata = none
  /-- DONE only after a completion (R33). -/
  doneIdle : s.done = true → s.busy = false ∧ s.result.isSome = true
  /-- CNT stays below the phase's length during a transfer (R34); between transfers nothing is said of
  it, as R44 leaves it unspecified. -/
  counted : s.busy = true → s.cnt.toNat = 0 ∨ s.cnt.toNat < phaseLength s
  /-- The snapshot is legal (R41). -/
  snapshotLegal : s.busy = true → legalTrn s.sTrn = true
  /-- PKT frames the latched request (R35). -/
  framed : s.busy = true → s.pkt = frame (reqNibble s.lApndp s.lRnw s.lA)
  /-- L_WDATA holds a value exactly in writes (R40). -/
  writeHeld : s.busy = true → s.lWdata.isSome = !s.lRnw
  /-- The phase agrees with the acknowledge and the request (R152, R181). -/
  path : onPath s
  /-- PAR accumulates the data bits (R123). -/
  parity : parityHeld s
  /-- PERR is raised by the read parity check alone (R39). -/
  perrRead : s.busy = true → s.perr = true →
    s.lRnw = true ∧ (s.phase = .trn2r ∨ s.phase = .post ∨ s.phase = .idlec ∨ s.phase = .finish)
  /-- The outputs of a completed transfer agree (60_exceptions.md R202). -/
  outputs : s.busy = false → s.ackRaw.isSome = s.result.isSome ∧
    (s.rdata.isSome = true → s.ackRaw = some 0b001#3 ∧ (s.result = some 0x1#4 ∨ s.result = some 0x8#4))

/-- No model fault is recorded: the premise of R204. -/
def unmarked (s : State) : Prop := s.faults = FaultMark.clear

/-- A step of a run that claims may speak of without a caller at fault. -/
def safeStep (s : State) : Prop := Inv s ∧ unmarked s ∧ dutiful (currentInputs s) s = true

end Sys2Proof.Machine
end

