-- ==== Sys2Proof/Certificates/Slice0/Obligations.lean ====
section
/-! DEFINITION. The statements for the provers. Each docstring names the rule of spec/ it formalises, or
says that it rests on a choice of the model's and names the log entry. -/

open Sys2Proof Sys2Proof.Machine

/-! ### Encodings -/

/-- Decoding the encoding of any instruction, well-formed or not, gives it back with every operand
(R80, R89, R90; the written-out word is the model's choice, log 13). -/
def Obligations.DecodeEncodeRoundTrip : Prop :=
  ∀ i : Instr, decode (encode i) = .ok i

/-- Each instruction has one word and one strobe: a word that decodes is the encoding's (R84, R90;
log 13). -/
def Obligations.DecodedWordIsTheEncoding : Prop :=
  ∀ (p : PortWord) (i : Instr), decode p = .ok i →
    (encode i).strobe = p.strobe ∧ (encode i).word = p.word

/-- Words written out from the opcode table: DPW 0x8, APW 0x4, DPR 0xC, APR 0x0, and CFG with trn 2,
idle 5, dp 1 (R89, R90). That the configuration word is two bytes with the low one first is the model's
choice (log 13). -/
def Obligations.OpcodeTableWordsDecode : Prop :=
  ∀ (ts : Bool) (v : Data) (c : ClkDelay),
    decode ⟨.start, [0b00001000#8], ts, v, c⟩ = .ok (.dpw 0b10#2 ts v) ∧
    decode ⟨.start, [0b00000101#8], ts, v, c⟩ = .ok (.apw 0b01#2 ts v) ∧
    decode ⟨.start, [0b00001110#8], ts, v, c⟩ = .ok (.dpr 0b11#2 ts) ∧
    decode ⟨.start, [0b00000011#8], ts, v, c⟩ = .ok (.apr 0b00#2 ts) ∧
    decode ⟨.cfgWe, [0b00001011#8, 0b00000100#8], ts, v, c⟩ = .ok (.cfg 2#3 5#8 true c)

/-- R84 and its map: every nibble is a request, its operation is REQ[1:0], its operand REQ[3:2], and
its packet the one of the map. -/
def Obligations.AllRequestsAreLegal : Prop :=
  ∀ (req : Nibble) (ts : Bool) (v : Data) (c : ClkDelay),
    decode ⟨.start, [0#4 ++ req], ts, v, c⟩ = .ok
      (let a := req.extractLsb' 2 2
       if req.extractLsb' 0 2 = 0b00#2 then .dpw a ts v
       else if req.extractLsb' 0 2 = 0b01#2 then .apw a ts v
       else if req.extractLsb' 0 2 = 0b10#2 then .dpr a ts
       else .apr a ts) ∧
    some (frame req) =
      [0x81#8, 0xA3#8, 0xA5#8, 0x87#8, 0xA9#8, 0x8B#8, 0x8D#8, 0xAF#8,
       0xB1#8, 0x93#8, 0x95#8, 0xB7#8, 0x99#8, 0xBB#8, 0xBD#8, 0x9F#8][req.toNat]?

/-- The layouts of R80 and R82: the nibble's bits, and the packet's formula. -/
def Obligations.NibbleAndPacketLayout : Prop :=
  (∀ (apndp rnw : Bool) (a : Select),
    (reqNibble apndp rnw a).getLsbD 0 = apndp ∧ (reqNibble apndp rnw a).getLsbD 1 = rnw ∧
    (reqNibble apndp rnw a).getLsbD 2 = a.getLsbD 0 ∧ (reqNibble apndp rnw a).getLsbD 3 = a.getLsbD 1) ∧
  (∀ req : Nibble,
    frame req = 0x81#8 ||| (req.setWidth 8 <<< 1) |||
      ((if xor (xor (req.getLsbD 0) (req.getLsbD 1)) (xor (req.getLsbD 2) (req.getLsbD 3)) then 1#8 else 0#8) <<< 5) ∧
    (frame req).getLsbD 0 = true ∧ (frame req).getLsbD 6 = false ∧ (frame req).getLsbD 7 = true)

/-! ### Parity, acknowledge and outcome -/

/-- `Parity32(d)` is the popcount of d modulo 2, and its corner values (R121). -/
def Obligations.DataParityIsPopcount : Prop :=
  (∀ d : Data, parity32 d = decide ((List.range 32).countP (fun i => d.getLsbD i) % 2 = 1)) ∧
  parity32 0x00000000#32 = false ∧ parity32 0xFFFFFFFF#32 = false ∧ parity32 0x00000001#32 = true ∧
  parity32 0x80000000#32 = true ∧ parity32 0x7FFFFFFF#32 = true ∧ parity32 0x12345678#32 = true

/-- The read parity check over a 33-bit frame (R122): flipping one bit of the frame turns the check's
answer, and flipping two leaves it. -/
def Obligations.FrameCheckSeesOddErrors : Prop :=
  (∀ (d : Data) (p : Bool) (i : Nat), i < 32 →
    (parity32 (d ^^^ (1#32 <<< i)) != p) = !(parity32 d != p)) ∧
  (∀ (d : Data) (p : Bool), (parity32 d != !p) = !(parity32 d != p)) ∧
  (∀ (d : Data) (p : Bool) (i j : Nat), i < 32 → j < 32 → i ≠ j →
    (parity32 (d ^^^ (1#32 <<< i) ^^^ (1#32 <<< j)) != p) = (parity32 d != p)) ∧
  (∀ (d : Data) (p : Bool) (i : Nat), i < 32 →
    (parity32 (d ^^^ (1#32 <<< i)) != !p) = (parity32 d != p))

/-- `AckDecode` (R151) and `Outcome` (R183), value by value. -/
def Obligations.AcknowledgeSelectsTheOutcome : Prop :=
  (∀ a : Ack,
    ackDecode a = (if a = 0b001#3 then .ok else if a = 0b010#3 then .wait
      else if a = 0b100#3 then .fault else .protocolError)) ∧
  (∀ (a : Ack) (rnw perr : Bool),
    (ackDecode a = .ok → outcome a rnw perr =
      if rnw = true ∧ perr = true then TransferOutcome.parityMismatch else TransferOutcome.ok) ∧
    (ackDecode a = .wait → outcome a rnw perr = .wait) ∧
    (ackDecode a = .fault → outcome a rnw perr = .fault) ∧
    (ackDecode a = .protocolError → outcome a rnw perr = .protocolError) ∧
    (outcome a rnw perr = .parityMismatch → ackDecode a = .ok ∧ rnw = true ∧ perr = true))

/-- The result codes of R88: their values, none above 8, and no two outcomes with one code. -/
def Obligations.ResultCodesAreDistinct : Prop :=
  (∀ (a : Ack) (rnw perr : Bool),
    (resultCode (outcome a rnw perr) a).toNat ≤ 8 ∧
    (outcome a rnw perr = .ok → resultCode (outcome a rnw perr) a = 0x1#4) ∧
    (outcome a rnw perr = .wait → resultCode (outcome a rnw perr) a = 0x2#4) ∧
    (outcome a rnw perr = .fault → resultCode (outcome a rnw perr) a = 0x4#4) ∧
    (outcome a rnw perr = .parityMismatch → resultCode (outcome a rnw perr) a = 0x8#4) ∧
    (outcome a rnw perr = .protocolError → (resultCode (outcome a rnw perr) a).toNat = a.toNat)) ∧
  (∀ (a a' : Ack) (rnw rnw' perr perr' : Bool),
    resultCode (outcome a rnw perr) a = resultCode (outcome a' rnw' perr') a' →
      outcome a rnw perr = outcome a' rnw' perr')

/-! ### The configuration write and the start -/

/-- The configuration write (R27), with its frame: nothing but CFG, or nothing but one mark, changes;
and a transfer started after it works from it. -/
def Obligations.ConfigurationWrite : Prop :=
  ∀ (s : State) (trn : BitVec 3) (idle : BitVec 8) (dpen : Bool) (clkdly : ClkDelay),
    (s.busy = true → exec (.cfg trn idle dpen clkdly) s =
      .next { s with faults := { s.faults with cfgWriteWhileBusy := true } }) ∧
    (s.busy = false → ¬ (1 ≤ trn.toNat ∧ trn.toNat ≤ 4) → exec (.cfg trn idle dpen clkdly) s =
      .next { s with faults := { s.faults with cfgIllegal := true } }) ∧
    (s.busy = false → 1 ≤ trn.toNat ∧ trn.toNat ≤ 4 →
      exec (.cfg trn idle dpen clkdly) s = .next { s with cfg := ⟨trn, idle, dpen, clkdly⟩ } ∧
      ∀ i, isTransfer i = true → ∃ t, exec i { s with cfg := ⟨trn, idle, dpen, clkdly⟩ } = .next t ∧
        t.sTrn = trn ∧ t.sIdle = idle ∧ t.sDpen = dpen)

/-- DPR and APR while BUSY = 0 (R180, R184, R186): the whole next state, so also its frame. CFG, TSR,
the posture, SH, PAR, ACK, the marks and the trace stay. -/
def Obligations.ReadStartLatchesTheRequest : Prop :=
  ∀ (s : State) (a : Select) (ts : Bool), s.busy = false →
    exec (.dpr a ts) s = .next
      { s with
        lApndp := false, lRnw := true, lA := a, lTs := ts, lWdata := none
        sTrn := s.cfg.trn, sIdle := s.cfg.idle, sDpen := s.cfg.dpen
        result := none, ackRaw := none, rdata := none, perr := false
        pkt := frame (reqNibble false true a), busy := true, done := false, phase := .req, cnt := 0#8 } ∧
    exec (.apr a ts) s = .next
      { s with
        lApndp := true, lRnw := true, lA := a, lTs := ts, lWdata := none
        sTrn := s.cfg.trn, sIdle := s.cfg.idle, sDpen := s.cfg.dpen
        result := none, ackRaw := none, rdata := none, perr := false
        pkt := frame (reqNibble true true a), busy := true, done := false, phase := .req, cnt := 0#8 }

/-- DPW and APW while BUSY = 0 (R180, R185, R187), with their frame. -/
def Obligations.WriteStartLatchesTheRequest : Prop :=
  ∀ (s : State) (a : Select) (ts : Bool) (v : Data), s.busy = false →
    exec (.dpw a ts v) s = .next
      { s with
        lApndp := false, lRnw := false, lA := a, lTs := ts, lWdata := some v
        sTrn := s.cfg.trn, sIdle := s.cfg.idle, sDpen := s.cfg.dpen
        result := none, ackRaw := none, rdata := none, perr := false
        pkt := frame (reqNibble false false a), busy := true, done := false, phase := .req, cnt := 0#8 } ∧
    exec (.apw a ts v) s = .next
      { s with
        lApndp := true, lRnw := false, lA := a, lTs := ts, lWdata := some v
        sTrn := s.cfg.trn, sIdle := s.cfg.idle, sDpen := s.cfg.dpen
        result := none, ackRaw := none, rdata := none, perr := false
        pkt := frame (reqNibble true false a), busy := true, done := false, phase := .req, cnt := 0#8 }

/-- A start while a transfer is in flight raises its mark and changes nothing else (R180). -/
def Obligations.StartWhileBusyOnlyMarks : Prop :=
  ∀ (s : State) (i : Instr), s.busy = true → isTransfer i = true →
    exec i s = .next { s with faults := { s.faults with startWhileBusy := true } }

/-! ### One step -/

/-- Where the ports spell an instruction, the step is that instruction, on the state with the inputs
taken, DONE cleared and no read answered; while a transfer is in flight its row follows (R180, R181;
the way a word reaches the ports is the model's choice, log 13). -/
def Obligations.StepRunsTheDecodedInstruction : Prop :=
  ∀ (s : State) (w : PortWord) (i : Instr), decode w = .ok i →
    (s.busy = false → step (withPortWord s w) = exec i (base s)) ∧
    (s.busy = true → step (withPortWord s w) =
      andThen (exec i (base s)) (engineRow (drivePorts w (currentInputs s))))

/-- A configuration write and a start in one step (R180, 92_eei_decisions.md D34): the transfer works
from the CFG just written. Where the write is illegal, the mark is set and the transfer starts from
the old CFG (DEDUCED, log 9). -/
def Obligations.StartUsesTheConfigurationWrittenWithIt : Prop :=
  ∀ s : State, let p := currentInputs s
    p.rst = false → p.reads = [] → p.cfgWe = true → p.start = true → s.busy = false →
    ∃ t, step s = .next t ∧ t.busy = true ∧ t.phase = .req ∧ t.trace = s.trace ∧
      t.pkt = frame (reqNibble p.reqApndp p.reqRnw p.reqA) ∧
      t.sTrn = t.cfg.trn ∧ t.sIdle = t.cfg.idle ∧ t.sDpen = t.cfg.dpen ∧
      (legalTrn p.cfgTrn = true → t.cfg = ⟨p.cfgTrn, p.cfgIdle, p.cfgDpen, p.cfgClkdly⟩ ∧ t.faults = s.faults) ∧
      (legalTrn p.cfgTrn = false → t.cfg = s.cfg ∧ t.faults = { s.faults with cfgIllegal := true })

/-- With a silent caller and no transfer in flight, the engine holds everything for any number of
steps; only DONE and the last reads' answers go (R213, R33). -/
def Obligations.HoldsBetweenTransfers : Prop :=
  ∀ (n : Nat) (s : State), s.busy = false → quiet (n + 1) s →
    Machine.run (n + 1) s = .next
      { s with
        inputs := s.inputs.drop (n + 1), stepNo := s.stepNo + (n + 1), done := false, readBack := [] }

/-- The rows of R44 that give a value, as a condition on a state. -/
def hasResetValues (t : State) : Prop :=
  t.cfg = ⟨1#3, 0#8, false, Config.clkDelayReset⟩ ∧
  t.tsr = none ∧ t.result = none ∧ t.ackRaw = none ∧ t.rdata = none ∧
  t.swclk = true ∧ t.oe = true ∧ t.dout = true ∧ t.busy = false ∧ t.done = false ∧ t.phase = .idle

/-- Reset (R44, R230, R231): the reset state and every reset step have the values of R44; reset wins
over every other input; the fault mark is kept, and ResetWhileBusy is raised where a transfer was in
flight; the trace already issued stands. -/
def Obligations.ResetTakesEveryRegister : Prop :=
  hasResetValues State.reset ∧ State.reset.faults = FaultMark.clear ∧
  ∀ s : State, (currentInputs s).rst = true →
    ∃ t, step s = .next t ∧ hasResetValues t ∧ t.trace = s.trace ∧
      t.faults.resetWhileBusy = (s.faults.resetWhileBusy || s.busy) ∧
      t.faults.startWhileBusy = s.faults.startWhileBusy ∧
      t.faults.cfgWriteWhileBusy = s.faults.cfgWriteWhileBusy ∧
      t.faults.cfgIllegal = s.faults.cfgIllegal ∧
      (s.faults.readUnwritten = true → t.faults.readUnwritten = true)

/-- The caller's reads (R43): each read of a register that holds a value, TSR only while BUSY = 0,
returns it, and any other raises ReadUnwritten. That the reads see the registers as the step finds
them is the model's choice (log 7). -/
def Obligations.CallerReadsReturnOrMark : Prop :=
  ∀ s t : State, step s = .next t →
    t.readBack = (currentInputs s).reads.filterMap
      (fun r => if readable r s then registerValue r s else none) ∧
    t.faults.readUnwritten =
      (s.faults.readUnwritten || (currentInputs s).reads.any fun r => !readable r s)

/-! ### The rows of the sequencer, one cycle each (R181), with a silent caller -/

/-- A transfer is in flight and the caller is silent in the coming step. -/
def inFlight (s : State) : Prop := s.busy = true ∧ (currentInputs s).silent = true

/-- REQ: PKT[CNT] is driven; the eighth cycle releases the line and goes to TRN1 (R83, R131, R132). -/
def Obligations.PacketPhaseSendsThePacket : Prop :=
  ∀ s : State, inFlight s → s.phase = .req → s.cnt.toNat < 8 →
    let b := s.pkt.getLsbD s.cnt.toNat
    step s = .next
      (if s.cnt.toNat = 7 then
        { base s with
          dout := b, swclk := true, trace := s.trace ++ [BusCycle.w b], oe := false, phase := .trn1, cnt := 0#8 }
      else { base s with dout := b, swclk := true, trace := s.trace ++ [BusCycle.w b], cnt := s.cnt + 1#8 })

/-- A turnaround cycle before the last one of its period is released, and neither samples nor drives
(R140, R145). -/
def Obligations.TurnaroundCycleIsReleased : Prop :=
  ∀ s : State, inFlight s →
    s.phase = .trn1 ∨ s.phase = .trn2r ∨ s.phase = .trn2w ∨ s.phase = .trnwf →
    s.cnt.toNat + 1 < s.sTrn.toNat →
    step s = .next { base s with swclk := true, trace := s.trace ++ [BusCycle.z], cnt := s.cnt + 1#8 }

/-- The last cycle of each turnaround period: where it goes and who drives afterwards (R141, R143,
R161, R162, R167, R168). -/
def Obligations.TurnaroundEndsInItsPhase : Prop :=
  ∀ s : State, inFlight s → s.cnt.toNat + 1 = s.sTrn.toNat →
    (s.phase = .trn1 → step s = .next
      { base s with swclk := true, trace := s.trace ++ [BusCycle.z], phase := .ack, cnt := 0#8 }) ∧
    (s.phase = .trn2r → step s = .next
      { base s with swclk := true, trace := s.trace ++ [BusCycle.z], oe := true, phase := .post, cnt := 0#8 }) ∧
    (∀ v, s.phase = .trn2w → s.lWdata = some v → step s = .next
      { base s with
        swclk := true, trace := s.trace ++ [BusCycle.z], oe := true, sh := v, par := false
        phase := .wdata, cnt := 0#8 }) ∧
    (s.phase = .trnwf → step s = .next
      (if s.sDpen = true ∧ s.lRnw = false then
        { base s with
          swclk := true, trace := s.trace ++ [BusCycle.z], oe := true, dout := false, phase := .dummyw, cnt := 0#8 }
      else
        { base s with
          swclk := true, trace := s.trace ++ [BusCycle.z], oe := true, phase := .finish, cnt := 0#8 }))

/-- ACK: the sampled level goes to ACK[CNT]; the third sample dispatches (R150, R152). -/
def Obligations.AcknowledgePhaseSamplesAndDispatches : Prop :=
  ∀ s : State, inFlight s → s.phase = .ack → s.cnt.toNat < 3 →
    ∃ a : Ack, (∀ j, a.getLsbD j = if j = s.cnt.toNat then level 0 s else s.ack.getLsbD j) ∧
      (let u := { base s with ack := a, swclk := true, trace := s.trace ++ [BusCycle.r (level 0 s)] }
       step s = .next
        (if s.cnt.toNat < 2 then { u with cnt := s.cnt + 1#8 }
        else if a = 0b001#3 then
          (if s.lRnw then { u with par := false, phase := .rdata, cnt := 0#8 }
          else { u with phase := .trn2w, cnt := 0#8 })
        else if a = 0b010#3 ∨ a = 0b100#3 then
          (if s.sDpen = true ∧ s.lRnw = true then { u with phase := .dummyr, cnt := 0#8 }
          else { u with phase := .trnwf, cnt := 0#8 })
        else { u with phase := .backoff, cnt := 0#8 }))

/-- RDATA: the sampled level goes to SH[CNT] and into PAR; the 32nd sample goes to RPAR (R160). -/
def Obligations.ReadDataPhaseSamplesTheWord : Prop :=
  ∀ s : State, inFlight s → s.phase = .rdata → s.cnt.toNat < 32 →
    ∃ d : Data, (∀ j, d.getLsbD j = if j = s.cnt.toNat then level 0 s else s.sh.getLsbD j) ∧
      (let u :=
        { base s with
          sh := d, par := xor s.par (level 0 s), swclk := true, trace := s.trace ++ [BusCycle.r (level 0 s)] }
       step s = .next
        (if s.cnt.toNat < 31 then { u with cnt := s.cnt + 1#8 } else { u with phase := .rpar, cnt := 0#8 }))

/-- RPAR: PERR is whether PAR differs from the sampled parity bit, which is stored nowhere (R122,
R160). -/
def Obligations.ReadParityIsChecked : Prop :=
  ∀ s : State, inFlight s → s.phase = .rpar → s.cnt = 0#8 →
    step s = .next
      { base s with
        perr := (s.par != level 0 s), swclk := true, trace := s.trace ++ [BusCycle.r (level 0 s)]
        phase := .trn2r, cnt := 0#8 }

/-- WDATA and WPAR: SH[CNT] is driven and goes into PAR, then PAR is driven (R87, R162). -/
def Obligations.WriteDataPhaseSendsTheWordAndItsParity : Prop :=
  ∀ s : State, inFlight s →
    (s.phase = .wdata → s.cnt.toNat < 32 →
      let b := s.sh.getLsbD s.cnt.toNat
      let u := { base s with dout := b, par := xor s.par b, swclk := true, trace := s.trace ++ [BusCycle.w b] }
      step s = .next
        (if s.cnt.toNat < 31 then { u with cnt := s.cnt + 1#8 } else { u with phase := .wpar, cnt := 0#8 })) ∧
    (s.phase = .wpar → s.cnt = 0#8 →
      step s = .next
        { base s with
          dout := s.par, swclk := true, trace := s.trace ++ [BusCycle.w s.par], phase := .post, cnt := 0#8 })

/-- POST: the timestamp if the request asked for it, no bus cycle, then the idle cycles if there are
any (R163, R164). -/
def Obligations.PostCapturesTheTime : Prop :=
  ∀ s : State, inFlight s → s.phase = .post →
    let tsr := if s.lTs then some (upcoming 0 s).tsNow else s.tsr
    step s = .next
      (if s.sIdle = 0#8 then { base s with tsr := tsr, phase := .finish, cnt := 0#8 }
      else { base s with tsr := tsr, dout := false, phase := .idlec, cnt := 0#8 })

/-- Idle cycles and the dummy write: S_IDLE, respectively 33, cycles driven low, with no parity
(R124, R164, R168). -/
def Obligations.PaddingIsDrivenLow : Prop :=
  ∀ s : State, inFlight s →
    let u := { base s with dout := false, swclk := true, trace := s.trace ++ [BusCycle.w false] }
    (s.phase = .idlec → s.cnt.toNat < s.sIdle.toNat → step s = .next
      (if s.cnt.toNat + 1 = s.sIdle.toNat then { u with phase := .finish, cnt := 0#8 }
      else { u with cnt := s.cnt + 1#8 })) ∧
    (s.phase = .dummyw → s.cnt.toNat < 33 → step s = .next
      (if s.cnt.toNat = 32 then { u with phase := .finish, cnt := 0#8 } else { u with cnt := s.cnt + 1#8 }))

/-- The dummy read and the back-off: 33, respectively S_TRN + 33, released cycles (R166, R170). -/
def Obligations.DummyReadAndBackoffAreReleased : Prop :=
  ∀ s : State, inFlight s →
    let u := { base s with swclk := true, trace := s.trace ++ [BusCycle.z] }
    (s.phase = .dummyr → s.cnt.toNat < 33 → step s = .next
      (if s.cnt.toNat = 32 then { u with phase := .trnwf, cnt := 0#8 } else { u with cnt := s.cnt + 1#8 })) ∧
    (s.phase = .backoff → s.cnt.toNat < s.sTrn.toNat + 33 → step s = .next
      (if s.cnt.toNat + 1 = s.sTrn.toNat + 33 then { u with oe := true, phase := .finish, cnt := 0#8 }
      else { u with cnt := s.cnt + 1#8 }))

/-- FINISH: the completion of R182, with the codes of R88. CNT <- 0 on entering IDLE is DEDUCED
(log 19). -/
def Obligations.CompletionReportsTheOutcome : Prop :=
  ∀ s : State, inFlight s → s.phase = .finish →
    step s = .next
      { base s with
        dout := true, ackRaw := some s.ack
        result := some (if s.ack = 0b001#3 ∧ s.lRnw = true ∧ s.perr = true then 0x8#4 else s.ack.setWidth 4)
        rdata := if s.ack = 0b001#3 ∧ s.lRnw = true then some s.sh else none
        busy := false, done := true, phase := .idle, cnt := 0#8 }

/-! ### Whole transfers -/

/-- R188: from every start, the machine's steps with a silent caller are the sequential procedure. -/
def Obligations.StepsPerformTheSequentialView : Prop :=
  ∀ (s : State) (i : Instr), isTransfer i = true → s.busy = false → legalTrn s.cfg.trn = true →
    ∃ t, exec i s = .next t ∧
      (quiet (transferSteps t) t → Machine.run (transferSteps t) t = transfer t)

/-- Every transfer completes after the number of cycles of R239 and leaves the trace of its path:
13 cycles at least, 307 at most; BUSY is 1 until then, and the end is the idle posture. -/
def Obligations.TransferTakesItsPath : Prop :=
  ∀ (s : State) (i : Instr), isTransfer i = true → s.busy = false → legalTrn s.cfg.trn = true →
    ∃ t, exec i s = .next t ∧
      (transferTrace (t.lWdata.getD 0#32) t).length = transferCycles t ∧
      13 ≤ transferCycles t ∧ transferCycles t ≤ 307 ∧
      (quiet (transferSteps t) t →
        (∀ k, k < transferSteps t → ∃ u, Machine.run k t = .next u ∧ u.busy = true) ∧
        ∃ u, Machine.run (transferSteps t) t = .next u ∧
          u.trace = s.trace ++ transferTrace (t.lWdata.getD 0#32) t ∧
          u.busy = false ∧ u.done = true ∧ u.phase = .idle ∧ idlePosture u)

/-- DPR and APR on an OK acknowledge (R184, R186, R202): RDATA holds the 32 sampled levels, RESULT is Ok
or ParityMismatch by the 33rd, ACK_RAW is 001, TSR is captured only on request, and CFG and the marks
stay. -/
def Obligations.OkReadDeliversTheWord : Prop :=
  ∀ (s : State) (a : Select) (ts : Bool) (i : Instr), i = .dpr a ts ∨ i = .apr a ts →
    s.busy = false → legalTrn s.cfg.trn = true →
    ∃ t, exec i s = .next t ∧
      (quiet (transferSteps t) t → comingAck t = 0b001#3 →
        ∃ (u : State) (d : Data), Machine.run (transferSteps t) t = .next u ∧
          (∀ j, j < 32 → d.getLsbD j = level (11 + s.cfg.trn.toNat + j) t) ∧
          u.rdata = some d ∧ u.ackRaw = some 0b001#3 ∧
          u.result = some (if parity32 d = level (43 + s.cfg.trn.toNat) t then 0x1#4 else 0x8#4) ∧
          u.tsr = (if ts then some (upcoming (44 + 2 * s.cfg.trn.toNat) t).tsNow else s.tsr) ∧
          u.cfg = s.cfg ∧ u.faults = s.faults)

/-- DPW and APW on an OK acknowledge (R185, R187, R202): RESULT is Ok, RDATA holds no value, TSR is
captured only on request; the frame on the wire carries the write data, which the model gets no
answer about. -/
def Obligations.OkWriteSendsTheWord : Prop :=
  ∀ (s : State) (a : Select) (ts : Bool) (v : Data) (i : Instr), i = .dpw a ts v ∨ i = .apw a ts v →
    s.busy = false → legalTrn s.cfg.trn = true →
    ∃ t, exec i s = .next t ∧
      (quiet (transferSteps t) t → comingAck t = 0b001#3 →
        ∃ u, Machine.run (transferSteps t) t = .next u ∧
          u.trace = s.trace ++ packetCycles t.pkt ++ List.replicate s.cfg.trn.toNat BusCycle.z ++
            [BusCycle.r true, BusCycle.r false, BusCycle.r false] ++ List.replicate s.cfg.trn.toNat BusCycle.z ++ writeFrame v ++
            List.replicate s.cfg.idle.toNat (BusCycle.w false) ∧
          u.rdata = none ∧ u.ackRaw = some 0b001#3 ∧ u.result = some 0x1#4 ∧
          u.tsr = (if ts then some (upcoming (44 + 2 * s.cfg.trn.toNat) t).tsNow else s.tsr) ∧
          u.cfg = s.cfg ∧ u.faults = s.faults)

/-- All four operations on WAIT or FAULT (R166 to R169, R202): the acknowledge is the result, no data
word, no timestamp, no idle cycle, and 33 dummy cycles exactly where DPEN = 1: released before the
turnaround in a read, driven low after it in a write. -/
def Obligations.WaitAndFaultMoveNoData : Prop :=
  ∀ (s : State) (i : Instr), isTransfer i = true → s.busy = false → legalTrn s.cfg.trn = true →
    ∃ t, exec i s = .next t ∧
      (quiet (transferSteps t) t → comingAck t = 0b010#3 ∨ comingAck t = 0b100#3 →
        ∃ u, Machine.run (transferSteps t) t = .next u ∧
          u.trace = s.trace ++ packetCycles t.pkt ++ List.replicate s.cfg.trn.toNat BusCycle.z ++
            sampledCycles (8 + s.cfg.trn.toNat) 3 t ++
            (if s.cfg.dpen = true ∧ t.lRnw = true then List.replicate 33 BusCycle.z else []) ++
            List.replicate s.cfg.trn.toNat BusCycle.z ++
            (if s.cfg.dpen = true ∧ t.lRnw = false then List.replicate 33 (BusCycle.w false) else []) ∧
          u.rdata = none ∧ u.ackRaw = some (comingAck t) ∧ u.result = some ((comingAck t).setWidth 4) ∧
          u.tsr = s.tsr ∧ u.cfg = s.cfg ∧ u.faults = s.faults ∧ idlePosture u)

/-- All four operations on an acknowledge that is not recognised (R170, R202): the back-off of S_TRN + 33
released cycles, whatever DPEN is, the pattern in ACK_RAW and RESULT, no data, no timestamp. -/
def Obligations.ProtocolErrorBacksOff : Prop :=
  ∀ (s : State) (i : Instr), isTransfer i = true → s.busy = false → legalTrn s.cfg.trn = true →
    ∃ t, exec i s = .next t ∧
      (quiet (transferSteps t) t →
        comingAck t ≠ 0b001#3 → comingAck t ≠ 0b010#3 → comingAck t ≠ 0b100#3 →
        ∃ u, Machine.run (transferSteps t) t = .next u ∧
          u.trace = s.trace ++ packetCycles t.pkt ++ List.replicate s.cfg.trn.toNat BusCycle.z ++
            sampledCycles (8 + s.cfg.trn.toNat) 3 t ++ List.replicate (s.cfg.trn.toNat + 33) BusCycle.z ∧
          u.rdata = none ∧ u.ackRaw = some (comingAck t) ∧ u.result = some ((comingAck t).setWidth 4) ∧
          u.tsr = s.tsr ∧ u.cfg = s.cfg ∧ u.faults = s.faults ∧ idlePosture u)

/-- R189: the trace, the outcome and the outputs of a transfer depend on nothing but the request, the
write data, the snapshot, the sampled bits and the time at the capture point. -/
def Obligations.ObservationIsDetermined : Prop :=
  ∀ (s s' t t' : State) (i : Instr), isTransfer i = true →
    s.busy = false → s'.busy = false → legalTrn s.cfg.trn = true →
    s'.cfg.trn = s.cfg.trn → s'.cfg.idle = s.cfg.idle → s'.cfg.dpen = s.cfg.dpen →
    exec i s = .next t → exec i s' = .next t' →
    comingAck t' = comingAck t →
    (comingClass t = .ok → t.lRnw = true →
      ∀ k, k < 33 → level (11 + s.cfg.trn.toNat + k) t' = level (11 + s.cfg.trn.toNat + k) t) →
    (comingClass t = .ok → t.lTs = true →
      (upcoming (44 + 2 * s.cfg.trn.toNat) t').tsNow = (upcoming (44 + 2 * s.cfg.trn.toNat) t).tsNow) →
    quiet (transferSteps t) t → quiet (transferSteps t) t' →
    ∃ (u u' : State) (cycles : List BusCycle),
      Machine.run (transferSteps t) t = .next u ∧
      Machine.run (transferSteps t) t' = .next u' ∧
      u.trace = s.trace ++ cycles ∧ u'.trace = s'.trace ++ cycles ∧
      u'.result = u.result ∧ u'.ackRaw = u.ackRaw ∧ u'.rdata = u.rdata ∧
      u'.swclk = u.swclk ∧ u'.oe = u.oe ∧ u'.dout = u.dout ∧
      (comingClass t = .ok → t.lTs = true → u'.tsr = u.tsr) ∧
      (¬ (comingClass t = .ok ∧ t.lTs = true) → u.tsr = s.tsr ∧ u'.tsr = s'.tsr) ∧
      u.faults = s.faults ∧ u'.faults = s'.faults

/-! ### The invariant -/

/-- The reset state meets the invariant. -/
def Obligations.ResetStateMeetsTheInvariant : Prop := Inv State.reset

/-- Every step keeps the invariant, whatever the caller and the target do. -/
def Obligations.StepKeepsTheInvariant : Prop :=
  ∀ s t : State, Inv s → step s = .next t → Inv t

/-- The engine never stops: in every state of the invariant every step, and every instruction,
answers a next state, whatever is driven (R201, R171). -/
def Obligations.NothingStopsTheEngine : Prop :=
  ∀ s : State, Inv s → (∃ t, step s = .next t) ∧ ∀ i : Instr, ∃ t, exec i s = .next t

/-! ### Rules about the whole machine -/

/-- A step adds at most one cycle record: a driven cycle only while OE = 1, a sampled or released one
only while OE = 0, and a sampled record holds the level on the line (R101 to R104). -/
def Obligations.CyclesRespectTheDriver : Prop :=
  ∀ s t : State, Inv s → step s = .next t →
    t.trace = s.trace ∨
    (∃ b, t.trace = s.trace ++ [BusCycle.w b] ∧ s.oe = true) ∨
    (t.trace = s.trace ++ [BusCycle.r (currentInputs s).swdioIn] ∧ s.oe = false ∧ samplePhase s.phase = true) ∨
    (t.trace = s.trace ++ [BusCycle.z] ∧ s.oe = false)

/-- The fault mark is sticky: raising a fault sets the bit of its reason and changes nothing else, the
other four bits included, and no step clears a bit, reset included (R10, R204). -/
def Obligations.FaultMarksAreSticky : Prop :=
  (∀ s : State,
    raise .startWhileBusy s = { s with faults := { s.faults with startWhileBusy := true } } ∧
    raise .cfgWriteWhileBusy s = { s with faults := { s.faults with cfgWriteWhileBusy := true } } ∧
    raise .cfgIllegal s = { s with faults := { s.faults with cfgIllegal := true } } ∧
    raise .readUnwritten s = { s with faults := { s.faults with readUnwritten := true } } ∧
    raise .resetWhileBusy s = { s with faults := { s.faults with resetWhileBusy := true } }) ∧
  ∀ s t : State, step s = .next t →
    (s.faults.startWhileBusy = true → t.faults.startWhileBusy = true) ∧
    (s.faults.cfgWriteWhileBusy = true → t.faults.cfgWriteWhileBusy = true) ∧
    (s.faults.cfgIllegal = true → t.faults.cfgIllegal = true) ∧
    (s.faults.readUnwritten = true → t.faults.readUnwritten = true) ∧
    (s.faults.resetWhileBusy = true → t.faults.resetWhileBusy = true)

/-- A caller that keeps to R211 is never marked; any other is, and each bit of the mark after a step is
the bit before it or the breach it stands for (R204, R211). That a read is judged on the registers as the
step finds them, also with `rst = 1`, is the model's choice (log 7); that a start or a write is judged on
BUSY at the start of the step is DEDUCED (log 8). -/
def Obligations.MarksFollowTheCallersDuties : Prop :=
  ∀ s t : State, step s = .next t →
    let p := currentInputs s
    (dutiful p s = true → t.faults = s.faults) ∧
    (dutiful p s = false → t.faults ≠ FaultMark.clear) ∧
    t.faults.startWhileBusy = (s.faults.startWhileBusy || (!p.rst && p.start && s.busy)) ∧
    t.faults.cfgWriteWhileBusy = (s.faults.cfgWriteWhileBusy || (!p.rst && p.cfgWe && s.busy)) ∧
    t.faults.cfgIllegal =
      (s.faults.cfgIllegal || (!p.rst && p.cfgWe && !s.busy && !legalTrn p.cfgTrn)) ∧
    t.faults.readUnwritten = (s.faults.readUnwritten || p.reads.any fun r => !readable r s) ∧
    t.faults.resetWhileBusy = (s.faults.resetWhileBusy || (p.rst && s.busy))

/-- BUSY and DONE (R33): BUSY is set by an accepted start and cleared by completion or reset; DONE is 1
exactly after the completion step. -/
def Obligations.BusyAndDoneFollowTheirRule : Prop :=
  (State.reset.busy = false ∧ State.reset.done = false) ∧
  ∀ s t : State, step s = .next t →
    (t.busy = true ↔ (currentInputs s).rst = false ∧
      ((s.busy = true ∧ s.phase ≠ .finish) ∨ (s.busy = false ∧ (currentInputs s).start = true))) ∧
    (t.done = true ↔ (currentInputs s).rst = false ∧ s.busy = true ∧ s.phase = .finish)

/-- TSR changes only at the capture point of a transfer whose acknowledge was OK and whose request
asked for it, and at reset (R28). -/
def Obligations.TimestampChangesOnlyAtCapture : Prop :=
  State.reset.tsr = none ∧
  (∀ s t : State, step s = .next t →
    t.tsr =
      if (currentInputs s).rst then none
      else if s.busy = true ∧ s.phase = .post ∧ s.lTs = true then some (currentInputs s).tsNow
      else s.tsr) ∧
  (∀ s : State, Inv s → s.phase = .post → ackDecode s.ack = .ok)

/-- RESULT, ACK_RAW and RDATA change only at reset, at an accepted start, which invalidates them, and
at completion; they hold no value after reset and while a transfer is in flight (R29, R30, R31). -/
def Obligations.OutputsChangeOnlyAtStartAndCompletion : Prop :=
  (State.reset.result = none ∧ State.reset.ackRaw = none ∧ State.reset.rdata = none) ∧
  (∀ s : State, Inv s → s.busy = true → s.result = none ∧ s.ackRaw = none ∧ s.rdata = none) ∧
  ∀ s t : State, step s = .next t →
    let cleared := (currentInputs s).rst = true ∨ (s.busy = false ∧ (currentInputs s).start = true)
    let completed := (currentInputs s).rst = false ∧ s.busy = true ∧ s.phase = .finish
    (cleared → t.result = none ∧ t.ackRaw = none ∧ t.rdata = none) ∧
    (completed → t.ackRaw = some s.ack ∧
      t.result = some (resultCode (outcome s.ack s.lRnw s.perr) s.ack) ∧
      t.rdata = if ackDecode s.ack = .ok ∧ s.lRnw = true then some s.sh else none) ∧
    (¬ cleared → ¬ completed → t.result = s.result ∧ t.ackRaw = s.ackRaw ∧ t.rdata = s.rdata)

/-- While a transfer is in flight and is not reset, CFG, the latched request and the snapshot stay,
whatever the caller drives (R40, R41, R70). -/
def Obligations.RequestAndSnapshotHeldInFlight : Prop :=
  ∀ s t : State, s.busy = true → (currentInputs s).rst = false → step s = .next t →
    t.cfg = s.cfg ∧ t.lApndp = s.lApndp ∧ t.lRnw = s.lRnw ∧ t.lA = s.lA ∧ t.lTs = s.lTs ∧
    t.lWdata = s.lWdata ∧ t.sTrn = s.sTrn ∧ t.sIdle = s.sIdle ∧ t.sDpen = s.sDpen ∧ t.pkt = s.pkt

/-- A level on `swdio_in` outside the sampling phases has no effect at all (R22, R104, R145). -/
def Obligations.LineLevelMattersOnlyWhenSampled : Prop :=
  ∀ (s : State) (p : Inputs) (ps : List Inputs) (b : Bool),
    s.busy = false ∨ samplePhase s.phase = false ∨ p.rst = true →
    step { s with inputs := { p with swdioIn := b } :: ps } = step { s with inputs := p :: ps }

/-- The request ports and `wdata` are read only in the step that accepts `start` (R71). -/
def Obligations.RequestPortsReadOnlyAtStart : Prop :=
  ∀ (s : State) (p : Inputs) (ps : List Inputs) (apndp rnw ts : Bool) (a : Select) (v : Data),
    s.busy = true ∨ p.start = false ∨ p.rst = true →
    step { s with
        inputs := { p with reqApndp := apndp, reqRnw := rnw, reqA := a, reqTs := ts, wdata := v } :: ps }
      = step { s with inputs := p :: ps }

/-- A caller's error while a transfer is in flight marks the run and leaves the transfer as it would
have been with a silent caller (R27, R180, R203). -/
def Obligations.CallerErrorLeavesTheTransferAlone : Prop :=
  ∀ (s t : State) (p : Inputs) (ps : List Inputs), s.busy = true → p.rst = false →
    step { s with inputs := { p with cfgWe := false, start := false, reads := [] } :: ps } = .next t →
    ∃ m rb, step { s with inputs := p :: ps } = .next { t with faults := m, readBack := rb } ∧
      m.startWhileBusy = (s.faults.startWhileBusy || p.start) ∧
      m.cfgWriteWhileBusy = (s.faults.cfgWriteWhileBusy || p.cfgWe) ∧
      m.cfgIllegal = s.faults.cfgIllegal ∧ m.resetWhileBusy = s.faults.resetWhileBusy

/-- A request packet begins only with an accepted start: no transfer sends a second one (R68, R154). -/
def Obligations.PacketBeginsOnlyAtAnAcceptedStart : Prop :=
  ∀ s t : State, step s = .next t → t.phase = .req → s.phase ≠ .req →
    s.busy = false ∧ (currentInputs s).start = true ∧ (currentInputs s).rst = false

/-- CFG changes at a legal configuration write while BUSY = 0 and at reset, and in no other step (R27, R44,
R70). -/
def Obligations.ConfigurationChangesOnlyByItsWrite : Prop :=
  ∀ s t : State, step s = .next t →
    let p := currentInputs s
    t.cfg =
      if p.rst = true then ⟨1#3, 0#8, false, Config.clkDelayReset⟩
      else if p.cfgWe = true ∧ s.busy = false ∧ 1 ≤ p.cfgTrn.toNat ∧ p.cfgTrn.toNat ≤ 4 then
        ⟨p.cfgTrn, p.cfgIdle, p.cfgDpen, p.cfgClkdly⟩
      else s.cfg

/-- Under the environment assumption of R210, with time T: a capture n steps from now writes T n modulo
2^32 into TSR, whatever the caller does until then, and of two captures the later one is at no earlier
time: the values tell the time between them where it is below 2^32, and are in order where T has not
wrapped. That the assumption is read of an unbounded T is DEDUCED (log 21). -/
def Obligations.LaterCapturesAreNotEarlier : Prop :=
  ∀ (T : Nat → Nat) (s : State), monotonicTime T s →
    (∀ (n : Nat) (u : State), Machine.run n s = .next u → capturing u →
      ∃ t, step u = .next t ∧ t.tsr = some (BitVec.ofNat 32 (T n))) ∧
    ∀ m n : Nat, m ≤ n → T m ≤ T n ∧
      (T n - T m < 2 ^ 32 →
        (BitVec.ofNat 32 (T n) - BitVec.ofNat 32 (T m)).toNat = T n - T m) ∧
      (T n < 2 ^ 32 → (BitVec.ofNat 32 (T m)).toNat ≤ (BitVec.ofNat 32 (T n)).toNat)
end

