-- ==== Sys2Proof/Laws/Encoding.lean ====
section
/-! SUPPORT. The fields of the encodings, one lemma per field. -/

namespace Sys2Proof

/-- The fields of the request nibble (30_encoding.md R80). -/
theorem reqNibble_fields : ∀ (apndp rnw : Bool) (a : Select),
    (reqNibble apndp rnw a).getLsbD 0 = apndp ∧ (reqNibble apndp rnw a).getLsbD 1 = rnw ∧
      (reqNibble apndp rnw a).extractLsb' 2 2 = a := by decide

/-- A request byte with clear high bits is its fields put together again. -/
theorem reqNibble_of_byte : ∀ b : Byte, b.extractLsb' 4 4 = 0#4 →
    reqNibble (b.getLsbD 0) (b.getLsbD 1) (b.extractLsb' 2 2) = b.extractLsb' 0 4 := by decide

/-- The nibble read back from the byte that carries it. -/
theorem extract_carried : ∀ r : Nibble,
    (0#4 ++ r : Byte).extractLsb' 4 4 = 0#4 ∧ (0#4 ++ r : Byte).extractLsb' 0 4 = r := by decide

/-- The bits of the configuration word (opcode_table.json, tttiiiiiiiid). -/
theorem getLsbD_cfgWord (trn : BitVec 3) (idle : BitVec 8) (dpen : Bool) (k : Nat) :
    (cfgWord trn idle dpen).getLsbD k =
      if k = 0 then dpen else if k < 9 then idle.getLsbD (k - 1) else trn.getLsbD (k - 9) := by
  have h : (cfgWord trn idle dpen).getLsbD k =
      if k < 8 + 1 then (idle ++ BitVec.ofBool dpen).getLsbD k else trn.getLsbD (k - (8 + 1)) :=
    BitVec.getLsbD_append
  rw [h]
  by_cases h9 : k < 8 + 1
  · rw [if_pos h9, BitVec.getLsbD_append]
    by_cases h0 : k = 0
    · simp [h0]
    · rw [if_neg (by omega), if_neg h0, if_pos h9]
  · rw [if_neg h9, if_neg (by omega), if_neg h9]

theorem cfgWord_trn (trn : BitVec 3) (idle : BitVec 8) (dpen : Bool) :
    (cfgWord trn idle dpen).extractLsb' 9 3 = trn := by
  apply BitVec.eq_of_getLsbD_eq
  intro i hi
  rw [BitVec.getLsbD_extractLsb', getLsbD_cfgWord, if_neg (by omega), if_neg (by omega)]
  simp [hi]

theorem cfgWord_idle (trn : BitVec 3) (idle : BitVec 8) (dpen : Bool) :
    (cfgWord trn idle dpen).extractLsb' 1 8 = idle := by
  apply BitVec.eq_of_getLsbD_eq
  intro i hi
  rw [BitVec.getLsbD_extractLsb', getLsbD_cfgWord, if_neg (by omega), if_pos (by omega)]
  simp [hi]

theorem cfgWord_dpen (trn : BitVec 3) (idle : BitVec 8) (dpen : Bool) :
    (cfgWord trn idle dpen).getLsbD 0 = dpen := by rw [getLsbD_cfgWord, if_pos rfl]

/-- The configuration word decodes to the fields it carries. -/
theorem decodeCfgw_cfgWord (trn : BitVec 3) (idle : BitVec 8) (dpen : Bool) (c : ClkDelay) :
    decodeCfgw (cfgWord trn idle dpen) c = .cfg trn idle dpen c := by
  unfold decodeCfgw; rw [cfgWord_trn, cfgWord_idle, cfgWord_dpen]

/-- The two bytes of a configuration word put together again. -/
theorem cfgWord_bytes (w : BitVec 12) :
    (0#4 ++ w.extractLsb' 8 4 : Byte).extractLsb' 0 4 ++ w.extractLsb' 0 8 = (w : BitVec (4 + 8)) := by
  rw [(extract_carried _).2]
  apply BitVec.eq_of_getLsbD_eq
  intro i hi
  rw [BitVec.getLsbD_append]
  by_cases h : i < 8
  · simp [h]
  · rw [if_neg h, BitVec.getLsbD_extractLsb', show 8 + (i - 8) = i by omega]
    simp; omega

/-- The fields that the configuration ports take from two bytes are the fields of the word the decoder
reads from them. -/
theorem cfgPorts_of_bytes (lo hi : Byte) :
    (hi ++ lo : BitVec (8 + 8)).extractLsb' 9 3 = (hi.extractLsb' 0 4 ++ lo : BitVec (4 + 8)).extractLsb' 9 3 ∧
    (hi ++ lo : BitVec (8 + 8)).extractLsb' 1 8 = (hi.extractLsb' 0 4 ++ lo : BitVec (4 + 8)).extractLsb' 1 8 ∧
    (hi ++ lo : BitVec (8 + 8)).getLsbD 0 = (hi.extractLsb' 0 4 ++ lo : BitVec (4 + 8)).getLsbD 0 := by
  have low : ∀ k, k < 12 →
      (hi ++ lo : BitVec (8 + 8)).getLsbD k = (hi.extractLsb' 0 4 ++ lo : BitVec (4 + 8)).getLsbD k := by
    intro k hk
    rw [BitVec.getLsbD_append, BitVec.getLsbD_append]
    by_cases h : k < 8
    · rw [if_pos h, if_pos h]
    · rw [if_neg h, if_neg h, BitVec.getLsbD_extractLsb', Nat.zero_add]
      simp [show k - 8 < 4 by omega]
  refine ⟨?_, ?_, low 0 (by omega)⟩ <;>
  · apply BitVec.eq_of_getLsbD_eq
    intro i hi'
    rw [BitVec.getLsbD_extractLsb', BitVec.getLsbD_extractLsb', low _ (by omega)]

end Sys2Proof
end

