-- ==== Sys2Proof/Laws/State.lean ====
section
/-! SUPPORT. One lemma per field of the state for each operation that updates it, true by unfolding
the operation once: later proofs rewrite with these and unfold nothing. -/

namespace Sys2Proof.Machine

open Sys2Proof

variable (s : State)

/-! ### raise -/

@[simp] theorem raise_cfg (f : ModelFault) : (raise f s).cfg = s.cfg := rfl
@[simp] theorem raise_tsr (f : ModelFault) : (raise f s).tsr = s.tsr := rfl
@[simp] theorem raise_result (f : ModelFault) : (raise f s).result = s.result := rfl
@[simp] theorem raise_ackRaw (f : ModelFault) : (raise f s).ackRaw = s.ackRaw := rfl
@[simp] theorem raise_rdata (f : ModelFault) : (raise f s).rdata = s.rdata := rfl
@[simp] theorem raise_swclk (f : ModelFault) : (raise f s).swclk = s.swclk := rfl
@[simp] theorem raise_oe (f : ModelFault) : (raise f s).oe = s.oe := rfl
@[simp] theorem raise_dout (f : ModelFault) : (raise f s).dout = s.dout := rfl
@[simp] theorem raise_busy (f : ModelFault) : (raise f s).busy = s.busy := rfl
@[simp] theorem raise_done (f : ModelFault) : (raise f s).done = s.done := rfl
@[simp] theorem raise_phase (f : ModelFault) : (raise f s).phase = s.phase := rfl
@[simp] theorem raise_cnt (f : ModelFault) : (raise f s).cnt = s.cnt := rfl
@[simp] theorem raise_pkt (f : ModelFault) : (raise f s).pkt = s.pkt := rfl
@[simp] theorem raise_sh (f : ModelFault) : (raise f s).sh = s.sh := rfl
@[simp] theorem raise_par (f : ModelFault) : (raise f s).par = s.par := rfl
@[simp] theorem raise_ack (f : ModelFault) : (raise f s).ack = s.ack := rfl
@[simp] theorem raise_perr (f : ModelFault) : (raise f s).perr = s.perr := rfl
@[simp] theorem raise_lApndp (f : ModelFault) : (raise f s).lApndp = s.lApndp := rfl
@[simp] theorem raise_lRnw (f : ModelFault) : (raise f s).lRnw = s.lRnw := rfl
@[simp] theorem raise_lA (f : ModelFault) : (raise f s).lA = s.lA := rfl
@[simp] theorem raise_lTs (f : ModelFault) : (raise f s).lTs = s.lTs := rfl
@[simp] theorem raise_lWdata (f : ModelFault) : (raise f s).lWdata = s.lWdata := rfl
@[simp] theorem raise_sTrn (f : ModelFault) : (raise f s).sTrn = s.sTrn := rfl
@[simp] theorem raise_sIdle (f : ModelFault) : (raise f s).sIdle = s.sIdle := rfl
@[simp] theorem raise_sDpen (f : ModelFault) : (raise f s).sDpen = s.sDpen := rfl
@[simp] theorem raise_faults (f : ModelFault) : (raise f s).faults = s.faults.set f := rfl
@[simp] theorem raise_trace (f : ModelFault) : (raise f s).trace = s.trace := rfl
@[simp] theorem raise_inputs (f : ModelFault) : (raise f s).inputs = s.inputs := rfl
@[simp] theorem raise_stepNo (f : ModelFault) : (raise f s).stepNo = s.stepNo := rfl
@[simp] theorem raise_readBack (f : ModelFault) : (raise f s).readBack = s.readBack := rfl

/-! ### clockLow -/

@[simp] theorem clockLow_cfg : (clockLow s).cfg = s.cfg := rfl
@[simp] theorem clockLow_tsr : (clockLow s).tsr = s.tsr := rfl
@[simp] theorem clockLow_result : (clockLow s).result = s.result := rfl
@[simp] theorem clockLow_ackRaw : (clockLow s).ackRaw = s.ackRaw := rfl
@[simp] theorem clockLow_rdata : (clockLow s).rdata = s.rdata := rfl
@[simp] theorem clockLow_swclk : (clockLow s).swclk = false := rfl
@[simp] theorem clockLow_oe : (clockLow s).oe = s.oe := rfl
@[simp] theorem clockLow_dout : (clockLow s).dout = s.dout := rfl
@[simp] theorem clockLow_busy : (clockLow s).busy = s.busy := rfl
@[simp] theorem clockLow_done : (clockLow s).done = s.done := rfl
@[simp] theorem clockLow_phase : (clockLow s).phase = s.phase := rfl
@[simp] theorem clockLow_cnt : (clockLow s).cnt = s.cnt := rfl
@[simp] theorem clockLow_pkt : (clockLow s).pkt = s.pkt := rfl
@[simp] theorem clockLow_sh : (clockLow s).sh = s.sh := rfl
@[simp] theorem clockLow_par : (clockLow s).par = s.par := rfl
@[simp] theorem clockLow_ack : (clockLow s).ack = s.ack := rfl
@[simp] theorem clockLow_perr : (clockLow s).perr = s.perr := rfl
@[simp] theorem clockLow_lApndp : (clockLow s).lApndp = s.lApndp := rfl
@[simp] theorem clockLow_lRnw : (clockLow s).lRnw = s.lRnw := rfl
@[simp] theorem clockLow_lA : (clockLow s).lA = s.lA := rfl
@[simp] theorem clockLow_lTs : (clockLow s).lTs = s.lTs := rfl
@[simp] theorem clockLow_lWdata : (clockLow s).lWdata = s.lWdata := rfl
@[simp] theorem clockLow_sTrn : (clockLow s).sTrn = s.sTrn := rfl
@[simp] theorem clockLow_sIdle : (clockLow s).sIdle = s.sIdle := rfl
@[simp] theorem clockLow_sDpen : (clockLow s).sDpen = s.sDpen := rfl
@[simp] theorem clockLow_faults : (clockLow s).faults = s.faults := rfl
@[simp] theorem clockLow_trace : (clockLow s).trace = s.trace := rfl
@[simp] theorem clockLow_inputs : (clockLow s).inputs = s.inputs := rfl
@[simp] theorem clockLow_stepNo : (clockLow s).stepNo = s.stepNo := rfl
@[simp] theorem clockLow_readBack : (clockLow s).readBack = s.readBack := rfl

/-! ### clockHigh -/

@[simp] theorem clockHigh_cfg : (clockHigh s).cfg = s.cfg := rfl
@[simp] theorem clockHigh_tsr : (clockHigh s).tsr = s.tsr := rfl
@[simp] theorem clockHigh_result : (clockHigh s).result = s.result := rfl
@[simp] theorem clockHigh_ackRaw : (clockHigh s).ackRaw = s.ackRaw := rfl
@[simp] theorem clockHigh_rdata : (clockHigh s).rdata = s.rdata := rfl
@[simp] theorem clockHigh_swclk : (clockHigh s).swclk = true := rfl
@[simp] theorem clockHigh_oe : (clockHigh s).oe = s.oe := rfl
@[simp] theorem clockHigh_dout : (clockHigh s).dout = s.dout := rfl
@[simp] theorem clockHigh_busy : (clockHigh s).busy = s.busy := rfl
@[simp] theorem clockHigh_done : (clockHigh s).done = s.done := rfl
@[simp] theorem clockHigh_phase : (clockHigh s).phase = s.phase := rfl
@[simp] theorem clockHigh_cnt : (clockHigh s).cnt = s.cnt := rfl
@[simp] theorem clockHigh_pkt : (clockHigh s).pkt = s.pkt := rfl
@[simp] theorem clockHigh_sh : (clockHigh s).sh = s.sh := rfl
@[simp] theorem clockHigh_par : (clockHigh s).par = s.par := rfl
@[simp] theorem clockHigh_ack : (clockHigh s).ack = s.ack := rfl
@[simp] theorem clockHigh_perr : (clockHigh s).perr = s.perr := rfl
@[simp] theorem clockHigh_lApndp : (clockHigh s).lApndp = s.lApndp := rfl
@[simp] theorem clockHigh_lRnw : (clockHigh s).lRnw = s.lRnw := rfl
@[simp] theorem clockHigh_lA : (clockHigh s).lA = s.lA := rfl
@[simp] theorem clockHigh_lTs : (clockHigh s).lTs = s.lTs := rfl
@[simp] theorem clockHigh_lWdata : (clockHigh s).lWdata = s.lWdata := rfl
@[simp] theorem clockHigh_sTrn : (clockHigh s).sTrn = s.sTrn := rfl
@[simp] theorem clockHigh_sIdle : (clockHigh s).sIdle = s.sIdle := rfl
@[simp] theorem clockHigh_sDpen : (clockHigh s).sDpen = s.sDpen := rfl
@[simp] theorem clockHigh_faults : (clockHigh s).faults = s.faults := rfl
@[simp] theorem clockHigh_trace : (clockHigh s).trace = s.trace := rfl
@[simp] theorem clockHigh_inputs : (clockHigh s).inputs = s.inputs := rfl
@[simp] theorem clockHigh_stepNo : (clockHigh s).stepNo = s.stepNo := rfl
@[simp] theorem clockHigh_readBack : (clockHigh s).readBack = s.readBack := rfl

/-! ### driveBit -/

@[simp] theorem driveBit_cfg (b : Bool) : (driveBit b s).cfg = s.cfg := rfl
@[simp] theorem driveBit_tsr (b : Bool) : (driveBit b s).tsr = s.tsr := rfl
@[simp] theorem driveBit_result (b : Bool) : (driveBit b s).result = s.result := rfl
@[simp] theorem driveBit_ackRaw (b : Bool) : (driveBit b s).ackRaw = s.ackRaw := rfl
@[simp] theorem driveBit_rdata (b : Bool) : (driveBit b s).rdata = s.rdata := rfl
@[simp] theorem driveBit_swclk (b : Bool) : (driveBit b s).swclk = s.swclk := rfl
@[simp] theorem driveBit_oe (b : Bool) : (driveBit b s).oe = s.oe := rfl
@[simp] theorem driveBit_dout (b : Bool) : (driveBit b s).dout = b := rfl
@[simp] theorem driveBit_busy (b : Bool) : (driveBit b s).busy = s.busy := rfl
@[simp] theorem driveBit_done (b : Bool) : (driveBit b s).done = s.done := rfl
@[simp] theorem driveBit_phase (b : Bool) : (driveBit b s).phase = s.phase := rfl
@[simp] theorem driveBit_cnt (b : Bool) : (driveBit b s).cnt = s.cnt := rfl
@[simp] theorem driveBit_pkt (b : Bool) : (driveBit b s).pkt = s.pkt := rfl
@[simp] theorem driveBit_sh (b : Bool) : (driveBit b s).sh = s.sh := rfl
@[simp] theorem driveBit_par (b : Bool) : (driveBit b s).par = s.par := rfl
@[simp] theorem driveBit_ack (b : Bool) : (driveBit b s).ack = s.ack := rfl
@[simp] theorem driveBit_perr (b : Bool) : (driveBit b s).perr = s.perr := rfl
@[simp] theorem driveBit_lApndp (b : Bool) : (driveBit b s).lApndp = s.lApndp := rfl
@[simp] theorem driveBit_lRnw (b : Bool) : (driveBit b s).lRnw = s.lRnw := rfl
@[simp] theorem driveBit_lA (b : Bool) : (driveBit b s).lA = s.lA := rfl
@[simp] theorem driveBit_lTs (b : Bool) : (driveBit b s).lTs = s.lTs := rfl
@[simp] theorem driveBit_lWdata (b : Bool) : (driveBit b s).lWdata = s.lWdata := rfl
@[simp] theorem driveBit_sTrn (b : Bool) : (driveBit b s).sTrn = s.sTrn := rfl
@[simp] theorem driveBit_sIdle (b : Bool) : (driveBit b s).sIdle = s.sIdle := rfl
@[simp] theorem driveBit_sDpen (b : Bool) : (driveBit b s).sDpen = s.sDpen := rfl
@[simp] theorem driveBit_faults (b : Bool) : (driveBit b s).faults = s.faults := rfl
@[simp] theorem driveBit_trace (b : Bool) : (driveBit b s).trace = s.trace := rfl
@[simp] theorem driveBit_inputs (b : Bool) : (driveBit b s).inputs = s.inputs := rfl
@[simp] theorem driveBit_stepNo (b : Bool) : (driveBit b s).stepNo = s.stepNo := rfl
@[simp] theorem driveBit_readBack (b : Bool) : (driveBit b s).readBack = s.readBack := rfl

/-! ### enableOutput -/

@[simp] theorem enableOutput_cfg : (enableOutput s).cfg = s.cfg := rfl
@[simp] theorem enableOutput_tsr : (enableOutput s).tsr = s.tsr := rfl
@[simp] theorem enableOutput_result : (enableOutput s).result = s.result := rfl
@[simp] theorem enableOutput_ackRaw : (enableOutput s).ackRaw = s.ackRaw := rfl
@[simp] theorem enableOutput_rdata : (enableOutput s).rdata = s.rdata := rfl
@[simp] theorem enableOutput_swclk : (enableOutput s).swclk = s.swclk := rfl
@[simp] theorem enableOutput_oe : (enableOutput s).oe = true := rfl
@[simp] theorem enableOutput_dout : (enableOutput s).dout = s.dout := rfl
@[simp] theorem enableOutput_busy : (enableOutput s).busy = s.busy := rfl
@[simp] theorem enableOutput_done : (enableOutput s).done = s.done := rfl
@[simp] theorem enableOutput_phase : (enableOutput s).phase = s.phase := rfl
@[simp] theorem enableOutput_cnt : (enableOutput s).cnt = s.cnt := rfl
@[simp] theorem enableOutput_pkt : (enableOutput s).pkt = s.pkt := rfl
@[simp] theorem enableOutput_sh : (enableOutput s).sh = s.sh := rfl
@[simp] theorem enableOutput_par : (enableOutput s).par = s.par := rfl
@[simp] theorem enableOutput_ack : (enableOutput s).ack = s.ack := rfl
@[simp] theorem enableOutput_perr : (enableOutput s).perr = s.perr := rfl
@[simp] theorem enableOutput_lApndp : (enableOutput s).lApndp = s.lApndp := rfl
@[simp] theorem enableOutput_lRnw : (enableOutput s).lRnw = s.lRnw := rfl
@[simp] theorem enableOutput_lA : (enableOutput s).lA = s.lA := rfl
@[simp] theorem enableOutput_lTs : (enableOutput s).lTs = s.lTs := rfl
@[simp] theorem enableOutput_lWdata : (enableOutput s).lWdata = s.lWdata := rfl
@[simp] theorem enableOutput_sTrn : (enableOutput s).sTrn = s.sTrn := rfl
@[simp] theorem enableOutput_sIdle : (enableOutput s).sIdle = s.sIdle := rfl
@[simp] theorem enableOutput_sDpen : (enableOutput s).sDpen = s.sDpen := rfl
@[simp] theorem enableOutput_faults : (enableOutput s).faults = s.faults := rfl
@[simp] theorem enableOutput_trace : (enableOutput s).trace = s.trace := rfl
@[simp] theorem enableOutput_inputs : (enableOutput s).inputs = s.inputs := rfl
@[simp] theorem enableOutput_stepNo : (enableOutput s).stepNo = s.stepNo := rfl
@[simp] theorem enableOutput_readBack : (enableOutput s).readBack = s.readBack := rfl

/-! ### disableOutput -/

@[simp] theorem disableOutput_cfg : (disableOutput s).cfg = s.cfg := rfl
@[simp] theorem disableOutput_tsr : (disableOutput s).tsr = s.tsr := rfl
@[simp] theorem disableOutput_result : (disableOutput s).result = s.result := rfl
@[simp] theorem disableOutput_ackRaw : (disableOutput s).ackRaw = s.ackRaw := rfl
@[simp] theorem disableOutput_rdata : (disableOutput s).rdata = s.rdata := rfl
@[simp] theorem disableOutput_swclk : (disableOutput s).swclk = s.swclk := rfl
@[simp] theorem disableOutput_oe : (disableOutput s).oe = false := rfl
@[simp] theorem disableOutput_dout : (disableOutput s).dout = s.dout := rfl
@[simp] theorem disableOutput_busy : (disableOutput s).busy = s.busy := rfl
@[simp] theorem disableOutput_done : (disableOutput s).done = s.done := rfl
@[simp] theorem disableOutput_phase : (disableOutput s).phase = s.phase := rfl
@[simp] theorem disableOutput_cnt : (disableOutput s).cnt = s.cnt := rfl
@[simp] theorem disableOutput_pkt : (disableOutput s).pkt = s.pkt := rfl
@[simp] theorem disableOutput_sh : (disableOutput s).sh = s.sh := rfl
@[simp] theorem disableOutput_par : (disableOutput s).par = s.par := rfl
@[simp] theorem disableOutput_ack : (disableOutput s).ack = s.ack := rfl
@[simp] theorem disableOutput_perr : (disableOutput s).perr = s.perr := rfl
@[simp] theorem disableOutput_lApndp : (disableOutput s).lApndp = s.lApndp := rfl
@[simp] theorem disableOutput_lRnw : (disableOutput s).lRnw = s.lRnw := rfl
@[simp] theorem disableOutput_lA : (disableOutput s).lA = s.lA := rfl
@[simp] theorem disableOutput_lTs : (disableOutput s).lTs = s.lTs := rfl
@[simp] theorem disableOutput_lWdata : (disableOutput s).lWdata = s.lWdata := rfl
@[simp] theorem disableOutput_sTrn : (disableOutput s).sTrn = s.sTrn := rfl
@[simp] theorem disableOutput_sIdle : (disableOutput s).sIdle = s.sIdle := rfl
@[simp] theorem disableOutput_sDpen : (disableOutput s).sDpen = s.sDpen := rfl
@[simp] theorem disableOutput_faults : (disableOutput s).faults = s.faults := rfl
@[simp] theorem disableOutput_trace : (disableOutput s).trace = s.trace := rfl
@[simp] theorem disableOutput_inputs : (disableOutput s).inputs = s.inputs := rfl
@[simp] theorem disableOutput_stepNo : (disableOutput s).stepNo = s.stepNo := rfl
@[simp] theorem disableOutput_readBack : (disableOutput s).readBack = s.readBack := rfl

/-! ### record -/

@[simp] theorem record_cfg (c : BusCycle) : (record c s).cfg = s.cfg := rfl
@[simp] theorem record_tsr (c : BusCycle) : (record c s).tsr = s.tsr := rfl
@[simp] theorem record_result (c : BusCycle) : (record c s).result = s.result := rfl
@[simp] theorem record_ackRaw (c : BusCycle) : (record c s).ackRaw = s.ackRaw := rfl
@[simp] theorem record_rdata (c : BusCycle) : (record c s).rdata = s.rdata := rfl
@[simp] theorem record_swclk (c : BusCycle) : (record c s).swclk = s.swclk := rfl
@[simp] theorem record_oe (c : BusCycle) : (record c s).oe = s.oe := rfl
@[simp] theorem record_dout (c : BusCycle) : (record c s).dout = s.dout := rfl
@[simp] theorem record_busy (c : BusCycle) : (record c s).busy = s.busy := rfl
@[simp] theorem record_done (c : BusCycle) : (record c s).done = s.done := rfl
@[simp] theorem record_phase (c : BusCycle) : (record c s).phase = s.phase := rfl
@[simp] theorem record_cnt (c : BusCycle) : (record c s).cnt = s.cnt := rfl
@[simp] theorem record_pkt (c : BusCycle) : (record c s).pkt = s.pkt := rfl
@[simp] theorem record_sh (c : BusCycle) : (record c s).sh = s.sh := rfl
@[simp] theorem record_par (c : BusCycle) : (record c s).par = s.par := rfl
@[simp] theorem record_ack (c : BusCycle) : (record c s).ack = s.ack := rfl
@[simp] theorem record_perr (c : BusCycle) : (record c s).perr = s.perr := rfl
@[simp] theorem record_lApndp (c : BusCycle) : (record c s).lApndp = s.lApndp := rfl
@[simp] theorem record_lRnw (c : BusCycle) : (record c s).lRnw = s.lRnw := rfl
@[simp] theorem record_lA (c : BusCycle) : (record c s).lA = s.lA := rfl
@[simp] theorem record_lTs (c : BusCycle) : (record c s).lTs = s.lTs := rfl
@[simp] theorem record_lWdata (c : BusCycle) : (record c s).lWdata = s.lWdata := rfl
@[simp] theorem record_sTrn (c : BusCycle) : (record c s).sTrn = s.sTrn := rfl
@[simp] theorem record_sIdle (c : BusCycle) : (record c s).sIdle = s.sIdle := rfl
@[simp] theorem record_sDpen (c : BusCycle) : (record c s).sDpen = s.sDpen := rfl
@[simp] theorem record_faults (c : BusCycle) : (record c s).faults = s.faults := rfl
@[simp] theorem record_trace (c : BusCycle) : (record c s).trace = s.trace ++ [c] := rfl
@[simp] theorem record_inputs (c : BusCycle) : (record c s).inputs = s.inputs := rfl
@[simp] theorem record_stepNo (c : BusCycle) : (record c s).stepNo = s.stepNo := rfl
@[simp] theorem record_readBack (c : BusCycle) : (record c s).readBack = s.readBack := rfl

/-! ### enter -/

@[simp] theorem enter_cfg (ph : Phase) : (enter ph s).cfg = s.cfg := rfl
@[simp] theorem enter_tsr (ph : Phase) : (enter ph s).tsr = s.tsr := rfl
@[simp] theorem enter_result (ph : Phase) : (enter ph s).result = s.result := rfl
@[simp] theorem enter_ackRaw (ph : Phase) : (enter ph s).ackRaw = s.ackRaw := rfl
@[simp] theorem enter_rdata (ph : Phase) : (enter ph s).rdata = s.rdata := rfl
@[simp] theorem enter_swclk (ph : Phase) : (enter ph s).swclk = s.swclk := rfl
@[simp] theorem enter_oe (ph : Phase) : (enter ph s).oe = s.oe := rfl
@[simp] theorem enter_dout (ph : Phase) : (enter ph s).dout = s.dout := rfl
@[simp] theorem enter_busy (ph : Phase) : (enter ph s).busy = s.busy := rfl
@[simp] theorem enter_done (ph : Phase) : (enter ph s).done = s.done := rfl
@[simp] theorem enter_phase (ph : Phase) : (enter ph s).phase = ph := rfl
@[simp] theorem enter_cnt (ph : Phase) : (enter ph s).cnt = 0#8 := rfl
@[simp] theorem enter_pkt (ph : Phase) : (enter ph s).pkt = s.pkt := rfl
@[simp] theorem enter_sh (ph : Phase) : (enter ph s).sh = s.sh := rfl
@[simp] theorem enter_par (ph : Phase) : (enter ph s).par = s.par := rfl
@[simp] theorem enter_ack (ph : Phase) : (enter ph s).ack = s.ack := rfl
@[simp] theorem enter_perr (ph : Phase) : (enter ph s).perr = s.perr := rfl
@[simp] theorem enter_lApndp (ph : Phase) : (enter ph s).lApndp = s.lApndp := rfl
@[simp] theorem enter_lRnw (ph : Phase) : (enter ph s).lRnw = s.lRnw := rfl
@[simp] theorem enter_lA (ph : Phase) : (enter ph s).lA = s.lA := rfl
@[simp] theorem enter_lTs (ph : Phase) : (enter ph s).lTs = s.lTs := rfl
@[simp] theorem enter_lWdata (ph : Phase) : (enter ph s).lWdata = s.lWdata := rfl
@[simp] theorem enter_sTrn (ph : Phase) : (enter ph s).sTrn = s.sTrn := rfl
@[simp] theorem enter_sIdle (ph : Phase) : (enter ph s).sIdle = s.sIdle := rfl
@[simp] theorem enter_sDpen (ph : Phase) : (enter ph s).sDpen = s.sDpen := rfl
@[simp] theorem enter_faults (ph : Phase) : (enter ph s).faults = s.faults := rfl
@[simp] theorem enter_trace (ph : Phase) : (enter ph s).trace = s.trace := rfl
@[simp] theorem enter_inputs (ph : Phase) : (enter ph s).inputs = s.inputs := rfl
@[simp] theorem enter_stepNo (ph : Phase) : (enter ph s).stepNo = s.stepNo := rfl
@[simp] theorem enter_readBack (ph : Phase) : (enter ph s).readBack = s.readBack := rfl

/-! ### countUp -/

@[simp] theorem countUp_cfg : (countUp s).cfg = s.cfg := rfl
@[simp] theorem countUp_tsr : (countUp s).tsr = s.tsr := rfl
@[simp] theorem countUp_result : (countUp s).result = s.result := rfl
@[simp] theorem countUp_ackRaw : (countUp s).ackRaw = s.ackRaw := rfl
@[simp] theorem countUp_rdata : (countUp s).rdata = s.rdata := rfl
@[simp] theorem countUp_swclk : (countUp s).swclk = s.swclk := rfl
@[simp] theorem countUp_oe : (countUp s).oe = s.oe := rfl
@[simp] theorem countUp_dout : (countUp s).dout = s.dout := rfl
@[simp] theorem countUp_busy : (countUp s).busy = s.busy := rfl
@[simp] theorem countUp_done : (countUp s).done = s.done := rfl
@[simp] theorem countUp_phase : (countUp s).phase = s.phase := rfl
@[simp] theorem countUp_cnt : (countUp s).cnt = s.cnt + 1#8 := rfl
@[simp] theorem countUp_pkt : (countUp s).pkt = s.pkt := rfl
@[simp] theorem countUp_sh : (countUp s).sh = s.sh := rfl
@[simp] theorem countUp_par : (countUp s).par = s.par := rfl
@[simp] theorem countUp_ack : (countUp s).ack = s.ack := rfl
@[simp] theorem countUp_perr : (countUp s).perr = s.perr := rfl
@[simp] theorem countUp_lApndp : (countUp s).lApndp = s.lApndp := rfl
@[simp] theorem countUp_lRnw : (countUp s).lRnw = s.lRnw := rfl
@[simp] theorem countUp_lA : (countUp s).lA = s.lA := rfl
@[simp] theorem countUp_lTs : (countUp s).lTs = s.lTs := rfl
@[simp] theorem countUp_lWdata : (countUp s).lWdata = s.lWdata := rfl
@[simp] theorem countUp_sTrn : (countUp s).sTrn = s.sTrn := rfl
@[simp] theorem countUp_sIdle : (countUp s).sIdle = s.sIdle := rfl
@[simp] theorem countUp_sDpen : (countUp s).sDpen = s.sDpen := rfl
@[simp] theorem countUp_faults : (countUp s).faults = s.faults := rfl
@[simp] theorem countUp_trace : (countUp s).trace = s.trace := rfl
@[simp] theorem countUp_inputs : (countUp s).inputs = s.inputs := rfl
@[simp] theorem countUp_stepNo : (countUp s).stepNo = s.stepNo := rfl
@[simp] theorem countUp_readBack : (countUp s).readBack = s.readBack := rfl

/-! ### takeInputs -/

@[simp] theorem takeInputs_cfg : (takeInputs s).cfg = s.cfg := rfl
@[simp] theorem takeInputs_tsr : (takeInputs s).tsr = s.tsr := rfl
@[simp] theorem takeInputs_result : (takeInputs s).result = s.result := rfl
@[simp] theorem takeInputs_ackRaw : (takeInputs s).ackRaw = s.ackRaw := rfl
@[simp] theorem takeInputs_rdata : (takeInputs s).rdata = s.rdata := rfl
@[simp] theorem takeInputs_swclk : (takeInputs s).swclk = s.swclk := rfl
@[simp] theorem takeInputs_oe : (takeInputs s).oe = s.oe := rfl
@[simp] theorem takeInputs_dout : (takeInputs s).dout = s.dout := rfl
@[simp] theorem takeInputs_busy : (takeInputs s).busy = s.busy := rfl
@[simp] theorem takeInputs_done : (takeInputs s).done = s.done := rfl
@[simp] theorem takeInputs_phase : (takeInputs s).phase = s.phase := rfl
@[simp] theorem takeInputs_cnt : (takeInputs s).cnt = s.cnt := rfl
@[simp] theorem takeInputs_pkt : (takeInputs s).pkt = s.pkt := rfl
@[simp] theorem takeInputs_sh : (takeInputs s).sh = s.sh := rfl
@[simp] theorem takeInputs_par : (takeInputs s).par = s.par := rfl
@[simp] theorem takeInputs_ack : (takeInputs s).ack = s.ack := rfl
@[simp] theorem takeInputs_perr : (takeInputs s).perr = s.perr := rfl
@[simp] theorem takeInputs_lApndp : (takeInputs s).lApndp = s.lApndp := rfl
@[simp] theorem takeInputs_lRnw : (takeInputs s).lRnw = s.lRnw := rfl
@[simp] theorem takeInputs_lA : (takeInputs s).lA = s.lA := rfl
@[simp] theorem takeInputs_lTs : (takeInputs s).lTs = s.lTs := rfl
@[simp] theorem takeInputs_lWdata : (takeInputs s).lWdata = s.lWdata := rfl
@[simp] theorem takeInputs_sTrn : (takeInputs s).sTrn = s.sTrn := rfl
@[simp] theorem takeInputs_sIdle : (takeInputs s).sIdle = s.sIdle := rfl
@[simp] theorem takeInputs_sDpen : (takeInputs s).sDpen = s.sDpen := rfl
@[simp] theorem takeInputs_faults : (takeInputs s).faults = s.faults := rfl
@[simp] theorem takeInputs_trace : (takeInputs s).trace = s.trace := rfl
@[simp] theorem takeInputs_inputs : (takeInputs s).inputs = s.inputs.tail := rfl
@[simp] theorem takeInputs_stepNo : (takeInputs s).stepNo = s.stepNo + 1 := rfl
@[simp] theorem takeInputs_readBack : (takeInputs s).readBack = s.readBack := rfl

/-! ### accumulate -/

@[simp] theorem accumulate_cfg (b : Bool) : (accumulate b s).cfg = s.cfg := rfl
@[simp] theorem accumulate_tsr (b : Bool) : (accumulate b s).tsr = s.tsr := rfl
@[simp] theorem accumulate_result (b : Bool) : (accumulate b s).result = s.result := rfl
@[simp] theorem accumulate_ackRaw (b : Bool) : (accumulate b s).ackRaw = s.ackRaw := rfl
@[simp] theorem accumulate_rdata (b : Bool) : (accumulate b s).rdata = s.rdata := rfl
@[simp] theorem accumulate_swclk (b : Bool) : (accumulate b s).swclk = s.swclk := rfl
@[simp] theorem accumulate_oe (b : Bool) : (accumulate b s).oe = s.oe := rfl
@[simp] theorem accumulate_dout (b : Bool) : (accumulate b s).dout = s.dout := rfl
@[simp] theorem accumulate_busy (b : Bool) : (accumulate b s).busy = s.busy := rfl
@[simp] theorem accumulate_done (b : Bool) : (accumulate b s).done = s.done := rfl
@[simp] theorem accumulate_phase (b : Bool) : (accumulate b s).phase = s.phase := rfl
@[simp] theorem accumulate_cnt (b : Bool) : (accumulate b s).cnt = s.cnt := rfl
@[simp] theorem accumulate_pkt (b : Bool) : (accumulate b s).pkt = s.pkt := rfl
@[simp] theorem accumulate_sh (b : Bool) : (accumulate b s).sh = s.sh := rfl
@[simp] theorem accumulate_par (b : Bool) : (accumulate b s).par = xor s.par b := rfl
@[simp] theorem accumulate_ack (b : Bool) : (accumulate b s).ack = s.ack := rfl
@[simp] theorem accumulate_perr (b : Bool) : (accumulate b s).perr = s.perr := rfl
@[simp] theorem accumulate_lApndp (b : Bool) : (accumulate b s).lApndp = s.lApndp := rfl
@[simp] theorem accumulate_lRnw (b : Bool) : (accumulate b s).lRnw = s.lRnw := rfl
@[simp] theorem accumulate_lA (b : Bool) : (accumulate b s).lA = s.lA := rfl
@[simp] theorem accumulate_lTs (b : Bool) : (accumulate b s).lTs = s.lTs := rfl
@[simp] theorem accumulate_lWdata (b : Bool) : (accumulate b s).lWdata = s.lWdata := rfl
@[simp] theorem accumulate_sTrn (b : Bool) : (accumulate b s).sTrn = s.sTrn := rfl
@[simp] theorem accumulate_sIdle (b : Bool) : (accumulate b s).sIdle = s.sIdle := rfl
@[simp] theorem accumulate_sDpen (b : Bool) : (accumulate b s).sDpen = s.sDpen := rfl
@[simp] theorem accumulate_faults (b : Bool) : (accumulate b s).faults = s.faults := rfl
@[simp] theorem accumulate_trace (b : Bool) : (accumulate b s).trace = s.trace := rfl
@[simp] theorem accumulate_inputs (b : Bool) : (accumulate b s).inputs = s.inputs := rfl
@[simp] theorem accumulate_stepNo (b : Bool) : (accumulate b s).stepNo = s.stepNo := rfl
@[simp] theorem accumulate_readBack (b : Bool) : (accumulate b s).readBack = s.readBack := rfl

/-! ### checkParity -/

@[simp] theorem checkParity_cfg (p : Bool) : (checkParity p s).cfg = s.cfg := rfl
@[simp] theorem checkParity_tsr (p : Bool) : (checkParity p s).tsr = s.tsr := rfl
@[simp] theorem checkParity_result (p : Bool) : (checkParity p s).result = s.result := rfl
@[simp] theorem checkParity_ackRaw (p : Bool) : (checkParity p s).ackRaw = s.ackRaw := rfl
@[simp] theorem checkParity_rdata (p : Bool) : (checkParity p s).rdata = s.rdata := rfl
@[simp] theorem checkParity_swclk (p : Bool) : (checkParity p s).swclk = s.swclk := rfl
@[simp] theorem checkParity_oe (p : Bool) : (checkParity p s).oe = s.oe := rfl
@[simp] theorem checkParity_dout (p : Bool) : (checkParity p s).dout = s.dout := rfl
@[simp] theorem checkParity_busy (p : Bool) : (checkParity p s).busy = s.busy := rfl
@[simp] theorem checkParity_done (p : Bool) : (checkParity p s).done = s.done := rfl
@[simp] theorem checkParity_phase (p : Bool) : (checkParity p s).phase = s.phase := rfl
@[simp] theorem checkParity_cnt (p : Bool) : (checkParity p s).cnt = s.cnt := rfl
@[simp] theorem checkParity_pkt (p : Bool) : (checkParity p s).pkt = s.pkt := rfl
@[simp] theorem checkParity_sh (p : Bool) : (checkParity p s).sh = s.sh := rfl
@[simp] theorem checkParity_par (p : Bool) : (checkParity p s).par = s.par := rfl
@[simp] theorem checkParity_ack (p : Bool) : (checkParity p s).ack = s.ack := rfl
@[simp] theorem checkParity_perr (p : Bool) : (checkParity p s).perr = (s.par != p) := rfl
@[simp] theorem checkParity_lApndp (p : Bool) : (checkParity p s).lApndp = s.lApndp := rfl
@[simp] theorem checkParity_lRnw (p : Bool) : (checkParity p s).lRnw = s.lRnw := rfl
@[simp] theorem checkParity_lA (p : Bool) : (checkParity p s).lA = s.lA := rfl
@[simp] theorem checkParity_lTs (p : Bool) : (checkParity p s).lTs = s.lTs := rfl
@[simp] theorem checkParity_lWdata (p : Bool) : (checkParity p s).lWdata = s.lWdata := rfl
@[simp] theorem checkParity_sTrn (p : Bool) : (checkParity p s).sTrn = s.sTrn := rfl
@[simp] theorem checkParity_sIdle (p : Bool) : (checkParity p s).sIdle = s.sIdle := rfl
@[simp] theorem checkParity_sDpen (p : Bool) : (checkParity p s).sDpen = s.sDpen := rfl
@[simp] theorem checkParity_faults (p : Bool) : (checkParity p s).faults = s.faults := rfl
@[simp] theorem checkParity_trace (p : Bool) : (checkParity p s).trace = s.trace := rfl
@[simp] theorem checkParity_inputs (p : Bool) : (checkParity p s).inputs = s.inputs := rfl
@[simp] theorem checkParity_stepNo (p : Bool) : (checkParity p s).stepNo = s.stepNo := rfl
@[simp] theorem checkParity_readBack (p : Bool) : (checkParity p s).readBack = s.readBack := rfl

/-! ### clearParity -/

@[simp] theorem clearParity_cfg : (clearParity s).cfg = s.cfg := rfl
@[simp] theorem clearParity_tsr : (clearParity s).tsr = s.tsr := rfl
@[simp] theorem clearParity_result : (clearParity s).result = s.result := rfl
@[simp] theorem clearParity_ackRaw : (clearParity s).ackRaw = s.ackRaw := rfl
@[simp] theorem clearParity_rdata : (clearParity s).rdata = s.rdata := rfl
@[simp] theorem clearParity_swclk : (clearParity s).swclk = s.swclk := rfl
@[simp] theorem clearParity_oe : (clearParity s).oe = s.oe := rfl
@[simp] theorem clearParity_dout : (clearParity s).dout = s.dout := rfl
@[simp] theorem clearParity_busy : (clearParity s).busy = s.busy := rfl
@[simp] theorem clearParity_done : (clearParity s).done = s.done := rfl
@[simp] theorem clearParity_phase : (clearParity s).phase = s.phase := rfl
@[simp] theorem clearParity_cnt : (clearParity s).cnt = s.cnt := rfl
@[simp] theorem clearParity_pkt : (clearParity s).pkt = s.pkt := rfl
@[simp] theorem clearParity_sh : (clearParity s).sh = s.sh := rfl
@[simp] theorem clearParity_par : (clearParity s).par = false := rfl
@[simp] theorem clearParity_ack : (clearParity s).ack = s.ack := rfl
@[simp] theorem clearParity_perr : (clearParity s).perr = s.perr := rfl
@[simp] theorem clearParity_lApndp : (clearParity s).lApndp = s.lApndp := rfl
@[simp] theorem clearParity_lRnw : (clearParity s).lRnw = s.lRnw := rfl
@[simp] theorem clearParity_lA : (clearParity s).lA = s.lA := rfl
@[simp] theorem clearParity_lTs : (clearParity s).lTs = s.lTs := rfl
@[simp] theorem clearParity_lWdata : (clearParity s).lWdata = s.lWdata := rfl
@[simp] theorem clearParity_sTrn : (clearParity s).sTrn = s.sTrn := rfl
@[simp] theorem clearParity_sIdle : (clearParity s).sIdle = s.sIdle := rfl
@[simp] theorem clearParity_sDpen : (clearParity s).sDpen = s.sDpen := rfl
@[simp] theorem clearParity_faults : (clearParity s).faults = s.faults := rfl
@[simp] theorem clearParity_trace : (clearParity s).trace = s.trace := rfl
@[simp] theorem clearParity_inputs : (clearParity s).inputs = s.inputs := rfl
@[simp] theorem clearParity_stepNo : (clearParity s).stepNo = s.stepNo := rfl
@[simp] theorem clearParity_readBack : (clearParity s).readBack = s.readBack := rfl

/-! ### clearDone -/

@[simp] theorem clearDone_cfg : (clearDone s).cfg = s.cfg := rfl
@[simp] theorem clearDone_tsr : (clearDone s).tsr = s.tsr := rfl
@[simp] theorem clearDone_result : (clearDone s).result = s.result := rfl
@[simp] theorem clearDone_ackRaw : (clearDone s).ackRaw = s.ackRaw := rfl
@[simp] theorem clearDone_rdata : (clearDone s).rdata = s.rdata := rfl
@[simp] theorem clearDone_swclk : (clearDone s).swclk = s.swclk := rfl
@[simp] theorem clearDone_oe : (clearDone s).oe = s.oe := rfl
@[simp] theorem clearDone_dout : (clearDone s).dout = s.dout := rfl
@[simp] theorem clearDone_busy : (clearDone s).busy = s.busy := rfl
@[simp] theorem clearDone_done : (clearDone s).done = false := rfl
@[simp] theorem clearDone_phase : (clearDone s).phase = s.phase := rfl
@[simp] theorem clearDone_cnt : (clearDone s).cnt = s.cnt := rfl
@[simp] theorem clearDone_pkt : (clearDone s).pkt = s.pkt := rfl
@[simp] theorem clearDone_sh : (clearDone s).sh = s.sh := rfl
@[simp] theorem clearDone_par : (clearDone s).par = s.par := rfl
@[simp] theorem clearDone_ack : (clearDone s).ack = s.ack := rfl
@[simp] theorem clearDone_perr : (clearDone s).perr = s.perr := rfl
@[simp] theorem clearDone_lApndp : (clearDone s).lApndp = s.lApndp := rfl
@[simp] theorem clearDone_lRnw : (clearDone s).lRnw = s.lRnw := rfl
@[simp] theorem clearDone_lA : (clearDone s).lA = s.lA := rfl
@[simp] theorem clearDone_lTs : (clearDone s).lTs = s.lTs := rfl
@[simp] theorem clearDone_lWdata : (clearDone s).lWdata = s.lWdata := rfl
@[simp] theorem clearDone_sTrn : (clearDone s).sTrn = s.sTrn := rfl
@[simp] theorem clearDone_sIdle : (clearDone s).sIdle = s.sIdle := rfl
@[simp] theorem clearDone_sDpen : (clearDone s).sDpen = s.sDpen := rfl
@[simp] theorem clearDone_faults : (clearDone s).faults = s.faults := rfl
@[simp] theorem clearDone_trace : (clearDone s).trace = s.trace := rfl
@[simp] theorem clearDone_inputs : (clearDone s).inputs = s.inputs := rfl
@[simp] theorem clearDone_stepNo : (clearDone s).stepNo = s.stepNo := rfl
@[simp] theorem clearDone_readBack : (clearDone s).readBack = s.readBack := rfl

end Sys2Proof.Machine
end

