-- ==== Sys2Proof/Laws/Ops.lean ====
section
/-! SUPPORT. What the shared operations do: outcomes in sequence, bit fields and parity, bus cycles,
rows, the inputs of a step. -/

namespace Sys2Proof.Machine

open Sys2Proof

/-! ### Outcomes in sequence -/

@[simp] theorem andThen_next (s : State) (f : State → Answer) : andThen (.next s) f = f s := rfl
@[simp] theorem andThen_fault (r : Fault) (f : State → Answer) : andThen (.fault r) f = .fault r := rfl
@[simp] theorem andThen_refused (r : Refusal) (f : State → Answer) :
    andThen (.refused r) f = .refused r := rfl

theorem next_inj {u v : State} (h : (Host.Outcome.next u : Answer) = .next v) : v = u := by
  injection h with h; exact h.symm

/-- If a sequence answers next, so did its first part. -/
theorem andThen_eq_next {o : Answer} {f : State → Answer} {t : State} (h : andThen o f = .next t) :
    ∃ s, o = .next s ∧ f s = .next t := by
  cases o with
  | next s => exact ⟨s, rfl, h⟩
  | fault r => exact absurd h (by simp)
  | refused r => exact absurd h (by simp)

/-! ### Loops -/

@[simp] theorem forN_zero (P : Nat → State → State) (s : State) : forN 0 P s = s := rfl
@[simp] theorem forN_succ (k : Nat) (P : Nat → State → State) (s : State) :
    forN (k + 1) P s = P k (forN k P s) := rfl

/-- What every round of a loop leaves alone, the loop leaves alone. -/
theorem forN_keeps {α : Type} (g : State → α) (P : Nat → State → State)
    (h : ∀ i s, g (P i s) = g s) (n : Nat) (s : State) : g (forN n P s) = g s := by
  induction n with
  | zero => rfl
  | succ k ih => rw [forN_succ, h, ih]

/-! ### Bit fields -/

/-- `v[i] <- b` puts b at i and keeps every other bit. -/
theorem getLsbD_putBit {n : Nat} (v : BitVec n) (i j : Nat) (b : Bool) (hi : i < n) :
    (putBit v i b).getLsbD j = if j = i then b else v.getLsbD j := by
  unfold putBit
  by_cases hj : j < n
  · by_cases h : j = i
    · subst h; cases b <;> simp [hj]
    · have h1 : j < i ∨ ¬ j - i < 1 := by omega
      rcases h1 with h1 | h1 <;> cases b <;> simp [hj, h, h1] <;> omega
  · have h : j ≠ i := by omega
    cases b <;> simp [h, BitVec.getLsbD_of_ge _ _ (Nat.le_of_not_lt hj)]

/-! ### Parity -/

@[simp] theorem parityBelow_zero (d : Data) : parityBelow 0 d = false := rfl
@[simp] theorem parityBelow_succ (k : Nat) (d : Data) :
    parityBelow (k + 1) d = xor (parityBelow k d) (d.getLsbD k) := rfl

/-- The parity of the low n bits depends on those bits alone. -/
theorem parityBelow_congr {d e : Data} {n : Nat} (h : ∀ i, i < n → d.getLsbD i = e.getLsbD i) :
    parityBelow n d = parityBelow n e := by
  induction n with
  | zero => rfl
  | succ k ih =>
    rw [parityBelow_succ, parityBelow_succ, ih (fun i hi => h i (by omega)), h k (by omega)]

/-- One more data bit: PAR after it is the parity of one more bit of SH (41_parity_unit.md R123). -/
theorem parityBelow_putBit (k : Nat) (d : Data) (b : Bool) (hk : k < 32) :
    parityBelow (k + 1) (putBit d k b) = xor (parityBelow k d) b := by
  rw [parityBelow_succ, getLsbD_putBit _ _ _ _ hk, if_pos rfl]
  congr 1
  exact parityBelow_congr fun i hi => by rw [getLsbD_putBit _ _ _ _ hk, if_neg (by omega)]

/-! ### Bus cycles as record updates (40_bus_primitives.md R102 to R104) -/

theorem cycleW_eq (b : Bool) (s : State) :
    cycleW b s = { s with dout := b, swclk := true, trace := s.trace ++ [.w b] } := rfl

theorem cycleR_eq (b : Bool) (s : State) :
    cycleR b s = { s with swclk := true, trace := s.trace ++ [.r b] } := rfl

theorem cycleZ_eq (s : State) :
    cycleZ s = { s with swclk := true, trace := s.trace ++ [.z] } := rfl

theorem sampleAck_eq (i : Nat) (b : Bool) (s : State) :
    sampleAck i b s =
      { s with ack := putBit s.ack i b, swclk := true, trace := s.trace ++ [.r b] } := rfl

theorem sampleData_eq (i : Nat) (b : Bool) (s : State) :
    sampleData i b s =
      { s with sh := putBit s.sh i b, par := xor s.par b, swclk := true, trace := s.trace ++ [.r b] } := rfl

theorem sendData_eq (i : Nat) (s : State) :
    sendData i s =
      { s with
        dout := s.sh.getLsbD i, par := xor s.par (s.sh.getLsbD i), swclk := true
        trace := s.trace ++ [.w (s.sh.getLsbD i)] } := by
  unfold sendData
  generalize s.sh.getLsbD i = b
  rfl

theorem complete_eq (s : State) :
    complete s =
      { s with
        dout := true, ackRaw := some s.ack
        result := some (resultCode (outcome s.ack s.lRnw s.perr) s.ack)
        rdata := if ackDecode s.ack = .ok ∧ s.lRnw = true then some s.sh else none
        busy := false, done := true, phase := .idle, cnt := 0#8 } := rfl

/-! ### Rows (46_transfers.md R181) -/

/-- A cycle of a row that is not its last. -/
theorem row_tick {len : Nat} {act : State → State} {exit : State → Answer} {s : State}
    (h : s.cnt.toNat + 1 ≠ len) : row len act exit s = .next (countUp (act s)) := if_neg h

/-- The last cycle of a row. -/
theorem row_last {len : Nat} {act : State → State} {exit : State → Answer} {s : State}
    (h : s.cnt.toNat + 1 = len) : row len act exit s = exit (act s) := if_pos h

/-- Everything a row can answer when it answers next. -/
theorem row_cases {len : Nat} {act : State → State} {exit : State → Answer} {s t : State}
    (h : row len act exit s = .next t) :
    (s.cnt.toNat + 1 ≠ len ∧ t = countUp (act s)) ∨ (s.cnt.toNat + 1 = len ∧ exit (act s) = .next t) := by
  by_cases hl : s.cnt.toNat + 1 = len
  · exact .inr ⟨hl, by rwa [row_last hl] at h⟩
  · rw [row_tick hl] at h
    exact .inl ⟨hl, by injection h with h; exact h.symm⟩

/-- What both ways out of a row have, the row has. -/
theorem row_all {len : Nat} {act : State → State} {exit : State → Answer} {s t : State} (P : State → Prop)
    (h : row len act exit s = .next t) (tick : P (countUp (act s)))
    (last : ∀ u, exit (act s) = .next u → P u) : P t := by
  rcases row_cases h with ⟨_, rfl⟩ | ⟨_, e⟩
  · exact tick
  · exact last _ e

/-- The dispatch, value by value of the acknowledge (44_ack_interpreter.md R152). -/
theorem dispatchAck_eq (s : State) :
    dispatchAck s =
      if s.ack = 0b001#3 then
        if s.lRnw then { s with par := false, phase := .rdata, cnt := 0#8 }
        else { s with phase := .trn2w, cnt := 0#8 }
      else if s.ack = 0b010#3 ∨ s.ack = 0b100#3 then
        if s.sDpen = true ∧ s.lRnw = true then { s with phase := .dummyr, cnt := 0#8 }
        else { s with phase := .trnwf, cnt := 0#8 }
      else { s with phase := .backoff, cnt := 0#8 } := by
  have both : ∀ (b c : Bool) (x y : State), (if b && c then x else y) = if b = true ∧ c = true then x else y := by
    intro b c x y; cases b <;> cases c <;> rfl
  unfold dispatchAck ackDecode
  by_cases h1 : s.ack = 0b001#3
  · rw [if_pos h1, if_pos h1]; rfl
  rw [if_neg h1, if_neg h1]
  by_cases h24 : s.ack = 0b010#3 ∨ s.ack = 0b100#3
  · rw [if_pos h24]
    rcases h24 with h2 | h4
    · rw [if_pos h2]; exact both _ _ _ _
    · rw [if_neg (by rw [h4]; decide), if_pos h4]; exact both _ _ _ _
  · rw [if_neg h24, if_neg (fun h => h24 (.inl h)), if_neg (fun h => h24 (.inr h))]; rfl

/-- The load of the write data, where L_WDATA holds one (R162). -/
theorem loadWriteData_eq {s : State} {v : Data} (h : s.lWdata = some v) :
    loadWriteData s = .next { s with sh := v, par := false } := by
  unfold loadWriteData; rw [h]; rfl

/-! ### Reads and the inputs of a step -/

/-- A caller read changes only what it returned and the mark (10_state.md R43). -/
theorem serveRead_eq (s : State) (r : OutReg) :
    serveRead s r =
      { s with
        readBack := (serveRead s r).readBack
        faults := (serveRead s r).faults } := by
  unfold serveRead; split <;> rfl

/-- The caller's reads change only what they returned and the mark. -/
theorem serveReads_eq (rs : List OutReg) (s : State) :
    serveReads rs s =
      { s with
        readBack := (serveReads rs s).readBack
        faults := (serveReads rs s).faults } := by
  have key : ∀ (rs : List OutReg) (s : State),
      rs.foldl serveRead s =
        { s with readBack := (rs.foldl serveRead s).readBack, faults := (rs.foldl serveRead s).faults } := by
    intro rs
    induction rs with
    | nil => intro s; rfl
    | cons r rs ih =>
      intro s
      rw [List.foldl_cons, ih, serveRead_eq]
  rw [serveReads, key]

/-- With no read, nothing but the old answers goes. -/
theorem serveReads_nil (s : State) : serveReads [] s = { s with readBack := [] } := rfl

/-- The reads of a step, served on the state the step finds. -/
theorem openStep_eq (p : Inputs) (s : State) :
    openStep p s =
      { s with
        inputs := s.inputs.tail, stepNo := s.stepNo + 1
        readBack := (openStep p s).readBack, faults := (openStep p s).faults } := by
  unfold openStep; rw [serveReads_eq]; rfl

/-- A silent step finds the caller's ports at rest. -/
theorem silent_iff (p : Inputs) :
    p.silent = true ↔ p.rst = false ∧ p.cfgWe = false ∧ p.start = false ∧ p.reads = [] := by
  simp [Inputs.silent, and_assoc, List.isEmpty_iff]

/-- The inputs of the coming step are the ones zero steps from now. -/
theorem upcoming_zero (s : State) : upcoming 0 s = currentInputs s := by
  unfold upcoming currentInputs; cases s.inputs <;> rfl

/-- A step moves the coming inputs one nearer. -/
theorem upcoming_succ {s t : State} (k : Nat) (hi : t.inputs = s.inputs.tail) (hn : t.stepNo = s.stepNo + 1) :
    upcoming (k + 1) s = upcoming k t := by
  unfold upcoming
  rw [hi, hn, List.getElem?_tail, show s.stepNo + 1 + k = s.stepNo + (k + 1) by omega]

/-- The inputs of two states with the same list and the same step number agree. -/
theorem upcoming_congr {s t : State} (k : Nat) (hi : t.inputs = s.inputs) (hn : t.stepNo = s.stepNo) :
    upcoming k t = upcoming k s := by
  unfold upcoming; rw [hi, hn]

end Sys2Proof.Machine
end

