-- ==== Sys2Proof/Laws/Step.lean ====
section
/-! SUPPORT. What the instructions, the engine's row and one step can do, said once: the provers cite
these and unfold no step function. -/

namespace Sys2Proof.Machine

open Sys2Proof

/-! ### The instructions -/

/-- The configuration write, case by case (10_state.md R27). -/
theorem writeConfig_busy {s : State} (c : Cfg) (h : s.busy = true) :
    writeConfig c s = raise .cfgWriteWhileBusy s := by simp [writeConfig, h]

theorem writeConfig_legal {s : State} {c : Cfg} (h : s.busy = false) (hc : legalTrn c.trn = true) :
    writeConfig c s = { s with cfg := c } := by simp [writeConfig, h, hc]

theorem writeConfig_illegal {s : State} {c : Cfg} (h : s.busy = false) (hc : legalTrn c.trn = false) :
    writeConfig c s = raise .cfgIllegal s := by simp [writeConfig, h, hc]

theorem exec_cfg (trn : BitVec 3) (idle : BitVec 8) (dpen : Bool) (c : ClkDelay) (s : State) :
    exec (.cfg trn idle dpen c) s = .next (writeConfig ⟨trn, idle, dpen, c⟩ s) := rfl

/-- The start, while a transfer is in flight (46_transfers.md R180). -/
theorem startTransfer_busy {s : State} (apndp rnw : Bool) (a : Select) (ts : Bool) (v : Option Data)
    (h : s.busy = true) : startTransfer apndp rnw a ts v s = raise .startWhileBusy s := by
  simp [startTransfer, h]

/-- The start, accepted (R180). -/
theorem startTransfer_idle {s : State} (apndp rnw : Bool) (a : Select) (ts : Bool) (v : Option Data)
    (h : s.busy = false) :
    startTransfer apndp rnw a ts v s =
      { s with
        lApndp := apndp, lRnw := rnw, lA := a, lTs := ts, lWdata := v
        sTrn := s.cfg.trn, sIdle := s.cfg.idle, sDpen := s.cfg.dpen
        result := none, ackRaw := none, rdata := none, perr := false
        pkt := frame (reqNibble apndp rnw a)
        busy := true, done := false, phase := .req, cnt := 0#8 } := by
  simp [startTransfer, h]

/-- A transfer operation is a start with a request of its own, and write data exactly in a write. -/
theorem exec_transfer {i : Instr} (h : isTransfer i = true) :
    ∃ apndp rnw a ts v, v.isSome = !rnw ∧ ∀ s, exec i s = .next (startTransfer apndp rnw a ts v s) := by
  cases i with
  | dpw a ts v => exact ⟨false, false, a, ts, some v, rfl, fun _ => rfl⟩
  | apw a ts v => exact ⟨true, false, a, ts, some v, rfl, fun _ => rfl⟩
  | dpr a ts => exact ⟨false, true, a, ts, none, rfl, fun _ => rfl⟩
  | apr a ts => exact ⟨true, true, a, ts, none, rfl, fun _ => rfl⟩
  | cfg _ _ _ _ => simp [isTransfer] at h

/-- The request the ports spell is started with the fields the ports carry (R80, R90, R180). -/
theorem exec_request (apndp rnw : Bool) (a : Select) (ts : Bool) (v : Data) (s : State) :
    exec (decodeReq4 (reqNibble apndp rnw a) ts v) s =
      .next (startTransfer apndp rnw a ts (if rnw then none else some v) s) := by
  obtain ⟨h0, h1, h2⟩ := reqNibble_fields apndp rnw a
  simp only [decodeReq4, h0, h1, h2]
  cases apndp <;> cases rnw <;> rfl

/-- What the caller's configuration port spells. -/
theorem fetchCfg_eq (p : Inputs) :
    fetchCfg p = if p.cfgWe then some (.cfg p.cfgTrn p.cfgIdle p.cfgDpen p.cfgClkdly) else none := by
  unfold fetchCfg; rw [decodeCfgw_cfgWord]

/-! ### The caller's part of a step -/

/-- The same state with other marks and other answers to reads. -/
def withMarks (m : FaultMark) (rb : List ReadValue) (s : State) : State :=
  { s with faults := m, readBack := rb }

/-- The caller's configuration write, where there is one. -/
def afterCfg (p : Inputs) (s : State) : State :=
  if p.cfgWe then writeConfig ⟨p.cfgTrn, p.cfgIdle, p.cfgDpen, p.cfgClkdly⟩ s else s

/-- The caller's start, where there is one. -/
def afterStart (p : Inputs) (s : State) : State :=
  if p.start then
    startTransfer p.reqApndp p.reqRnw p.reqA p.reqTs (if p.reqRnw then none else some p.wdata) s
  else s

/-- The state the engine's part of a step begins in: what the caller's configuration write and start
have made of it. -/
def afterCaller (p : Inputs) (s : State) : State := afterStart p (afterCfg p (clearDone (openStep p s)))

/-- One step, as one of two things: a reset, or the caller's part and then the engine's. -/
theorem stepOn_eq (p : Inputs) (s : State) :
    stepOn p s =
      if p.rst then .next (resetEngine (openStep p s)) else engineStep s.busy p (afterCaller p s) := by
  unfold stepOn afterCaller afterCfg afterStart fetchStart
  rw [fetchCfg_eq]
  cases p.cfgWe <;> cases p.start <;> simp [issue, exec_request, exec_cfg]

/-- A configuration write changes CFG and the marks at most. -/
theorem afterCfg_eq (p : Inputs) (s : State) :
    afterCfg p s = { s with cfg := (afterCfg p s).cfg, faults := (afterCfg p s).faults } := by
  unfold afterCfg writeConfig raise
  split
  · split
    · rfl
    · split <;> rfl
  · rfl

/-- The marks that a step's configuration write and start raise; the reads are served before them. -/
theorem afterCaller_marks (p : Inputs) (s : State) :
    (afterCaller p s).readBack = (openStep p s).readBack ∧
    (afterCaller p s).faults =
      { startWhileBusy := (openStep p s).faults.startWhileBusy || (p.start && s.busy)
        cfgWriteWhileBusy := (openStep p s).faults.cfgWriteWhileBusy || (p.cfgWe && s.busy)
        cfgIllegal := (openStep p s).faults.cfgIllegal || (p.cfgWe && !s.busy && !legalTrn p.cfgTrn)
        readUnwritten := (openStep p s).faults.readUnwritten
        resetWhileBusy := (openStep p s).faults.resetWhileBusy } := by
  have hb : (clearDone (openStep p s)).busy = s.busy := by rw [openStep_eq]; rfl
  unfold afterCaller
  generalize hu : clearDone (openStep p s) = u at hb ⊢
  have h1 : (openStep p s).readBack = u.readBack := by rw [← hu]; rfl
  have h2 : (openStep p s).faults = u.faults := by rw [← hu]; rfl
  rw [h1, h2, ← hb]
  unfold afterStart startTransfer afterCfg writeConfig raise
  cases p.start <;> cases p.cfgWe <;> cases hb : u.busy <;> cases legalTrn p.cfgTrn <;>
    simp [FaultMark.set, hb]

/-- While a transfer is in flight, the caller's part of a step only raises marks and answers reads. -/
theorem afterCaller_busy {p : Inputs} {s : State} (h : s.busy = true) :
    afterCaller p s = withMarks (afterCaller p s).faults (afterCaller p s).readBack (base s) := by
  have h0 : clearDone (openStep p s) =
      withMarks (openStep p s).faults (openStep p s).readBack (base s) := by
    rw [openStep_eq]; rfl
  unfold afterCaller
  rw [h0]
  have hb : (base s).busy = true := h
  unfold afterStart startTransfer afterCfg writeConfig raise withMarks
  cases p.start <;> cases p.cfgWe <;> simp [hb]

/-- A silent caller leaves the step to the engine. -/
theorem afterCaller_silent {p : Inputs} {s : State} (h : p.silent = true) : afterCaller p s = base s := by
  obtain ⟨_, hc, hs, hr⟩ := (silent_iff p).1 h
  simp [afterCaller, afterCfg, afterStart, hc, hs, openStep, hr, serveReads_nil]
  rfl

/-- A step with a silent caller: the row of a transfer in flight, or nothing. -/
theorem step_silent {s : State} (h : (currentInputs s).silent = true) :
    step s = if s.busy then engineRow (currentInputs s) (base s) else .next (base s) := by
  unfold step
  rw [stepOn_eq, afterCaller_silent h, ((silent_iff _).1 h).1]
  rfl

/-- A step with reset asserted (70_reset_and_hazards.md R230). -/
theorem step_reset {s : State} (h : (currentInputs s).rst = true) :
    step s = .next (resetEngine (openStep (currentInputs s) s)) := by
  unfold step; rw [stepOn_eq, if_pos h]

/-- Everything a step can do: reset, the caller's part alone, or a row of the transfer in flight. -/
theorem step_cases {s t : State} (h : step s = .next t) :
    let p := currentInputs s
    (p.rst = true ∧ t = resetEngine (openStep p s)) ∨
    (p.rst = false ∧ s.busy = false ∧ t = afterCaller p s) ∨
    (p.rst = false ∧ s.busy = true ∧ 
      engineRow p (withMarks (afterCaller p s).faults (afterCaller p s).readBack (base s)) = .next t) := by
  intro p
  unfold step at h
  rw [stepOn_eq] at h
  change (if p.rst then _ else engineStep s.busy p (afterCaller p s)) = _ at h
  cases hr : p.rst with
  | true => rw [hr] at h; injection h with h; exact .inl ⟨rfl, h.symm⟩
  | false =>
    rw [hr] at h
    cases hb : s.busy with
    | false =>
      rw [hb] at h
      have h' : Host.Outcome.next (afterCaller p s) = Host.Outcome.next t := h
      injection h' with h'
      exact .inr (.inl ⟨rfl, rfl, h'.symm⟩)
    | true =>
      rw [hb, afterCaller_busy hb] at h
      exact .inr (.inr ⟨rfl, rfl, h⟩)

end Sys2Proof.Machine
end

