-- ==== Sys2Proof/Laws/Engine.lean ====
section
/-! SUPPORT. What the engine's row can do (46_transfers.md R181): the frame of a row, the record it adds to
the trace, and what a row must show for the invariant. -/

namespace Sys2Proof.Machine

open Sys2Proof

/-! ### The row of each phase -/

theorem engineRow_req {p : Inputs} {s : State} (h : s.phase = .req) :
    engineRow p s = rowReq s := by simp only [engineRow, h]
theorem engineRow_trn1 {p : Inputs} {s : State} (h : s.phase = .trn1) :
    engineRow p s = rowTrn1 s := by simp only [engineRow, h]
theorem engineRow_ack {p : Inputs} {s : State} (h : s.phase = .ack) :
    engineRow p s = rowAck (readBit p) s := by simp only [engineRow, h]
theorem engineRow_rdata {p : Inputs} {s : State} (h : s.phase = .rdata) :
    engineRow p s = rowRdata (readBit p) s := by simp only [engineRow, h]
theorem engineRow_rpar {p : Inputs} {s : State} (h : s.phase = .rpar) :
    engineRow p s = rowRpar (readBit p) s := by simp only [engineRow, h]
theorem engineRow_trn2r {p : Inputs} {s : State} (h : s.phase = .trn2r) :
    engineRow p s = rowTrn2r s := by simp only [engineRow, h]
theorem engineRow_trn2w {p : Inputs} {s : State} (h : s.phase = .trn2w) :
    engineRow p s = rowTrn2w s := by simp only [engineRow, h]
theorem engineRow_wdata {p : Inputs} {s : State} (h : s.phase = .wdata) :
    engineRow p s = rowWdata s := by simp only [engineRow, h]
theorem engineRow_wpar {p : Inputs} {s : State} (h : s.phase = .wpar) :
    engineRow p s = rowWpar s := by simp only [engineRow, h]
theorem engineRow_post {p : Inputs} {s : State} (h : s.phase = .post) :
    engineRow p s = rowPost p.tsNow s := by simp only [engineRow, h]
theorem engineRow_idlec {p : Inputs} {s : State} (h : s.phase = .idlec) :
    engineRow p s = rowIdlec s := by simp only [engineRow, h]
theorem engineRow_dummyr {p : Inputs} {s : State} (h : s.phase = .dummyr) :
    engineRow p s = rowDummyr s := by simp only [engineRow, h]
theorem engineRow_trnwf {p : Inputs} {s : State} (h : s.phase = .trnwf) :
    engineRow p s = rowTrnwf s := by simp only [engineRow, h]
theorem engineRow_dummyw {p : Inputs} {s : State} (h : s.phase = .dummyw) :
    engineRow p s = rowDummyw s := by simp only [engineRow, h]
theorem engineRow_backoff {p : Inputs} {s : State} (h : s.phase = .backoff) :
    engineRow p s = rowBackoff s := by simp only [engineRow, h]
theorem engineRow_finish {p : Inputs} {s : State} (h : s.phase = .finish) :
    engineRow p s = .next (complete s) := by simp only [engineRow, h]

/-! ### The frame of a row -/

/-- What no row but FINISH changes. -/
structure SameTransfer (s t : State) : Prop where
  cfg : t.cfg = s.cfg
  result : t.result = s.result
  ackRaw : t.ackRaw = s.ackRaw
  rdata : t.rdata = s.rdata
  busy : t.busy = s.busy
  done : t.done = s.done
  pkt : t.pkt = s.pkt
  lApndp : t.lApndp = s.lApndp
  lRnw : t.lRnw = s.lRnw
  lA : t.lA = s.lA
  lTs : t.lTs = s.lTs
  lWdata : t.lWdata = s.lWdata
  sTrn : t.sTrn = s.sTrn
  sIdle : t.sIdle = s.sIdle
  sDpen : t.sDpen = s.sDpen
  faults : t.faults = s.faults
  inputs : t.inputs = s.inputs
  stepNo : t.stepNo = s.stepNo
  readBack : t.readBack = s.readBack

theorem SameTransfer.refl (s : State) : SameTransfer s s := by constructor <;> rfl

theorem SameTransfer.trans {s t u : State} (h : SameTransfer s t) (k : SameTransfer t u) :
    SameTransfer s u :=
  ⟨k.cfg.trans h.cfg, k.result.trans h.result, k.ackRaw.trans h.ackRaw, k.rdata.trans h.rdata,
    k.busy.trans h.busy, k.done.trans h.done, k.pkt.trans h.pkt, k.lApndp.trans h.lApndp,
    k.lRnw.trans h.lRnw, k.lA.trans h.lA, k.lTs.trans h.lTs, k.lWdata.trans h.lWdata,
    k.sTrn.trans h.sTrn, k.sIdle.trans h.sIdle, k.sDpen.trans h.sDpen, k.faults.trans h.faults,
    k.inputs.trans h.inputs, k.stepNo.trans h.stepNo, k.readBack.trans h.readBack⟩

theorem SameTransfer.cycleW (b : Bool) (s : State) : SameTransfer s (cycleW b s) := by constructor <;> rfl
theorem SameTransfer.cycleZ (s : State) : SameTransfer s (cycleZ s) := by constructor <;> rfl
theorem SameTransfer.sampleAck (i : Nat) (b : Bool) (s : State) : SameTransfer s (sampleAck i b s) := by
  constructor <;> rfl
theorem SameTransfer.sampleData (i : Nat) (b : Bool) (s : State) : SameTransfer s (sampleData i b s) := by
  constructor <;> rfl
theorem SameTransfer.sendData (i : Nat) (s : State) : SameTransfer s (sendData i s) := by constructor <;> rfl
theorem SameTransfer.sampleParity (b : Bool) (s : State) :
    SameTransfer s (checkParity b (Machine.cycleR b s)) := by constructor <;> rfl
theorem SameTransfer.countUp (s : State) : SameTransfer s (countUp s) := by constructor <;> rfl
theorem SameTransfer.enter (ph : Phase) (s : State) : SameTransfer s (enter ph s) := by constructor <;> rfl
theorem SameTransfer.enableOutput (s : State) : SameTransfer s (enableOutput s) := by constructor <;> rfl
theorem SameTransfer.disableOutput (s : State) : SameTransfer s (disableOutput s) := by constructor <;> rfl
theorem SameTransfer.driveBit (b : Bool) (s : State) : SameTransfer s (driveBit b s) := by constructor <;> rfl
theorem SameTransfer.clearParity (s : State) : SameTransfer s (clearParity s) := by constructor <;> rfl
theorem SameTransfer.captureTime (t : Data) (s : State) : SameTransfer s (captureTime t s) := by
  unfold Machine.captureTime; split <;> constructor <;> rfl
theorem SameTransfer.loadWriteData {s t : State} (h : loadWriteData s = .next t) : SameTransfer s t := by
  unfold Machine.loadWriteData at h
  split at h
  · injection h with h; subst h; constructor <;> rfl
  · cases h
theorem SameTransfer.dispatchAck (s : State) : SameTransfer s (dispatchAck s) := by
  unfold Machine.dispatchAck
  split
  · split
    · exact (SameTransfer.clearParity s).trans (.enter _ _)
    · exact .enter _ _
  · split <;> exact .enter _ _
  · split <;> exact .enter _ _
  · exact .enter _ _

/-- A row keeps what its per-cycle action and its exit action keep. -/
theorem SameTransfer.row {len : Nat} {act : State → State} {exit : State → Answer} {s t : State}
    (h : row len act exit s = .next t) (ha : SameTransfer s (act s))
    (he : ∀ u, exit (act s) = .next u → SameTransfer (act s) u) : SameTransfer s t := by
  rcases row_cases h with ⟨_, rfl⟩ | ⟨_, e⟩
  · exact ha.trans (.countUp _)
  · exact ha.trans (he _ e)

/-- Every row but FINISH leaves the request, the snapshot, CFG, the outputs but TSR, the marks and the
coming inputs alone; FINISH is the completion (R182). -/
theorem engineRow_frame {p : Inputs} {s t : State} (h : engineRow p s = .next t) :
    (s.phase ≠ .finish ∧ SameTransfer s t) ∨ (s.phase = .finish ∧ t = complete s) := by
  unfold engineRow at h
  cases hp : s.phase <;> rw [hp] at h <;> simp only at h
  case idle => cases h
  case finish => exact .inr ⟨rfl, next_inj h⟩
  all_goals refine .inl ⟨Phase.noConfusion, ?_⟩
  case req => exact .row h (.cycleW _ _) fun u e => next_inj e ▸ (SameTransfer.disableOutput _).trans (.enter _ _)
  case trn1 => exact .row h (.cycleZ _) fun u e => next_inj e ▸ .enter _ _
  case ack => exact .row h (.sampleAck _ _ _) fun u e => next_inj e ▸ .dispatchAck _
  case rdata => exact .row h (.sampleData _ _ _) fun u e => next_inj e ▸ .enter _ _
  case rpar => exact .row h (.sampleParity _ _) fun u e => next_inj e ▸ .enter _ _
  case trn2r => exact .row h (.cycleZ _) fun u e => next_inj e ▸ (SameTransfer.enableOutput _).trans (.enter _ _)
  case trn2w =>
    refine .row h (.cycleZ _) fun u e => ?_
    obtain ⟨v, hv, e⟩ := andThen_eq_next e
    exact next_inj e ▸ ((SameTransfer.enableOutput _).trans (.loadWriteData hv)).trans (.enter _ _)
  case wdata => exact .row h (.sendData _ _) fun u e => next_inj e ▸ .enter _ _
  case wpar => exact .row h (.cycleW _ _) fun u e => next_inj e ▸ .enter _ _
  case post =>
    unfold rowPost at h
    simp only at h
    split at h
    · exact next_inj h ▸ (SameTransfer.captureTime _ _).trans (.enter _ _)
    · exact next_inj h ▸ ((SameTransfer.captureTime _ _).trans (.driveBit _ _)).trans (.enter _ _)
  case idlec => exact .row h (.cycleW _ _) fun u e => next_inj e ▸ .enter _ _
  case dummyr => exact .row h (.cycleZ _) fun u e => next_inj e ▸ .enter _ _
  case trnwf =>
    refine .row h (.cycleZ _) fun u e => ?_
    simp only at e
    split at e
    · exact next_inj e ▸ ((SameTransfer.enableOutput _).trans (.driveBit _ _)).trans (.enter _ _)
    · exact next_inj e ▸ (SameTransfer.enableOutput _).trans (.enter _ _)
  case dummyw => exact .row h (.cycleW _ _) fun u e => next_inj e ▸ .enter _ _
  case backoff => exact .row h (.cycleZ _) fun u e => next_inj e ▸ (SameTransfer.enableOutput _).trans (.enter _ _)

/-! ### What a row puts on the wire -/

/-- The cycle record a row adds: one in a cycle's row, none in a control step (R181). -/
def rowCycle (p : Inputs) (s : State) : List BusCycle :=
  match s.phase with
  | .idle | .post | .finish => []
  | .ack | .rdata | .rpar => [.r (readBit p)]
  | .req => [.w (s.pkt.getLsbD s.cnt.toNat)]
  | .wdata => [.w (s.sh.getLsbD s.cnt.toNat)]
  | .wpar => [.w s.par]
  | .idlec | .dummyw => [.w false]
  | .trn1 | .trn2r | .trn2w | .dummyr | .trnwf | .backoff => [.z]

/-- What a row does to the trace and to TSR, and that no row enters REQ (R28, R68, R181). -/
structure RowEffect (p : Inputs) (s t : State) : Prop where
  trace : t.trace = s.trace ++ rowCycle p s
  tsr : t.tsr = if s.phase = .post ∧ s.lTs = true then some p.tsNow else s.tsr
  entry : t.phase = .req → s.phase = .req

/-- Away from the capture point, an effect is a record and a phase. -/
theorem RowEffect.of_cycle {p : Inputs} {s t : State} (c : List BusCycle) (hne : s.phase ≠ .post)
    (hc : rowCycle p s = c) (ht : t.trace = s.trace ++ c) (hr : t.tsr = s.tsr)
    (he : t.phase = .req → s.phase = .req) : RowEffect p s t :=
  ⟨hc ▸ ht, by rw [hr, if_neg fun h => hne h.1], he⟩

theorem engineRow_effect {p : Inputs} {s t : State} (h : engineRow p s = .next t) : RowEffect p s t := by
  have key : ∀ {len : Nat} {act : State → State} {exit : State → Answer} (c : List BusCycle),
      row len act exit s = .next t → s.phase ≠ .post → rowCycle p s = c →
      ((act s).trace = s.trace ++ c ∧ (act s).tsr = s.tsr ∧ (act s).phase = s.phase) →
      (∀ u, exit (act s) = .next u →
        u.trace = (act s).trace ∧ u.tsr = (act s).tsr ∧ u.phase ≠ .req) → RowEffect p s t := by
    intro len act exit c h hne hc ⟨a1, a2, a3⟩ he
    rcases row_cases h with ⟨_, rfl⟩ | ⟨_, e⟩
    · exact .of_cycle c hne hc a1 a2 fun hx => a3 ▸ hx
    · obtain ⟨e1, e2, e3⟩ := he _ e
      exact .of_cycle c hne hc (e1.trans a1) (e2.trans a2) fun hx => absurd hx e3
  cases hp : s.phase with
  | idle => unfold engineRow at h; rw [hp] at h; cases h
  | req =>
    rw [engineRow_req hp] at h
    exact key _ h (by simp [hp]) (by simp only [rowCycle, hp]) ⟨rfl, rfl, rfl⟩ fun _ e => by
      rw [next_inj e]; exact ⟨rfl, rfl, Phase.noConfusion⟩
  | trn1 =>
    rw [engineRow_trn1 hp] at h
    exact key _ h (by simp [hp]) (by simp only [rowCycle, hp]) ⟨rfl, rfl, rfl⟩ fun _ e => by
      rw [next_inj e]; exact ⟨rfl, rfl, Phase.noConfusion⟩
  | ack =>
    rw [engineRow_ack hp] at h
    refine key _ h (by simp [hp]) (by simp only [rowCycle, hp]) ⟨rfl, rfl, rfl⟩ fun u e => ?_
    rw [next_inj e]
    unfold dispatchAck
    split <;> (try split) <;> exact ⟨rfl, rfl, Phase.noConfusion⟩
  | rdata =>
    rw [engineRow_rdata hp] at h
    exact key _ h (by simp [hp]) (by simp only [rowCycle, hp]) ⟨rfl, rfl, rfl⟩ fun _ e => by
      rw [next_inj e]; exact ⟨rfl, rfl, Phase.noConfusion⟩
  | rpar =>
    rw [engineRow_rpar hp] at h
    exact key _ h (by simp [hp]) (by simp only [rowCycle, hp]) ⟨rfl, rfl, rfl⟩ fun _ e => by
      rw [next_inj e]; exact ⟨rfl, rfl, Phase.noConfusion⟩
  | trn2r =>
    rw [engineRow_trn2r hp] at h
    exact key _ h (by simp [hp]) (by simp only [rowCycle, hp]) ⟨rfl, rfl, rfl⟩ fun _ e => by
      rw [next_inj e]; exact ⟨rfl, rfl, Phase.noConfusion⟩
  | trn2w =>
    rw [engineRow_trn2w hp] at h
    refine key _ h (by simp [hp]) (by simp only [rowCycle, hp]) ⟨rfl, rfl, rfl⟩ fun u e => ?_
    obtain ⟨v, hv, e⟩ := andThen_eq_next e
    unfold loadWriteData at hv
    split at hv
    · rw [next_inj e, next_inj hv]; exact ⟨rfl, rfl, Phase.noConfusion⟩
    · cases hv
  | wdata =>
    rw [engineRow_wdata hp] at h
    exact key _ h (by simp [hp]) (by simp only [rowCycle, hp]) ⟨rfl, rfl, rfl⟩ fun _ e => by
      rw [next_inj e]; exact ⟨rfl, rfl, Phase.noConfusion⟩
  | wpar =>
    rw [engineRow_wpar hp] at h
    exact key _ h (by simp [hp]) (by simp only [rowCycle, hp]) ⟨rfl, rfl, rfl⟩ fun _ e => by
      rw [next_inj e]; exact ⟨rfl, rfl, Phase.noConfusion⟩
  | post =>
    rw [engineRow_post hp] at h
    have ht : (captureTime p.tsNow s).tsr = if s.phase = .post ∧ s.lTs = true then some p.tsNow else s.tsr := by
      unfold captureTime
      by_cases hl : s.lTs = true
      · rw [if_pos hl, if_pos ⟨hp, hl⟩]
      · rw [if_neg hl, if_neg fun h => hl h.2]
    have hx : (captureTime p.tsNow s).trace = s.trace ++ rowCycle p s := by
      unfold captureTime rowCycle
      rw [hp]
      split <;> exact (List.append_nil _).symm
    unfold rowPost at h
    simp only at h
    split at h <;> (rw [next_inj h]; exact ⟨hx, ht, Phase.noConfusion⟩)
  | idlec =>
    rw [engineRow_idlec hp] at h
    exact key _ h (by simp [hp]) (by simp only [rowCycle, hp]) ⟨rfl, rfl, rfl⟩ fun _ e => by
      rw [next_inj e]; exact ⟨rfl, rfl, Phase.noConfusion⟩
  | dummyr =>
    rw [engineRow_dummyr hp] at h
    exact key _ h (by simp [hp]) (by simp only [rowCycle, hp]) ⟨rfl, rfl, rfl⟩ fun _ e => by
      rw [next_inj e]; exact ⟨rfl, rfl, Phase.noConfusion⟩
  | trnwf =>
    rw [engineRow_trnwf hp] at h
    refine key _ h (by simp [hp]) (by simp only [rowCycle, hp]) ⟨rfl, rfl, rfl⟩ fun u e => ?_
    simp only at e
    split at e <;> (rw [next_inj e]; exact ⟨rfl, rfl, Phase.noConfusion⟩)
  | dummyw =>
    rw [engineRow_dummyw hp] at h
    exact key _ h (by simp [hp]) (by simp only [rowCycle, hp]) ⟨rfl, rfl, rfl⟩ fun _ e => by
      rw [next_inj e]; exact ⟨rfl, rfl, Phase.noConfusion⟩
  | backoff =>
    rw [engineRow_backoff hp] at h
    exact key _ h (by simp [hp]) (by simp only [rowCycle, hp]) ⟨rfl, rfl, rfl⟩ fun _ e => by
      rw [next_inj e]; exact ⟨rfl, rfl, Phase.noConfusion⟩
  | finish =>
    rw [engineRow_finish hp] at h
    rw [next_inj h]
    exact .of_cycle [] (by simp [hp]) (by simp only [rowCycle, hp]) (List.append_nil _).symm rfl Phase.noConfusion

/-! ### The invariant, one row at a time -/

theorem legalTrn_iff (t : BitVec 3) : legalTrn t = true ↔ 1 ≤ t.toNat ∧ t.toNat ≤ 4 := by simp [legalTrn]

/-- CNT does not wrap below 255 (10_state.md R34). -/
theorem countUp_toNat {s : State} (h : s.cnt.toNat + 1 < 256) : (s.cnt + 1#8).toNat = s.cnt.toNat + 1 := by
  rw [BitVec.toNat_add]; simp; omega

/-- No phase is longer than 255 cycles in a state of the invariant (R34). -/
theorem phaseLength_lt {s : State} (h : Inv s) (hb : s.busy = true) : phaseLength s < 256 := by
  have h1 := ((legalTrn_iff _).1 (h.snapshotLegal hb)).2
  have h2 := s.sIdle.isLt
  unfold phaseLength
  cases s.phase <;> simp <;> omega

/-- What a row that stays in flight must show for the invariant: the driver, the clock, the count,
the path, the parity and the mismatch flag of the state it leaves. -/
theorem Inv.of_row {s t : State} (h : Inv s) (hb : s.busy = true) (same : SameTransfer s t)
    (live : t.phase ≠ .idle) (done : t.done = false) (clock : t.swclk = true)
    (driver : t.oe = hostPhase t.phase) (counted : t.cnt.toNat = 0 ∨ t.cnt.toNat < phaseLength t)
    (path : onPath t) (parity : parityHeld t)
    (perr : t.perr = true →
      t.lRnw = true ∧ (t.phase = .trn2r ∨ t.phase = .post ∨ t.phase = .idlec ∨ t.phase = .finish)) :
    Inv t where
  cfgLegal := same.cfg ▸ h.cfgLegal
  clockIsHigh := clock
  busyIffPhase := ⟨fun _ => live, fun _ => same.busy.trans hb⟩
  driver := driver
  idleHigh := fun hx => by simp [same.busy, hb] at hx
  invalidated := fun _ => by
    rw [same.result, same.ackRaw, same.rdata]; exact h.invalidated hb
  doneIdle := fun hx => by simp [done] at hx
  counted := fun _ => counted
  snapshotLegal := fun _ => same.sTrn ▸ h.snapshotLegal hb
  framed := fun _ => by rw [same.pkt, same.lApndp, same.lRnw, same.lA]; exact h.framed hb
  writeHeld := fun _ => by rw [same.lWdata, same.lRnw]; exact h.writeHeld hb
  path := path
  parity := parity
  perrRead := fun _ => perr
  outputs := fun hx => by simp [same.busy, hb] at hx

/-- Marks, answers to reads, inputs taken and a cleared DONE do not touch the invariant. -/
theorem Inv.of_base {s : State} (h : Inv s) (m : FaultMark) (rb : List ReadValue) :
    Inv (withMarks m rb (base s)) := by
  obtain ⟨h1, h2, h3, h4, h5, h6, -, h8, h9, h10, h11, h12, h13, h14, h15⟩ := h
  exact ⟨h1, h2, h3, h4, h5, h6, fun hx => by simp [withMarks, base] at hx, h8, h9, h10, h11, h12, h13, h14, h15⟩

end Sys2Proof.Machine
end

