-- ==== Sys2Proof/Laws/Caller.lean ====
section
/-! SUPPORT. The caller's part of a step: what its reads return (10_state.md R43), and what one step does
to the marks (60_exceptions.md R204). -/

namespace Sys2Proof.Machine

open Sys2Proof

/-- A read returns the register's value exactly where the caller may read it. -/
theorem readOut_eq (r : OutReg) (s : State) :
    readOut r s = if readable r s then registerValue r s else none := by
  have key : ∀ {α β : Type} (b : Bool) (o : Option α) (f : α → β),
      (if b then none else o.map f) = if !b && o.isSome then o.map f else none := by
    intro α β b o f; cases b <;> cases o <;> rfl
  cases r with
  | tsr => exact key s.busy _ _
  | result => exact key false _ _
  | ackRaw => exact key false _ _
  | rdata => exact key false _ _

theorem readable_eq (r : OutReg) (s : State) : readable r s = (readOut r s).isSome := by
  cases r <;> simp [readOut, readable]
  cases s.busy <;> simp

/-- Marks and earlier answers do not touch a read. -/
theorem readOut_withMarks (r : OutReg) (m : FaultMark) (rb : List ReadValue) (s : State) :
    readOut r (withMarks m rb s) = readOut r s := by cases r <;> rfl

/-- A list of reads: the values in order, and one mark where one of them returned none. -/
theorem foldl_serveRead (rs : List OutReg) : ∀ s : State,
    rs.foldl serveRead s =
      withMarks
        (if rs.any (fun r => !readable r s) then { s.faults with readUnwritten := true } else s.faults)
        (s.readBack ++ rs.filterMap (fun r => readOut r s)) s := by
  induction rs with
  | nil => intro s; simp [withMarks]
  | cons r rs ih =>
    intro s
    rw [List.foldl_cons, ih]
    have e : ∃ m rb, serveRead s r = withMarks m rb s := by
      unfold serveRead; split <;> exact ⟨_, _, rfl⟩
    obtain ⟨m, rb, e⟩ := e
    have ho : ∀ q, readOut q (serveRead s r) = readOut q s := fun q => by rw [e, readOut_withMarks]
    simp only [readable_eq, ho]
    cases hr : readOut r s <;> simp [serveRead, hr, raise, FaultMark.set, withMarks]

/-- What the reads of a step return, and the mark they raise (R43). -/
theorem openStep_marks (p : Inputs) (s : State) :
    (openStep p s).readBack = p.reads.filterMap (fun r => if readable r s then registerValue r s else none) ∧
    (openStep p s).faults =
      if p.reads.any (fun r => !readable r s) then { s.faults with readUnwritten := true } else s.faults := by
  have e : ∀ r, readOut r { takeInputs s with readBack := [] } = readOut r s := fun r => by cases r <;> rfl
  unfold openStep serveReads
  rw [foldl_serveRead]
  simp only [e, show ∀ r, readable r { takeInputs s with readBack := [] } = readable r s from
    fun r => by rw [readable_eq, readable_eq, e]]
  simp only [readOut_eq]
  exact ⟨List.nil_append _, rfl⟩

/-- The engine's row leaves the marks, the answers and the coming inputs alone. -/
theorem engineRow_marks {p : Inputs} {s t : State} (h : engineRow p s = .next t) :
    t.faults = s.faults ∧ t.readBack = s.readBack ∧ t.inputs = s.inputs ∧ t.stepNo = s.stepNo := by
  rcases engineRow_frame h with ⟨_, h⟩ | ⟨_, rfl⟩
  · exact ⟨h.faults, h.readBack, h.inputs, h.stepNo⟩
  · exact ⟨rfl, rfl, rfl, rfl⟩

/-- The state the reads leave, with DONE cleared: the base of the step, with its marks and answers. -/
theorem clearDone_openStep (p : Inputs) (s : State) :
    clearDone (openStep p s) = withMarks (openStep p s).faults (openStep p s).readBack (base s) := by
  rw [openStep_eq]; rfl

/-- With no transfer in flight, the caller's part of a step sets CFG, or starts a transfer, or both, and
nothing else but marks and answers (R27, R180). -/
theorem afterCaller_idle {p : Inputs} {s : State} (hb : s.busy = false) :
    ∃ c m rb,
      afterCaller p s = afterStart p { withMarks m rb (base s) with cfg := c } ∧
      c = (if p.cfgWe = true ∧ legalTrn p.cfgTrn = true then ⟨p.cfgTrn, p.cfgIdle, p.cfgDpen, p.cfgClkdly⟩
        else s.cfg) := by
  refine ⟨_, (afterCfg p (clearDone (openStep p s))).faults, (openStep p s).readBack, ?_, rfl⟩
  unfold afterCaller
  congr 1
  rw [clearDone_openStep]
  have hb' : (withMarks (openStep p s).faults (openStep p s).readBack (base s)).busy = false := hb
  unfold afterCfg
  by_cases hc : p.cfgWe = true
  · rw [if_pos hc]
    by_cases hl : legalTrn p.cfgTrn = true
    · rw [writeConfig_legal hb' hl, if_pos ⟨hc, hl⟩]; rfl
    · rw [writeConfig_illegal hb' (by simpa using hl), if_neg fun h => hl h.2]; rfl
  · rw [if_neg hc, if_neg fun h => hc h.1]; rfl

/-- A start touches neither CFG nor the coming inputs (R180). -/
theorem afterStart_keeps (p : Inputs) (s : State) :
    (afterStart p s).cfg = s.cfg ∧ (afterStart p s).inputs = s.inputs ∧
      (afterStart p s).stepNo = s.stepNo := by
  unfold afterStart startTransfer
  split
  · split <;> exact ⟨rfl, rfl, rfl⟩
  · exact ⟨rfl, rfl, rfl⟩

/-- A step takes the inputs of one step, reset included. -/
theorem step_inputs {s t : State} (h : step s = .next t) :
    t.inputs = s.inputs.tail ∧ t.stepNo = s.stepNo + 1 := by
  rcases step_cases h with ⟨-, rfl⟩ | ⟨-, hb, rfl⟩ | ⟨-, -, h⟩
  · rw [openStep_eq]; exact ⟨rfl, rfl⟩
  · obtain ⟨c, m, rb, e, -⟩ := afterCaller_idle (p := currentInputs s) hb
    rw [e]; exact (afterStart_keeps _ _).2
  · exact (engineRow_marks h).2.2

/-- The row does not look at the marks or at the answers to reads (R27, R180). -/
theorem engineRow_withMarks (p : Inputs) (m : FaultMark) (rb : List ReadValue) (s : State) :
    engineRow p (withMarks m rb s) = andThen (engineRow p s) fun t => .next (withMarks m rb t) := by
  have key : ∀ {len : Nat} {act : State → State} {exit : State → Answer},
      act (withMarks m rb s) = withMarks m rb (act s) →
      exit (withMarks m rb (act s)) = andThen (exit (act s)) (fun t => .next (withMarks m rb t)) →
      row len act exit (withMarks m rb s) =
        andThen (row len act exit s) fun t => .next (withMarks m rb t) := by
    intro len act exit ha he
    by_cases hl : s.cnt.toNat + 1 = len
    · rw [row_last (s := withMarks m rb s) hl, row_last hl, ha, he]
    · rw [row_tick (s := withMarks m rb s) hl, row_tick hl, ha]; rfl
  have e0 : (withMarks m rb s).phase = s.phase := rfl
  cases hp : s.phase <;> rw [hp] at e0
  case idle => unfold engineRow; rw [e0, hp]; rfl
  case req => rw [engineRow_req e0, engineRow_req hp]; exact key rfl rfl
  case trn1 => rw [engineRow_trn1 e0, engineRow_trn1 hp]; exact key rfl rfl
  case ack =>
    rw [engineRow_ack e0, engineRow_ack hp]
    refine key rfl ?_
    generalize sampleAck s.cnt.toNat (readBit p) s = u
    have hc : dispatchAck (withMarks m rb u) = withMarks m rb (dispatchAck u) := by
      unfold dispatchAck
      have ea : (withMarks m rb u).ack = u.ack := rfl
      have er : (withMarks m rb u).lRnw = u.lRnw := rfl
      have ed : (withMarks m rb u).sDpen = u.sDpen := rfl
      rw [ea, er, ed]
      split <;> (try split) <;> rfl
    rw [hc]; rfl
  case rdata => rw [engineRow_rdata e0, engineRow_rdata hp]; exact key rfl rfl
  case rpar => rw [engineRow_rpar e0, engineRow_rpar hp]; exact key rfl rfl
  case trn2r => rw [engineRow_trn2r e0, engineRow_trn2r hp]; exact key rfl rfl
  case trn2w =>
    rw [engineRow_trn2w e0, engineRow_trn2w hp]
    refine key rfl ?_
    show andThen (loadWriteData (withMarks m rb (enableOutput (cycleZ s)))) _ =
      andThen (andThen (loadWriteData (enableOutput (cycleZ s))) _) _
    generalize enableOutput (cycleZ s) = u
    cases hv : u.lWdata with
    | none => unfold loadWriteData; rw [show (withMarks m rb u).lWdata = none from hv, hv]; rfl
    | some v => rw [loadWriteData_eq (s := withMarks m rb u) hv, loadWriteData_eq hv]; rfl
  case wdata => rw [engineRow_wdata e0, engineRow_wdata hp]; exact key rfl rfl
  case wpar => rw [engineRow_wpar e0, engineRow_wpar hp]; exact key rfl rfl
  case post =>
    rw [engineRow_post e0, engineRow_post hp]
    have hc : captureTime p.tsNow (withMarks m rb s) = withMarks m rb (captureTime p.tsNow s) := by
      unfold captureTime
      show (if s.lTs then _ else _) = _
      split <;> rfl
    unfold rowPost
    rw [hc]
    generalize captureTime p.tsNow s = u
    show (if u.sIdle = 0#8 then _ else _) = andThen (if u.sIdle = 0#8 then _ else _) _
    split <;> rfl
  case idlec => rw [engineRow_idlec e0, engineRow_idlec hp]; exact key rfl rfl
  case dummyr => rw [engineRow_dummyr e0, engineRow_dummyr hp]; exact key rfl rfl
  case trnwf =>
    rw [engineRow_trnwf e0, engineRow_trnwf hp]
    refine key rfl ?_
    generalize cycleZ s = u
    show (if u.sDpen && !u.lRnw then _ else _) = andThen (if u.sDpen && !u.lRnw then _ else _) _
    split <;> rfl
  case dummyw => rw [engineRow_dummyw e0, engineRow_dummyw hp]; exact key rfl rfl
  case backoff => rw [engineRow_backoff e0, engineRow_backoff hp]; exact key rfl rfl
  case finish => rw [engineRow_finish e0, engineRow_finish hp]; rfl

/-- Everything a step does to the marks and the answers. -/
theorem step_marks {s t : State} (h : step s = .next t) :
    let p := currentInputs s
    let m := if p.reads.any (fun r => !readable r s) then { s.faults with readUnwritten := true } else s.faults
    t.readBack = p.reads.filterMap (fun r => if readable r s then registerValue r s else none) ∧
    t.faults =
      if p.rst then { m with resetWhileBusy := m.resetWhileBusy || s.busy }
      else
        { m with
          startWhileBusy := m.startWhileBusy || (p.start && s.busy)
          cfgWriteWhileBusy := m.cfgWriteWhileBusy || (p.cfgWe && s.busy)
          cfgIllegal := m.cfgIllegal || (p.cfgWe && !s.busy && !legalTrn p.cfgTrn) } := by
  intro p m
  obtain ⟨ho1, ho2⟩ := openStep_marks p s
  obtain ⟨hc1, hc2⟩ := afterCaller_marks p s
  rw [ho2] at hc2
  rcases step_cases h with ⟨hr, rfl⟩ | ⟨hr, hb, rfl⟩ | ⟨hr, hb, h⟩
  · have hb : (openStep p s).busy = s.busy := by rw [openStep_eq]
    refine ⟨ho1, ?_⟩
    rw [if_pos hr]
    show (if (openStep p s).busy then (openStep p s).faults.set .resetWhileBusy else (openStep p s).faults) = _
    rw [hb, ho2]
    cases s.busy <;> simp [FaultMark.set, m]
  · rw [if_neg (by rw [hr]; decide)]
    exact ⟨hc1.trans ho1, hc2⟩
  · obtain ⟨e1, e2, -, -⟩ := engineRow_marks h
    rw [if_neg (by rw [hr]; decide), e1, e2]
    exact ⟨hc1.trans ho1, hc2⟩

end Sys2Proof.Machine
end

