-- ==== Sys2Proof/Laws/Invariant.lean ====
section
/-! SUPPORT. The invariant, one row of 46_transfers.md R181 at a time. -/

namespace Sys2Proof.Machine

open Sys2Proof

/-- A cycle of a row that is not its last: what its action must keep for the invariant. -/
theorem Inv.tick {s : State} {act : State → State} (h : Inv s) (hb : s.busy = true) (hd : s.done = false)
    (hl : s.cnt.toNat + 1 ≠ phaseLength s) (hlen : 0 < phaseLength s) (same : SameTransfer s (act s))
    (hc : (act s).cnt = s.cnt) (hph : (act s).phase = s.phase) (hoe : (act s).oe = s.oe)
    (hck : (act s).swclk = true) (path : onPath (countUp (act s))) (par : parityHeld (countUp (act s)))
    (hperr : (act s).perr = s.perr) : Inv (countUp (act s)) := by
  have h256 := phaseLength_lt h hb
  have hlt : s.cnt.toNat < phaseLength s := by rcases h.counted hb with h | h <;> omega
  have hpl : phaseLength (countUp (act s)) = phaseLength s := by
    unfold phaseLength
    simp only [countUp_phase, countUp_sTrn, countUp_sIdle, hph, same.sTrn, same.sIdle]
  refine h.of_row hb (same.trans (.countUp _)) (by simpa [hph] using h.busyIffPhase.1 hb)
    (by simp [same.done, hd]) hck (by simp [hoe, hph, h.driver]) ?_ path par ?_
  · right; rw [hpl]; simp only [countUp_cnt, hc]; rw [countUp_toNat (by omega)]; omega
  · intro hx; simp only [countUp_perr, hperr] at hx
    simpa [same.lRnw, hph] using h.perrRead hb hx

/-- What the invariant says of a state in flight, put together for one row. -/
theorem Inv.inRow {s : State} (h : Inv s) (hb : s.busy = true) :
    1 ≤ s.sTrn.toNat ∧ s.sTrn.toNat ≤ 4 ∧ onPath s ∧ parityHeld s ∧ s.oe = hostPhase s.phase ∧
      (s.perr = true →
        s.lRnw = true ∧ (s.phase = .trn2r ∨ s.phase = .post ∨ s.phase = .idlec ∨ s.phase = .finish)) :=
  ⟨((legalTrn_iff _).1 (h.snapshotLegal hb)).1, ((legalTrn_iff _).1 (h.snapshotLegal hb)).2, h.path,
    h.parity, h.driver, h.perrRead hb⟩

theorem inv_rowReq {s t : State} (h : Inv s) (hb : s.busy = true) (hd : s.done = false)
    (hp : s.phase = .req) (hr : rowReq s = .next t) (same : SameTransfer s t) : Inv t := by
  obtain ⟨ht1, ht4, hpath, hpar, hdr, hperr⟩ := h.inRow hb
  simp only [onPath, parityHeld, hp, hostPhase] at hpath hpar hdr
  rcases row_cases hr with ⟨hl, rfl⟩ | ⟨hl, e⟩
  · exact h.tick hb hd (by simpa [phaseLength, hp] using hl) (by simp [phaseLength, hp])
      (.cycleW _ _) rfl rfl rfl rfl (by simp [onPath, hp, cycleW_eq])
      (by simp [parityHeld, hp, cycleW_eq]) rfl
  · have := next_inj e
    rw [cycleW_eq] at this
    subst this
    exact h.of_row hb same Phase.noConfusion hd rfl rfl (.inl rfl) trivial trivial
        (by intro hx; simpa [hp] using hperr hx)

theorem inv_rowTrn1 {s t : State} (h : Inv s) (hb : s.busy = true) (hd : s.done = false)
    (hp : s.phase = .trn1) (hr : rowTrn1 s = .next t) (same : SameTransfer s t) : Inv t := by
  obtain ⟨ht1, ht4, hpath, hpar, hdr, hperr⟩ := h.inRow hb
  simp only [onPath, parityHeld, hp, hostPhase] at hpath hpar hdr
  rcases row_cases hr with ⟨hl, rfl⟩ | ⟨hl, e⟩
  · exact h.tick hb hd (by simpa [phaseLength, hp] using hl) (by simpa [phaseLength, hp])
      (.cycleZ _) rfl rfl rfl rfl (by simp [onPath, hp, cycleZ_eq])
      (by simp [parityHeld, hp, cycleZ_eq]) rfl
  · have := next_inj e; subst this
    exact h.of_row hb same Phase.noConfusion hd rfl hdr (.inl rfl) trivial trivial
        (by intro hx; simpa [hp] using hperr hx)

theorem inv_rowAck {b : Bool} {s t : State} (h : Inv s) (hb : s.busy = true) (hd : s.done = false)
    (hp : s.phase = .ack) (hr : rowAck b s = .next t) (same : SameTransfer s t) : Inv t := by
  obtain ⟨ht1, ht4, hpath, hpar, hdr, hperr⟩ := h.inRow hb
  simp only [onPath, parityHeld, hp, hostPhase] at hpath hpar hdr
  rcases row_cases hr with ⟨hl, rfl⟩ | ⟨hl, e⟩
  · exact h.tick (act := fun s => sampleAck s.cnt.toNat b s) hb hd (by simpa [phaseLength, hp] using hl)
      (by simp [phaseLength, hp]) (.sampleAck _ _ _) rfl rfl rfl rfl (by simp [onPath, hp, sampleAck_eq])
      (by simp [parityHeld, hp, sampleAck_eq]) rfl
  · have := next_inj e; subst this
    have hpf : s.perr = false := by cases hx : s.perr; rfl; have := (hperr hx).2; simp [hp] at this
    generalize hu : sampleAck s.cnt.toNat b s = u at *
    have e1 : u.perr = false := by rw [← hu]; exact hpf
    have e2 : u.oe = false := by rw [← hu]; exact hdr
    have e3 : u.swclk = true := by rw [← hu]; rfl
    have e4 : u.done = false := by rw [← hu]; exact hd
    have key : Inv (dispatchAck u) := by
      apply h.of_row hb same
      all_goals unfold dispatchAck
      all_goals cases hk : ackDecode u.ack <;> cases hr : u.lRnw <;> cases hs : u.sDpen <;> simp
          [e1,e2,e3,e4,onPath, parityHeld, hk, hr, hs, hostPhase]
    exact key

theorem inv_rowRdata {b : Bool} {s t : State} (h : Inv s) (hb : s.busy = true) (hd : s.done = false)
    (hp : s.phase = .rdata) (hr : rowRdata b s = .next t) (same : SameTransfer s t) : Inv t := by
  obtain ⟨ht1, ht4, hpath, hpar, hdr, hperr⟩ := h.inRow hb
  simp only [onPath, parityHeld, hp, hostPhase] at hpath hpar hdr
  have hlt : s.cnt.toNat < 32 := by have := h.counted hb; simp [phaseLength, hp] at this; omega
  have hpb := parityBelow_putBit s.cnt.toNat s.sh b hlt
  rcases row_cases hr with ⟨hl, rfl⟩ | ⟨hl, e⟩
  · refine h.tick (act := fun s => sampleData s.cnt.toNat b s) hb hd
      (by simpa [phaseLength, hp] using hl) (by simp [phaseLength, hp])
      (.sampleData _ _ _) rfl rfl rfl rfl (by simpa [onPath, hp, sampleData_eq] using hpath) ?_ rfl
    simp only [parityHeld, countUp_phase, sampleData_eq, hp, countUp_par, countUp_cnt, countUp_sh]
    rw [countUp_toNat (by omega), hpb, hpar]
  · have := next_inj e; subst this
    refine h.of_row hb same Phase.noConfusion hd rfl hdr (.inl rfl) hpath ?_
        (by intro hx; simpa [hp] using hperr hx)
    show xor s.par _ = parity32 (putBit s.sh s.cnt.toNat _)
    rw [parity32, hpar, ← hpb, hl]

theorem inv_rowRpar {b : Bool} {s t : State} (h : Inv s) (hb : s.busy = true) (hd : s.done = false)
    (hp : s.phase = .rpar) (hr : rowRpar b s = .next t) (same : SameTransfer s t) : Inv t := by
  obtain ⟨ht1, ht4, hpath, hpar, hdr, hperr⟩ := h.inRow hb
  simp only [onPath, parityHeld, hp, hostPhase] at hpath hpar hdr
  rcases row_cases hr with ⟨hl, rfl⟩ | ⟨hl, e⟩
  · have := h.counted hb; simp [phaseLength, hp] at this; omega
  · have := next_inj e; subst this
    exact h.of_row hb same Phase.noConfusion hd rfl hdr (.inl rfl) hpath trivial
        (fun _ => ⟨hpath.2, .inl rfl⟩)

theorem inv_rowTrn2r {s t : State} (h : Inv s) (hb : s.busy = true) (hd : s.done = false)
    (hp : s.phase = .trn2r) (hr : rowTrn2r s = .next t) (same : SameTransfer s t) : Inv t := by
  obtain ⟨ht1, ht4, hpath, hpar, hdr, hperr⟩ := h.inRow hb
  simp only [onPath, parityHeld, hp, hostPhase] at hpath hpar hdr
  rcases row_cases hr with ⟨hl, rfl⟩ | ⟨hl, e⟩
  · exact h.tick hb hd (by simpa [phaseLength, hp] using hl) (by simpa [phaseLength, hp])
      (.cycleZ _) rfl rfl rfl rfl (by simpa [onPath, hp, cycleZ_eq] using hpath)
      (by simp [parityHeld, hp, cycleZ_eq]) rfl
  · have := next_inj e; subst this
    exact h.of_row hb same Phase.noConfusion hd rfl rfl (.inl rfl) hpath.1 trivial
        (fun _ => ⟨hpath.2, .inr (.inl rfl)⟩)

theorem inv_rowTrn2w {s t : State} (h : Inv s) (hb : s.busy = true) (hd : s.done = false)
    (hp : s.phase = .trn2w) (hr : rowTrn2w s = .next t) (same : SameTransfer s t) : Inv t := by
  obtain ⟨ht1, ht4, hpath, hpar, hdr, hperr⟩ := h.inRow hb
  simp only [onPath, parityHeld, hp, hostPhase] at hpath hpar hdr
  rcases row_cases hr with ⟨hl, rfl⟩ | ⟨hl, e⟩
  · exact h.tick hb hd (by simpa [phaseLength, hp] using hl) (by simpa [phaseLength, hp])
      (.cycleZ _) rfl rfl rfl rfl (by simpa [onPath, hp, cycleZ_eq] using hpath)
      (by simp [parityHeld, hp, cycleZ_eq]) rfl
  · obtain ⟨v, hv, e⟩ := andThen_eq_next e
    have := next_inj e; subst this
    unfold loadWriteData at hv
    split at hv
    · rename_i w hw
      have := next_inj hv; subst this
      exact h.of_row hb same Phase.noConfusion hd rfl rfl (.inl rfl) ⟨hpath.1, hpath.2, hw⟩ rfl
          (by intro hx; simpa [hp] using hperr hx)
    · cases hv

theorem inv_rowWdata {s t : State} (h : Inv s) (hb : s.busy = true) (hd : s.done = false)
    (hp : s.phase = .wdata) (hr : rowWdata s = .next t) (same : SameTransfer s t) : Inv t := by
  obtain ⟨ht1, ht4, hpath, hpar, hdr, hperr⟩ := h.inRow hb
  simp only [onPath, parityHeld, hp, hostPhase] at hpath hpar hdr
  have hlt : s.cnt.toNat < 32 := by have := h.counted hb; simp [phaseLength, hp] at this; omega
  rcases row_cases hr with ⟨hl, rfl⟩ | ⟨hl, e⟩
  · refine h.tick (act := fun s => sendData s.cnt.toNat s) hb hd (by simpa [phaseLength, hp] using hl)
      (by simp [phaseLength, hp]) (.sendData _ _) (by simp only [sendData_eq]) (by simp only [sendData_eq]) (by simp only [sendData_eq])
      (by simp only [sendData_eq])
      (by simpa [onPath, hp, sendData_eq] using hpath) ?_ (by simp only [sendData_eq])
    simp only [parityHeld, countUp_phase, sendData_eq, hp, countUp_par, countUp_cnt, countUp_sh]
    rw [countUp_toNat (by omega), parityBelow_succ, hpar]
  · have := next_inj e
    rw [sendData_eq] at this
    subst this
    refine h.of_row hb same Phase.noConfusion hd rfl hdr (.inl rfl) hpath ?_
        (by intro hx; simpa [hp] using hperr hx)
    have hx : parityBelow (s.cnt.toNat + 1) s.sh = parity32 s.sh := by rw [hl]; rfl
    rw [parityBelow_succ, ← hpar] at hx
    exact hx

theorem inv_rowWpar {s t : State} (h : Inv s) (hb : s.busy = true) (hd : s.done = false)
    (hp : s.phase = .wpar) (hr : rowWpar s = .next t) (same : SameTransfer s t) : Inv t := by
  obtain ⟨ht1, ht4, hpath, hpar, hdr, hperr⟩ := h.inRow hb
  simp only [onPath, parityHeld, hp, hostPhase] at hpath hpar hdr
  rcases row_cases hr with ⟨hl, rfl⟩ | ⟨hl, e⟩
  · have := h.counted hb; simp [phaseLength, hp] at this; omega
  · have := next_inj e
    rw [cycleW_eq] at this
    subst this
    exact h.of_row hb same Phase.noConfusion hd rfl hdr (.inl rfl) hpath.1 trivial
        (by intro hx; simpa [hp] using hperr hx)

theorem inv_rowPost {now : Data} {s t : State} (h : Inv s) (hb : s.busy = true) (hd : s.done = false)
    (hp : s.phase = .post) (hr : rowPost now s = .next t) (same : SameTransfer s t) : Inv t := by
  obtain ⟨ht1, ht4, hpath, hpar, hdr, hperr⟩ := h.inRow hb
  simp only [onPath, parityHeld, hp, hostPhase] at hpath hpar hdr
  unfold rowPost at hr
  have e1 : ∀ t, (captureTime t s).oe = s.oe ∧ (captureTime t s).swclk = s.swclk ∧
      (captureTime t s).done = s.done ∧ (captureTime t s).ack = s.ack ∧ (captureTime t s).perr = s.perr ∧
      (captureTime t s).lRnw = s.lRnw := by
    intro t; unfold captureTime; split <;> simp
  obtain ⟨a1,a2,a3,a4,a5,a6⟩ := e1 now
  have hck := h.clockIsHigh
  simp only at hr
  split at hr <;> (have := next_inj hr; subst this)
  · apply h.of_row hb same Phase.noConfusion <;> simp_all [onPath, parityHeld, hostPhase]
  · rename_i hne
    have hpos : 0 < (captureTime now s).sIdle.toNat := by
      rcases Nat.eq_zero_or_pos (captureTime now s).sIdle.toNat with h0 | h0
      · exact absurd (BitVec.eq_of_toNat_eq (by simpa using h0)) hne
      · exact h0
    apply h.of_row hb same Phase.noConfusion <;> simp_all [onPath, parityHeld, hostPhase]

theorem inv_rowIdlec {s t : State} (h : Inv s) (hb : s.busy = true) (hd : s.done = false)
    (hp : s.phase = .idlec) (hr : rowIdlec s = .next t) (same : SameTransfer s t) : Inv t := by
  obtain ⟨ht1, ht4, hpath, hpar, hdr, hperr⟩ := h.inRow hb
  simp only [onPath, parityHeld, hp, hostPhase] at hpath hpar hdr
  have hpos : 0 < s.sIdle.toNat := by
      rcases Nat.eq_zero_or_pos s.sIdle.toNat with h0 | h0
      · exact absurd (BitVec.eq_of_toNat_eq (by simpa using h0)) hpath.2
      · exact h0
  rcases row_cases hr with ⟨hl, rfl⟩ | ⟨hl, e⟩
  · exact h.tick hb hd (by simpa [phaseLength, hp] using hl) (by simpa [phaseLength, hp])
      (.cycleW _ _) rfl rfl rfl rfl (by simpa [onPath, hp, cycleW_eq] using hpath)
      (by simp [parityHeld, hp, cycleW_eq]) rfl
  · have := next_inj e; subst this
    refine h.of_row hb same Phase.noConfusion hd rfl hdr (.inl rfl) trivial trivial
        (fun hx => ⟨(hperr hx).1, .inr (.inr (.inr rfl))⟩)

theorem inv_rowDummyr {s t : State} (h : Inv s) (hb : s.busy = true) (hd : s.done = false)
    (hp : s.phase = .dummyr) (hr : rowDummyr s = .next t) (same : SameTransfer s t) : Inv t := by
  obtain ⟨ht1, ht4, hpath, hpar, hdr, hperr⟩ := h.inRow hb
  simp only [onPath, parityHeld, hp, hostPhase] at hpath hpar hdr
  rcases row_cases hr with ⟨hl, rfl⟩ | ⟨hl, e⟩
  · exact h.tick hb hd (by simpa [phaseLength, hp, dummyN] using hl) (by simp [phaseLength, hp])
      (.cycleZ _) rfl rfl rfl rfl (by simpa [onPath, hp, cycleZ_eq] using hpath)
      (by simp [parityHeld, hp, cycleZ_eq]) rfl
  · have := next_inj e; subst this
    exact h.of_row hb same Phase.noConfusion hd rfl hdr (.inl rfl) hpath.1 trivial
        (by intro hx; simpa [hp] using hperr hx)

theorem inv_rowTrnwf {s t : State} (h : Inv s) (hb : s.busy = true) (hd : s.done = false)
    (hp : s.phase = .trnwf) (hr : rowTrnwf s = .next t) (same : SameTransfer s t) : Inv t := by
  obtain ⟨ht1, ht4, hpath, hpar, hdr, hperr⟩ := h.inRow hb
  simp only [onPath, parityHeld, hp, hostPhase] at hpath hpar hdr
  rcases row_cases hr with ⟨hl, rfl⟩ | ⟨hl, e⟩
  · exact h.tick hb hd (by simpa [phaseLength, hp] using hl) (by simpa [phaseLength, hp])
      (.cycleZ _) rfl rfl rfl rfl (by simpa [onPath, hp, cycleZ_eq] using hpath)
      (by simp [parityHeld, hp, cycleZ_eq]) rfl
  · simp only at e
    split at e <;> rename_i hc <;> (have := next_inj e; subst this)
    · refine h.of_row hb same Phase.noConfusion hd rfl rfl (.inl rfl) ⟨hpath, ?_⟩ trivial
        (by intro hx; simpa [hp] using hperr hx)
      simpa [cycleZ_eq] using hc
    · exact h.of_row hb same Phase.noConfusion hd rfl rfl (.inl rfl) trivial trivial
        (by intro hx; simpa [hp] using hperr hx)

theorem inv_rowDummyw {s t : State} (h : Inv s) (hb : s.busy = true) (hd : s.done = false)
    (hp : s.phase = .dummyw) (hr : rowDummyw s = .next t) (same : SameTransfer s t) : Inv t := by
  obtain ⟨ht1, ht4, hpath, hpar, hdr, hperr⟩ := h.inRow hb
  simp only [onPath, parityHeld, hp, hostPhase] at hpath hpar hdr
  rcases row_cases hr with ⟨hl, rfl⟩ | ⟨hl, e⟩
  · exact h.tick hb hd (by simpa [phaseLength, hp, dummyN] using hl) (by simp [phaseLength, hp])
      (.cycleW _ _) rfl rfl rfl rfl (by simpa [onPath, hp, cycleW_eq] using hpath)
      (by simp [parityHeld, hp, cycleW_eq]) rfl
  · have := next_inj e; subst this
    exact h.of_row hb same Phase.noConfusion hd rfl hdr (.inl rfl) trivial trivial
        (by intro hx; simpa [hp] using hperr hx)

theorem inv_rowBackoff {s t : State} (h : Inv s) (hb : s.busy = true) (hd : s.done = false)
    (hp : s.phase = .backoff) (hr : rowBackoff s = .next t) (same : SameTransfer s t) : Inv t := by
  obtain ⟨ht1, ht4, hpath, hpar, hdr, hperr⟩ := h.inRow hb
  simp only [onPath, parityHeld, hp, hostPhase] at hpath hpar hdr
  rcases row_cases hr with ⟨hl, rfl⟩ | ⟨hl, e⟩
  · exact h.tick hb hd (by simpa [phaseLength, hp, dummyN] using hl) (by simp [phaseLength, hp])
      (.cycleZ _) rfl rfl rfl rfl (by simpa [onPath, hp, cycleZ_eq] using hpath)
      (by simp [parityHeld, hp, cycleZ_eq]) rfl
  · have := next_inj e; subst this
    exact h.of_row hb same Phase.noConfusion hd rfl rfl (.inl rfl) trivial trivial
        (by intro hx; simpa [hp] using hperr hx)

end Sys2Proof.Machine
end

