-- ==== Sys2Proof/Laws/PerInstr.lean ====
section
/-! SUPPORT. The statements made per instruction: decoding the encoding gives the instruction back. -/

namespace Sys2Proof

/-- A well-formed instruction is what its port word decodes to (30_encoding.md R80, R89, R90). -/
def Laws.RoundTrip.Statement (i : Instr) : Prop := i.wf = true → decode (encode i) = .ok i

/-- A request byte decodes to the operation and the address select of its nibble. -/
theorem decode_reqByte (apndp rnw : Bool) (a : Select) (ts : Bool) (v : Data) (c : ClkDelay) :
    decode ⟨.start, [reqByte apndp rnw a], ts, v, c⟩ = .ok (decodeReq4 (reqNibble apndp rnw a) ts v) := by
  simp only [decode, reqByte, (extract_carried _).1, (extract_carried _).2, if_true]

theorem Laws.RoundTrip.dpw (a : Select) (ts : Bool) (v : Data) : Laws.RoundTrip.Statement (.dpw a ts v) := by
  intro _
  obtain ⟨h0, h1, h2⟩ := reqNibble_fields false false a
  simp only [encode, decode_reqByte, decodeReq4, h0, h1, h2]

theorem Laws.RoundTrip.apw (a : Select) (ts : Bool) (v : Data) : Laws.RoundTrip.Statement (.apw a ts v) := by
  intro _
  obtain ⟨h0, h1, h2⟩ := reqNibble_fields true false a
  simp only [encode, decode_reqByte, decodeReq4, h0, h1, h2]

theorem Laws.RoundTrip.dpr (a : Select) (ts : Bool) : Laws.RoundTrip.Statement (.dpr a ts) := by
  intro _
  obtain ⟨h0, h1, h2⟩ := reqNibble_fields false true a
  simp only [encode, decode_reqByte, decodeReq4, h0, h1, h2]

theorem Laws.RoundTrip.apr (a : Select) (ts : Bool) : Laws.RoundTrip.Statement (.apr a ts) := by
  intro _
  obtain ⟨h0, h1, h2⟩ := reqNibble_fields true true a
  simp only [encode, decode_reqByte, decodeReq4, h0, h1, h2]

theorem Laws.RoundTrip.cfg (trn : BitVec 3) (idle : BitVec 8) (dpen : Bool) (c : ClkDelay) :
    Laws.RoundTrip.Statement (.cfg trn idle dpen c) := by
  intro _
  simp only [encode, decode, (extract_carried _).1, if_true]
  rw [cfgWord_bytes, decodeCfgw_cfgWord]

end Sys2Proof
end

