-- ==== Sys2Proof/Laws/Run.lean ====
section
/-! SUPPORT. Running several steps: the first step, then the rest. -/

namespace Sys2Proof.Machine

open Sys2Proof

@[simp] theorem run_zero (s : State) : run 0 s = .next s := rfl

/-- A run of n + 1 steps is one step and a run of n. -/
theorem run_succ (n : Nat) (s : State) : run (n + 1) s = andThen (step s) (run n) := rfl

/-- One step of any machine, by its outcome. -/
theorem run_succ_of_step (M : Host.Core) (n : Nat) (s : M.State)
    (o : Host.Outcome M.State M.Fault M.Refusal) :
    M.step s = o → M.run (n + 1) s =
      match o with
      | .next t => M.run n t
      | .fault r => .fault r
      | .refused r => .refused r := by
  intro h; subst h; rfl

/-- The host's run of this machine is `run`. -/
theorem core_run (n : Nat) (s : State) : Host.Core.run core n s = run n s := by
  induction n generalizing s with
  | zero => rfl
  | succ k ih =>
    rw [run_succ]
    cases hs : step s with
    | next t => exact (run_succ_of_step core k s (.next t) hs).trans (ih t)
    | fault r => exact run_succ_of_step core k s (.fault r) hs
    | refused r => exact run_succ_of_step core k s (.refused r) hs

/-- A run of m + n steps is a run of m and a run of n. -/
theorem run_add (m n : Nat) (s : State) : run (m + n) s = andThen (run m s) (run n) := by
  induction m generalizing s with
  | zero => rw [Nat.zero_add]; rfl
  | succ k ih =>
    rw [Nat.add_right_comm, run_succ, run_succ]
    cases hs : step s with
    | next t => exact ih t
    | fault r => rfl
    | refused r => rfl

/-- A caller silent for n + 1 steps is silent now, and for n steps after any step. -/
theorem quiet_succ {n : Nat} {s : State} (h : quiet (n + 1) s) :
    (currentInputs s).silent = true ∧
      ∀ t : State, t.inputs = s.inputs.tail → t.stepNo = s.stepNo + 1 → quiet n t := by
  refine ⟨by have := h 0 (by omega); rwa [upcoming_zero] at this, fun t hi hn k hk => ?_⟩
  rw [← upcoming_succ k hi hn]
  exact h (k + 1) (by omega)

/-- n steps bring the coming inputs n steps nearer, whatever the caller does. -/
theorem run_upcoming {n : Nat} : ∀ {s t : State}, run n s = .next t →
    ∀ k, upcoming k t = upcoming (n + k) s := by
  induction n with
  | zero => intro s t h k; injection h with h; rw [h, Nat.zero_add]
  | succ n ih =>
    intro s t h k
    obtain ⟨u, hu, h⟩ := andThen_eq_next ((run_succ n s).symm.trans h)
    obtain ⟨hi, hn⟩ := step_inputs hu
    rw [ih h k, Nat.add_right_comm, upcoming_succ _ hi hn]

/-- Every environment meets the assumption of R210 for some T: what is read modulo 2^32 may wrap between
any two steps. -/
theorem monotonicTime_wrapping (s : State) :
    monotonicTime (fun k => 2 ^ 32 * k + (upcoming k s).tsNow.toNat) s := by
  generalize hxs : (fun k => (upcoming k s).tsNow.toNat) = x
  have hv : ∀ k, (upcoming k s).tsNow.toNat = x k := fun k => by rw [← hxs]
  have hx : ∀ k, x k < 2 ^ 32 := fun k => by rw [← hv]; exact (upcoming k s).tsNow.isLt
  refine ⟨fun j k h => ?_, fun k => ?_⟩
  · show 2 ^ 32 * j + _ ≤ 2 ^ 32 * k + _
    rw [hv, hv]
    rcases Nat.eq_or_lt_of_le h with rfl | h
    · exact Nat.le_refl _
    · have := hx j; omega
  · apply BitVec.eq_of_toNat_eq
    rw [BitVec.toNat_ofNat]
    show _ = (2 ^ 32 * k + _) % 2 ^ 32
    rw [hv]
    have := hx k; omega

/-- A caller whose listed inputs are all silent is silent for any number of steps. -/
theorem quiet_of_silent {n : Nat} {s : State} (h : s.inputs.all Inputs.silent = true) : quiet n s := by
  intro k _
  unfold upcoming
  cases hk : s.inputs[k]? with
  | none => rfl
  | some p => exact List.all_eq_true.1 h p (List.mem_of_getElem? hk)

end Sys2Proof.Machine
end

