-- ==== Sys2Proof/Laws/Phases.lean ====
section
/-! SUPPORT. A whole phase of a transfer at once: with a silent caller, the steps of one row of
46_transfers.md R181 are one loop of the sequential view (R188), and the state enters the next phase. -/

namespace Sys2Proof.Machine

open Sys2Proof

/-- s at cycle k of a phase. -/
def atCycle (ph : Phase) (k : Nat) (s : State) : State := { s with phase := ph, cnt := BitVec.ofNat 8 k }

theorem cnt_atCycle {ph : Phase} {k : Nat} {u : State} (h : k < 256) : (atCycle ph k u).cnt.toNat = k := by
  show (BitVec.ofNat 8 k).toNat = k
  rw [BitVec.toNat_ofNat]; omega

/-- The inputs of one step go by: only the inputs, DONE, the marks and the answers change. -/
theorem pass_eq (s : State) :
    pass s = withMarks (openStep (currentInputs s) s).faults (openStep (currentInputs s) s).readBack
        (base s) :=
  clearDone_openStep _ _

theorem pass_silent {s : State} (h : (currentInputs s).silent = true) : pass s = base s := by
  have hr := ((silent_iff _).1 h).2.2.2
  unfold pass openStep; rw [hr, serveReads_nil]; rfl

theorem quiet_now {n : Nat} {s : State} (h : quiet (n + 1) s) : (currentInputs s).silent = true :=
  (quiet_succ h).1

/-- A caller silent for m + n steps is silent for n steps after m. -/
theorem quiet_drop {m n : Nat} {s t : State} (h : quiet (m + n) s) (hi : t.inputs = s.inputs.drop m)
    (hn : t.stepNo = s.stepNo + m) : quiet n t := by
  intro k hk
  have := h (m + k) (by omega)
  unfold upcoming at this ⊢
  rw [hi, hn, List.getElem?_drop]
  rw [Nat.add_assoc]; exact this

/-- Loops of equal bodies are equal. -/
theorem forN_congr {P Q : Nat → State → State} (h : ∀ i u, P i u = Q i u) (n : Nat) (s : State) :
    forN n P s = forN n Q s := by
  induction n with
  | zero => rfl
  | succ k ih => rw [forN_succ, forN_succ, ih, h]

/-- What the per-cycle action of a row keeps. -/
structure Keeps (s t : State) : Prop where
  busy : t.busy = s.busy
  sTrn : t.sTrn = s.sTrn
  sIdle : t.sIdle = s.sIdle
  inputs : t.inputs = s.inputs
  stepNo : t.stepNo = s.stepNo

/-- A loop of n cycles takes the inputs of n steps. -/
theorem forN_inputs (A : Inputs → Nat → State → State) (hA : ∀ p k u, Keeps u (A p k u)) (n : Nat)
    (s : State) :
    let t := forN n (fun i u => A (currentInputs u) i (pass u)) s
    t.inputs = s.inputs.drop n ∧ t.stepNo = s.stepNo + n ∧ t.busy = s.busy ∧ t.sTrn = s.sTrn ∧ t.sIdle = s.sIdle := by
  induction n with
  | zero => simp
  | succ k ih =>
    obtain ⟨h1, h2, h3, h4, h5⟩ := ih
    rw [forN_succ]
    generalize forN k (fun i u => A (currentInputs u) i (pass u)) s = u at *
    have hk := hA (currentInputs u) k (pass u)
    have hp : (pass u).inputs = u.inputs.tail ∧ (pass u).stepNo = u.stepNo + 1 ∧ (pass u).busy = u.busy ∧
        (pass u).sTrn = u.sTrn ∧ (pass u).sIdle = u.sIdle := by
      unfold pass; rw [clearDone_openStep]; exact ⟨rfl, rfl, rfl, rfl, rfl⟩
    refine ⟨?_, ?_, ?_, ?_, ?_⟩
    · rw [hk.inputs, hp.1, h1, List.tail_drop]
    · rw [hk.stepNo, hp.2.1, h2]; omega
    · rw [hk.busy, hp.2.2.1, h3]
    · rw [hk.sTrn, hp.2.2.2.1, h4]
    · rw [hk.sIdle, hp.2.2.2.2, h5]

/-- One row from its first cycle: its steps are a loop of its action, then its exit. -/
theorem run_phase {ph : Phase} {len : Nat} {A : Inputs → Nat → State → State} {E : State → Answer}
    {s : State}
    (hlen : 0 < len) (hA : ∀ p k u, Keeps u (A p k u))
    (hrow : ∀ p k u, k < len → u.sTrn = s.sTrn → u.sIdle = s.sIdle → engineRow p (atCycle ph k u) =
       if k + 1 = len then E (A p k u) else .next (atCycle ph (k + 1) (A p k u)))
    (hb : s.busy = true) (hq : quiet len s) :
    run len (atCycle ph 0 s) = E (forN len (fun i u => A (currentInputs u) i (pass u)) s) := by
  have hstep : ∀ k, k < len → step (atCycle ph k (forN k (fun i u => A (currentInputs u) i (pass u)) s)) =
      if k + 1 = len then E (forN (k + 1) (fun i u => A (currentInputs u) i (pass u)) s)
      else .next (atCycle ph (k + 1) (forN (k + 1) (fun i u => A (currentInputs u) i (pass u)) s)) := by
    intro k hk
    obtain ⟨h1, h2, h3, h4, h5⟩ := forN_inputs A hA k s
    rw [forN_succ]
    generalize forN k (fun i u => A (currentInputs u) i (pass u)) s = u at *
    have hqu : quiet 1 u := quiet_drop (m := k) (n := 1) (fun j hj => hq j (by omega)) h1 h2
    have hs := quiet_now hqu
    have hbu : (atCycle ph k u).busy = true := h3.trans hb
    rw [step_silent (s := atCycle ph k u) hs, if_pos hbu]
    have e : base (atCycle ph k u) = atCycle ph k (pass u) := by rw [pass_silent hs]; rfl
    rw [e]
    have hp : (pass u).sTrn = u.sTrn ∧ (pass u).sIdle = u.sIdle := by
      unfold pass; rw [clearDone_openStep]; exact ⟨rfl, rfl⟩
    exact hrow _ _ _ hk (hp.1.trans h4) (hp.2.trans h5)
  have hrun : ∀ k, k < len → run k (atCycle ph 0 s) = .next
      (atCycle ph k (forN k (fun i u => A (currentInputs u) i (pass u)) s)) := by
    intro k
    induction k with
    | zero => intro _; rfl
    | succ k ih =>
      intro hk
      rw [run_add, ih (by omega), andThen_next, run_succ, hstep k (by omega), if_neg (by omega)]; rfl
  obtain ⟨n, rfl⟩ : ∃ n, len = n + 1 := ⟨len - 1, by omega⟩
  rw [run_add, hrun n (by omega), andThen_next, run_succ, hstep n (by omega), if_pos rfl]
  cases E _ <;> rfl

/-- One cycle of a row at cycle k. -/
theorem row_atCycle {ph : Phase} {len k : Nat} {act : State → State} {exit E : State → Answer}
    {u v : State} (hk : k < len) (h256 : len ≤ 256)
    (ha : act (atCycle ph k u) = atCycle ph k v) (he : exit (atCycle ph k v) = E v) :
    row len act exit (atCycle ph k u) = if k + 1 = len then E v else .next (atCycle ph (k + 1) v) := by
  have hc : (atCycle ph k u).cnt.toNat = k := by
    show (BitVec.ofNat 8 k).toNat = k
    rw [BitVec.toNat_ofNat]; omega
  by_cases hl : k + 1 = len
  · rw [row_last (by rw [hc, hl]), if_pos hl, ha, he]
  · rw [row_tick (by rw [hc]; exact hl), if_neg hl, ha]
    unfold countUp atCycle
    simp only
    congr 2
    apply BitVec.eq_of_toNat_eq
    simp

/-- REQ is the packet phase (R131, R132). -/
theorem run_req {s : State} (hb : s.busy = true) (hq : quiet 8 s) :
    run 8 (atCycle .req 0 s) = .next (atCycle .trn1 0 (packetPhase s)) := by
  rw [run_phase (A := fun _ i u => cycleW (u.pkt.getLsbD i) u)
      (E := fun u => .next (atCycle .trn1 0 (disableOutput u))) (by omega)
      (fun _ _ _ => ⟨rfl, rfl, rfl, rfl, rfl⟩) _ hb hq]
  · unfold packetPhase
    rw [forN_congr]
    intro i u
    unfold stepW
    have : (pass u).pkt = u.pkt := by rw [pass_eq]; rfl
    rw [this]
  · intro p k u hk _ _
    rw [engineRow_req rfl]
    unfold rowReq
    refine row_atCycle (E := fun u => .next (atCycle .trn1 0 (disableOutput u)))
        (v := cycleW (u.pkt.getLsbD k) u) hk (by omega) ?_ ?_
    · rw [cnt_atCycle (by omega)]; rfl
    · rfl

/-- A turnaround row is `Turnaround()` (R140). -/
theorem run_turn {ph : Phase} {E : State → Answer} {s : State}
    (hrow : ∀ p k u, engineRow p (atCycle ph k u) = row u.sTrn.toNat cycleZ E (atCycle ph k u))
    (hE : ∀ k u, E (atCycle ph k u) = E u)
    (ht : 0 < s.sTrn.toNat) (hb : s.busy = true) (hq : quiet s.sTrn.toNat s) :
    run s.sTrn.toNat (atCycle ph 0 s) = E (turnaround s) := by
  rw [run_phase (A := fun _ _ u => cycleZ u) (E := E) ht (fun _ _ _ => ⟨rfl, rfl, rfl, rfl, rfl⟩) _ hb hq]
  · rfl
  · intro p k u hk h1 _
    have hl := s.sTrn.isLt
    rw [hrow, h1]
    exact row_atCycle (v := cycleZ u) hk (by omega) rfl (hE _ _)

/-- TRN1. -/
theorem run_trn1 {s : State} (ht : 0 < s.sTrn.toNat) (hb : s.busy = true) (hq : quiet s.sTrn.toNat s) :
    run s.sTrn.toNat (atCycle .trn1 0 s) = .next (atCycle .ack 0 (turnaround s)) :=
  run_turn (E := fun u => .next (atCycle .ack 0 u)) (fun _ _ _ => rfl) (fun _ _ => rfl) ht hb hq

/-- TRN2R (R161). -/
theorem run_trn2r {s : State} (ht : 0 < s.sTrn.toNat) (hb : s.busy = true) (hq : quiet s.sTrn.toNat s) :
    run s.sTrn.toNat (atCycle .trn2r 0 s) = .next (atCycle .post 0 (enableOutput (turnaround s))) :=
  run_turn (E := fun u => .next (atCycle .post 0 (enableOutput u))) (fun _ _ _ => rfl)
      (fun _ _ => rfl) ht hb hq

/-- TRN2W (R162). -/
theorem run_trn2w {s : State} {v : Data} (hv : s.lWdata = some v) (ht : 0 < s.sTrn.toNat)
    (hb : s.busy = true) (hq : quiet s.sTrn.toNat s) :
    run s.sTrn.toNat (atCycle .trn2w 0 s) = .next
        (atCycle .wdata 0 {enableOutput (turnaround s) with sh := v, par := false}) := by
  rw [run_turn (E := fun u => andThen (loadWriteData (enableOutput u)) fun s => .next (enter .wdata s))
      (fun _ _ _ => rfl) _ ht hb hq]
  · have : (turnaround s).lWdata = s.lWdata := forN_keeps (fun s => s.lWdata) _
      (by intro i s; unfold stepZ; rw [pass_eq]; rfl) _ _
    rw [loadWriteData_eq (s := enableOutput (turnaround s)) (this.trans hv)]; rfl
  · intro k u
    unfold loadWriteData
    show andThen (match u.lWdata with | some v => _ | none => _) _ = andThen
        (match u.lWdata with | some v => _ | none => _) _
    cases u.lWdata <;> rfl

/-- TRNWF (R167, R168). -/
theorem run_trnwf {s : State} (ht : 0 < s.sTrn.toNat) (hb : s.busy = true) (hq : quiet s.sTrn.toNat s) :
    run s.sTrn.toNat (atCycle .trnwf 0 s) = .next
        (if s.sDpen && !s.lRnw then atCycle .dummyw 0 (driveBit false (enableOutput (turnaround s)))
        else atCycle .finish 0 (enableOutput (turnaround s))) := by
  rw [run_turn (E := fun u => let s := enableOutput u
      if s.sDpen && !s.lRnw then .next (enter .dummyw (driveBit false s)) else .next
          (enter .finish s)) (fun _ _ _ => rfl) _ ht hb hq]
  · have h1 : (turnaround s).sDpen = s.sDpen := forN_keeps (fun s => s.sDpen) _
      (by intro i s; unfold stepZ; rw [pass_eq]; rfl) _ _
    have h2 : (turnaround s).lRnw = s.lRnw := forN_keeps (fun s => s.lRnw) _
        (by intro i s; unfold stepZ; rw [pass_eq]; rfl) _ _
    show (if (turnaround s).sDpen && !(turnaround s).lRnw then _ else _) = _
    rw [h1, h2]
    split <;> rfl
  · intro k u
    show (if u.sDpen && !u.lRnw then _ else _) = (if u.sDpen && !u.lRnw then _ else _)
    split <;> rfl

/-- ACK, then the dispatch (R150, R152). -/
theorem run_ack {s : State} (hb : s.busy = true) (hq : quiet 3 s) :
    run 3 (atCycle .ack 0 s) = .next (dispatchAck (ackPhase s)) := by
  rw [run_phase (A := fun p i u => sampleAck i (readBit p) u) (E := fun u => .next (dispatchAck u))
      (by omega) (fun _ _ _ => ⟨rfl, rfl, rfl, rfl, rfl⟩) _ hb hq]
  · rfl
  · intro p k u hk _ _
    rw [engineRow_ack rfl]
    unfold rowAck
    refine row_atCycle (E := fun u => .next (dispatchAck u)) (v := sampleAck k (readBit p) u) hk
        (by omega) ?_ ?_
    · rw [cnt_atCycle (by omega)]; rfl
    · rw [dispatchAck_eq, dispatchAck_eq]; rfl

/-- RDATA (R160). -/
theorem run_rdata {s : State} (hb : s.busy = true) (hq : quiet 32 s) :
    run 32 (atCycle .rdata 0 s) = .next
        (atCycle .rpar 0 (forN 32 (fun i s => sampleData i (lineLevel s) (pass s)) s)) := by
  rw [run_phase (A := fun p i u => sampleData i (readBit p) u) (E := fun u => .next (enter .rpar u))
      (by omega) (fun _ _ _ => ⟨rfl, rfl, rfl, rfl, rfl⟩) _ hb hq]
  · rfl
  · intro p k u hk _ _
    rw [engineRow_rdata rfl]
    unfold rowRdata
    refine row_atCycle hk (by omega) ?_ ?_
    · rw [cnt_atCycle (by omega)]; rfl
    · rfl

/-- RPAR (R160). -/
theorem run_rpar {s : State} (hb : s.busy = true) (hq : quiet 1 s) :
    run 1 (atCycle .rpar 0 s) = .next
        (atCycle .trn2r 0 (checkParity (lineLevel s) (cycleR (lineLevel s) (pass s)))) := by
  rw [run_phase (A := fun p i u => checkParity (readBit p) (cycleR (readBit p) u))
      (E := fun u => .next (enter .trn2r u)) (by omega) (fun _ _ _ => ⟨rfl, rfl, rfl, rfl, rfl⟩) _ hb hq]
  · rfl
  · intro p k u hk _ _
    rw [engineRow_rpar rfl]
    unfold rowRpar
    exact row_atCycle hk (by omega) rfl rfl

/-- WDATA (R162). -/
theorem run_wdata {s : State} (hb : s.busy = true) (hq : quiet 32 s) :
    run 32 (atCycle .wdata 0 s) = .next (atCycle .wpar 0 (forN 32 (fun i s => sendData i (pass s)) s)) := by
  rw [run_phase (A := fun p i u => sendData i u) (E := fun u => .next (enter .wpar u)) (by omega)
      (fun _ _ _ => ⟨rfl, rfl, rfl, rfl, rfl⟩) _ hb hq]
  · rfl
  · intro p k u hk _ _
    rw [engineRow_wdata rfl]
    unfold rowWdata
    refine row_atCycle hk (by omega) ?_ ?_
    · rw [cnt_atCycle (by omega)]; rfl
    · rfl

/-- WPAR (R162). -/
theorem run_wpar {s : State} (hb : s.busy = true) (hq : quiet 1 s) :
    run 1 (atCycle .wpar 0 s) = .next (atCycle .post 0 (stepW s.par s)) := by
  rw [run_phase (A := fun p i u => cycleW u.par u) (E := fun u => .next (enter .post u)) (by omega)
      (fun _ _ _ => ⟨rfl, rfl, rfl, rfl, rfl⟩) _ hb hq]
  · rw [forN_succ, forN_zero, stepW]
    have : (pass s).par = s.par := by rw [pass_eq]; rfl
    rw [this]; rfl
  · intro p k u hk _ _
    rw [engineRow_wpar rfl]
    unfold rowWpar
    exact row_atCycle hk (by omega) rfl rfl

/-- IDLEC (R164). -/
theorem run_idlec {s : State} (hi : 0 < s.sIdle.toNat) (hb : s.busy = true) (hq : quiet s.sIdle.toNat s) :
    run s.sIdle.toNat (atCycle .idlec 0 s) = .next
        (atCycle .finish 0 (forN s.sIdle.toNat (fun _ => stepW false) s)) := by
  rw [run_phase (A := fun p i u => cycleW false u) (E := fun u => .next (enter .finish u)) hi
      (fun _ _ _ => ⟨rfl, rfl, rfl, rfl, rfl⟩) _ hb hq]
  · rfl
  · intro p k u hk _ h2
    rw [engineRow_idlec rfl]
    unfold rowIdlec
    have hl := s.sIdle.isLt
    have hs : (atCycle .idlec k u).sIdle = s.sIdle := h2
    rw [hs]
    exact row_atCycle hk (by omega) rfl rfl

/-- DUMMYR (R166). -/
theorem run_dummyr {s : State} (hb : s.busy = true) (hq : quiet 33 s) :
    run 33 (atCycle .dummyr 0 s) = .next (atCycle .trnwf 0 (forN dummyN (fun _ => stepZ) s)) := by
  rw [run_phase (A := fun p i u => cycleZ u) (E := fun u => .next (enter .trnwf u)) (by omega)
      (fun _ _ _ => ⟨rfl, rfl, rfl, rfl, rfl⟩) _ hb hq]
  · rfl
  · intro p k u hk _ h2
    rw [engineRow_dummyr rfl]
    unfold rowDummyr dummyN
    exact row_atCycle hk (by omega) rfl rfl

/-- DUMMYW (R168). -/
theorem run_dummyw {s : State} (hb : s.busy = true) (hq : quiet 33 s) :
    run 33 (atCycle .dummyw 0 s) = .next (atCycle .finish 0 (forN dummyN (fun _ => stepW false) s)) := by
  rw [run_phase (A := fun p i u => cycleW false u) (E := fun u => .next (enter .finish u)) (by omega)
      (fun _ _ _ => ⟨rfl, rfl, rfl, rfl, rfl⟩) _ hb hq]
  · rfl
  · intro p k u hk _ h2
    rw [engineRow_dummyw rfl]
    unfold rowDummyw dummyN
    exact row_atCycle hk (by omega) rfl rfl

/-- A loop in two parts. -/
theorem forN_add (m n : Nat) (P : State → State) (s : State) : forN (m + n) (fun _ => P) s = forN n
    (fun _ => P) (forN m (fun _ => P) s) := by
  induction n with
  | zero => rfl
  | succ k ih => rw [← Nat.add_assoc, forN_succ, ih, forN_succ]

/-- BACKOFF (R170). -/
theorem run_backoff {s : State} (hb : s.busy = true) (hq : quiet (s.sTrn.toNat + 33) s) :
    run (s.sTrn.toNat + 33) (atCycle .backoff 0 s) = .next
        (atCycle .finish 0 (protocolErrorBackoff s)) := by
  rw [run_phase (A := fun p i u => cycleZ u) (E := fun u => .next (enter .finish (enableOutput u)))
      (by omega) (fun _ _ _ => ⟨rfl, rfl, rfl, rfl, rfl⟩) _ hb hq]
  · show Host.Outcome.next (enter _ (enableOutput (forN (s.sTrn.toNat + 33) (fun _ => stepZ) s))) = _
    rw [forN_add]; rfl
  · intro p k u hk h1 h2
    rw [engineRow_backoff rfl]
    unfold rowBackoff dummyN
    have hl := s.sTrn.isLt
    have hs : (atCycle .backoff k u).sTrn = s.sTrn := h1
    rw [hs]
    exact row_atCycle (E := fun u => .next (enter .finish (enableOutput u))) (v := cycleZ u) hk
        (by omega) rfl rfl

/-- POST (R163, R164). -/
theorem run_post {s : State} (hb : s.busy = true) (hq : quiet 1 s) :
    run 1 (atCycle .post 0 s) = .next (
      let u := captureTime (currentInputs s).tsNow (pass s)
      if s.sIdle = 0#8 then atCycle .finish 0 u else atCycle .idlec 0 (driveBit false u)) := by
  have hs := quiet_now hq
  rw [run_succ, step_silent (s := atCycle .post 0 s) hs, if_pos
      (show (atCycle .post 0 s).busy = true from hb), engineRow_post rfl, pass_silent hs]
  have : base (atCycle .post 0 s) = atCycle .post 0 (base s) := rfl
  rw [this]
  have hc : captureTime (currentInputs s).tsNow (atCycle .post 0 (base s)) = atCycle .post 0
      (captureTime (currentInputs s).tsNow (base s)) := by
    unfold captureTime
    show (if s.lTs then _ else _) = atCycle .post 0 (if s.lTs then _ else _)
    split <;> rfl
  have hi : (captureTime (currentInputs s).tsNow (base s)).sIdle = s.sIdle := by
    unfold captureTime; split <;> rfl
  have e0 : currentInputs (atCycle .post 0 s) = currentInputs s := rfl
  unfold rowPost
  rw [e0, hc]
  generalize captureTime (currentInputs s).tsNow (base s) = u at *
  show andThen (if u.sIdle = 0#8 then _ else _) _ = _
  rw [hi]
  simp only
  split <;> rfl

/-- FINISH (R182). -/
theorem run_finish {s : State} (hb : s.busy = true) (hq : quiet 1 s) :
    run 1 (atCycle .finish 0 s) = .next (complete (pass s)) := by
  have hs := quiet_now hq
  rw [run_succ, step_silent (s := atCycle .finish 0 s) hs, if_pos
      (show (atCycle .finish 0 s).busy = true from hb), engineRow_finish rfl, pass_silent hs]
  rfl
end Sys2Proof.Machine
end

