-- ==== Sys2Proof/Laws/Transfers.lean ====
section
/-! SUPPORT. The parts of a whole transfer (46_transfers.md R188): how many steps each procedure of the
sequential view takes, the acknowledge it samples, and the machine's steps up to the dispatch and after
an OK acknowledge. -/

namespace Sys2Proof.Machine

open Sys2Proof

/-- m steps of a transfer in flight went by: the inputs they took, and what they left alone. -/
structure Ran (m : Nat) (s t : State) : Prop where
  inputs : t.inputs = s.inputs.drop m
  stepNo : t.stepNo = s.stepNo + m
  busy : t.busy = s.busy
  sTrn : t.sTrn = s.sTrn
  sIdle : t.sIdle = s.sIdle
  sDpen : t.sDpen = s.sDpen
  lRnw : t.lRnw = s.lRnw
  lTs : t.lTs = s.lTs
  lWdata : t.lWdata = s.lWdata
  cfg : t.cfg = s.cfg
  pkt : t.pkt = s.pkt

theorem Ran.refl (s : State) : Ran 0 s s := ⟨rfl, rfl, rfl, rfl, rfl, rfl, rfl, rfl, rfl, rfl, rfl⟩

theorem Ran.trans {m n : Nat} {s t u : State} (h : Ran m s t) (k : Ran n t u) : Ran (m + n) s u where
  inputs := by rw [k.inputs, h.inputs, List.drop_drop]
  stepNo := by rw [k.stepNo, h.stepNo, Nat.add_assoc]
  busy := k.busy.trans h.busy
  sTrn := k.sTrn.trans h.sTrn
  sIdle := k.sIdle.trans h.sIdle
  sDpen := k.sDpen.trans h.sDpen
  lRnw := k.lRnw.trans h.lRnw
  lTs := k.lTs.trans h.lTs
  lWdata := k.lWdata.trans h.lWdata
  cfg := k.cfg.trans h.cfg
  pkt := k.pkt.trans h.pkt

/-- What takes no inputs and keeps the transfer costs no step. -/
theorem Ran.still {m : Nat} {s t u : State} (h : Ran m s t) (k : SameTransfer t u) : Ran m s u where
  inputs := k.inputs.trans h.inputs
  stepNo := k.stepNo.trans h.stepNo
  busy := k.busy.trans h.busy
  sTrn := k.sTrn.trans h.sTrn
  sIdle := k.sIdle.trans h.sIdle
  sDpen := k.sDpen.trans h.sDpen
  lRnw := k.lRnw.trans h.lRnw
  lTs := k.lTs.trans h.lTs
  lWdata := k.lWdata.trans h.lWdata
  cfg := k.cfg.trans h.cfg
  pkt := k.pkt.trans h.pkt

theorem Ran.pass (s : State) : Ran 1 s (pass s) := by
  rw [pass_eq]; exact ⟨List.drop_one.symm, rfl, rfl, rfl, rfl, rfl, rfl, rfl, rfl, rfl, rfl⟩

theorem Ran.stepW (b : Bool) (s : State) : Ran 1 s (stepW b s) := (Ran.pass s).still (.cycleW b _)

theorem Ran.stepZ (s : State) : Ran 1 s (stepZ s) := (Ran.pass s).still (.cycleZ _)

/-- A loop of n cycles takes n steps. -/
theorem Ran.forN {P : Nat → State → State} (h : ∀ i u, Ran 1 u (P i u)) (n : Nat) (s : State) :
    Ran n s (forN n P s) := by
  induction n with
  | zero => exact .refl s
  | succ k ih => exact ih.trans (h _ _)

theorem Ran.quiet {m n : Nat} {s t : State} (h : Ran m s t) (hq : quiet (m + n) s) : quiet n t :=
  quiet_drop hq h.inputs h.stepNo

theorem Ran.upcoming {m : Nat} {s t : State} (h : Ran m s t) (k : Nat) : upcoming k t = upcoming (m + k) s := by
  unfold Machine.upcoming; rw [h.inputs, h.stepNo, List.getElem?_drop, Nat.add_assoc]

theorem quiet_le {m n : Nat} {s : State} (h : quiet n s) (hl : m ≤ n) : quiet m s := fun k hk => h k (by omega)

/-! ### The procedures of files 42 to 45 -/

theorem Ran.packetPhase (s : State) : Ran 8 s (packetPhase s) := by
  have h := Ran.forN (P := fun i s => Machine.stepW (s.pkt.getLsbD i) s) (fun i u => .stepW _ u) 8 s
  unfold Machine.packetPhase
  exact h.still (.disableOutput _)

theorem Ran.turnaround (s : State) : Ran s.sTrn.toNat s (turnaround s) := Ran.forN (fun _ u => .stepZ u) _ s

theorem Ran.ackSample (i : Nat) (s : State) : Ran 1 s (sampleAck i (lineLevel s) (Machine.pass s)) :=
  (Ran.pass s).still (.sampleAck _ _ _)

theorem Ran.ackPhase (s : State) : Ran 3 s (ackPhase s) := Ran.forN (fun i u => .ackSample i u) _ s

theorem Ran.readSample (i : Nat) (s : State) : Ran 1 s (sampleData i (lineLevel s) (Machine.pass s)) :=
  (Ran.pass s).still (.sampleData _ _ _)

theorem Ran.writeBit (i : Nat) (s : State) : Ran 1 s (sendData i (Machine.pass s)) :=
  (Ran.pass s).still (.sendData _ _)

theorem Ran.parityCheck (s : State) :
    Ran 1 s (checkParity (lineLevel s) (cycleR (lineLevel s) (Machine.pass s))) :=
  (Ran.pass s).still (.sampleParity _ _)

/-- The acknowledge the machine samples is the three levels it samples (R85, R150). -/
theorem ackPhase_ack (s : State) :
    (ackPhase s).ack = BitVec.ofBool (level 2 s) ++ (BitVec.ofBool (level 1 s) ++ BitVec.ofBool (level 0 s)) := by
  have three : ∀ (a : Ack) (b0 b1 b2 : Bool), putBit (putBit (putBit a 0 b0) 1 b1) 2 b2 =
      BitVec.ofBool b2 ++ (BitVec.ofBool b1 ++ BitVec.ofBool b0) := by decide
  have one : ∀ i u, (sampleAck i (lineLevel u) (pass u)).ack = putBit u.ack i (level 0 u) := by
    intro i u
    show putBit (pass u).ack i (lineLevel u) = _
    rw [show (pass u).ack = u.ack by rw [pass_eq]; rfl]
    unfold lineLevel level readBit; rw [upcoming_zero]
  unfold ackPhase
  rw [forN_succ, forN_succ, forN_succ, forN_zero, one, one, one, three]
  have h1 := Ran.ackSample 0 s
  have h2 := h1.trans (Ran.ackSample 1 _)
  unfold level
  rw [h2.upcoming, h1.upcoming]

/-! ### The machine's steps -/

/-- A run whose first m steps are known. -/
theorem run_from {k m n : Nat} {s t : State} (h : run m s = .next t) (hk : k = m + n) :
    run k s = run n t := by rw [hk, run_add, h]; rfl

/-- From REQ to the dispatch (R131, R140, R150, R152). -/
theorem run_head {s : State} (ht : 0 < s.sTrn.toNat) (hb : s.busy = true)
    (hq : quiet (8 + s.sTrn.toNat + 3) s) :
    let u := ackPhase (turnaround (packetPhase s))
    run (8 + s.sTrn.toNat + 3) (atCycle .req 0 s) = .next (dispatchAck u) ∧
      Ran (8 + s.sTrn.toNat + 3) s u ∧ u.ack = comingAck s := by
  have h1 := Ran.packetPhase s
  have h2 := h1.trans (Ran.turnaround _)
  have h3 := h2.trans (Ran.ackPhase _)
  have e := h1.sTrn
  have ha := ackPhase_ack (turnaround (packetPhase s))
  unfold level at ha
  simp only [h2.upcoming] at ha
  rw [e] at h2 h3 ha
  have hx := run_trn1 (s := packetPhase s) (e ▸ ht) (h1.busy.trans hb) (h1.quiet (quiet_le hq (by rw [e]; omega)))
  rw [e] at hx
  refine ⟨?_, h3, ha⟩
  rw [run_from (run_req hb (quiet_le hq (by omega))) (Nat.add_assoc 8 s.sTrn.toNat 3), run_from hx rfl]
  exact run_ack (h2.busy.trans hb) (h2.quiet hq)

/-- From POST to completion (R163, R164, R182). -/
theorem run_postOk {s : State} (hb : s.busy = true) (hq : quiet (2 + s.sIdle.toNat) s) :
    run (2 + s.sIdle.toNat) (atCycle .post 0 s) = .next (complete (pass (postOk s))) := by
  rw [run_from (run_post hb (quiet_le hq (by omega))) (show _ = 1 + (s.sIdle.toNat + 1) by omega)]
  unfold postOk
  have hc : Ran 1 s (captureTime (currentInputs s).tsNow (pass s)) := (Ran.pass s).still (.captureTime _ _)
  simp only
  generalize captureTime (currentInputs s).tsNow (pass s) = u at hc ⊢
  have hbu := hc.busy.trans hb
  have hqu := hc.quiet (n := s.sIdle.toNat + 1) (quiet_le hq (by omega))
  rw [hc.sIdle]
  by_cases hi : s.sIdle = 0#8
  · rw [if_pos hi, if_pos hi, show s.sIdle.toNat = 0 by rw [hi]; rfl]
    exact run_finish hbu (quiet_le hqu (by omega))
  · have hpos : 0 < s.sIdle.toNat := by
      rcases Nat.eq_zero_or_pos s.sIdle.toNat with h | h
      · exact absurd (BitVec.eq_of_toNat_eq (by simpa using h)) hi
      · exact h
    rw [if_neg hi, if_neg hi]
    have hd := hc.still (.driveBit false _)
    have hb' := hd.busy.trans hb
    have hq' := hd.quiet (n := s.sIdle.toNat + 1) (quiet_le hq (by omega))
    have hs' := hd.sIdle
    generalize driveBit false u = w at hb' hq' hs' ⊢
    have hx := run_idlec (s := w) (hs' ▸ hpos) hb' (hs' ▸ quiet_le hq' (by omega))
    rw [hs'] at hx
    rw [run_from hx rfl]
    have hr := Ran.forN (P := fun _ => Machine.stepW false) (fun _ u => .stepW _ u) s.sIdle.toNat w
    exact run_finish (hr.busy.trans hb') (hr.quiet hq')

end Sys2Proof.Machine
end

