-- ==== Sys2Proof/Tests/Slice0.lean ====
section
/-! SUPPORT. The model's own tests, and for every obligation that has hypotheses a witness that meets
them. Expected values are the spec's (30_encoding.md R84, 41_parity_unit.md, 46_transfers.md, 95_test_vectors.md)
or worked out by hand from its rules. -/

namespace Sys2Proof.Tests

open Sys2Proof Sys2Proof.Machine

/-! ### Helpers -/

/-- The next state of an answer, if it is one. -/
def nextOf (o : Answer) : Option State :=
  match o with
  | .next s => some s
  | .fault _ => none
  | .refused _ => none

/-- One field of the next state of an answer. -/
def after {α : Type} (o : Answer) (f : State → α) : Option α := (nextOf o).map f

/-- The reset state with a list of coming inputs. -/
def driven (ps : List Inputs) : State := { State.reset with inputs := ps }

/-- The reset state with other values in CFG. -/
def configured (trn : BitVec 3) (idle : BitVec 8) (dpen : Bool) (ps : List Inputs) : State :=
  { State.reset with cfg := ⟨trn, idle, dpen, Config.clkDelayReset⟩, inputs := ps }

/-- Steps of a silent caller in which the target drives these levels. -/
def levels (bs : List Bool) : List Inputs := bs.map fun b => { swdioIn := b }

/-- A state in flight: S_TRN = 2, S_IDLE = 3, S_DPEN = 1. -/
def flight (ph : Phase) (k : BitVec 8) (rnw : Bool) (a : Ack) : State :=
  { State.reset with
    busy := true, phase := ph, cnt := k, oe := hostPhase ph, ack := a, lRnw := rnw
    lWdata := if rnw then none else some 0x80000001#32
    pkt := frame (reqNibble false rnw 0#2), sTrn := 2#3, sIdle := 3#8, sDpen := true }

/-! ### Well-formedness: its one check -/

theorem test_wf_refuses_trn_0 : (Instr.cfg 0#3 0#8 false 0#_).wf = false := by decide
theorem test_wf_refuses_trn_5 : (Instr.cfg 5#3 0#8 false 0#_).wf = false := by decide
theorem test_wf_refuses_trn_6 : (Instr.cfg 6#3 255#8 true 0#_).wf = false := by decide
theorem test_wf_refuses_trn_7 : (Instr.cfg 7#3 0#8 false 0#_).wf = false := by decide
theorem test_wf_takes_trn_1_and_4 :
    (Instr.cfg 1#3 0#8 false 0#_).wf = true ∧ (Instr.cfg 4#3 255#8 true 0#_).wf = true := by decide

/-! ### Words written out from the encodings (opcode_table.json) -/

/-- REQ = aa00 with aa = 10. -/
theorem test_decode_dpw : decodeTableWord 8 0b00001000 = some (.dpw 0b10#2 false 0#32) := by decide
/-- REQ = aa01 with aa = 01. -/
theorem test_decode_apw : decodeTableWord 8 0b00000101 = some (.apw 0b01#2 false 0#32) := by decide
/-- REQ = aa10 with aa = 11. -/
theorem test_decode_dpr : decodeTableWord 8 0b00001110 = some (.dpr 0b11#2 false) := by decide
/-- REQ = aa11 with aa = 00. -/
theorem test_decode_apr : decodeTableWord 8 0b00000011 = some (.apr 0b00#2 false) := by decide
/-- tttiiiiiiiid with trn = 010, idle = 00000101, dp = 1. -/
theorem test_decode_cfg : decodeTableWord 16 0b0000_010_00000101_1 = some (.cfg 2#3 5#8 true 0#_) := rfl
/-- tttiiiiiiiid with trn = 100, idle = 11111111, dp = 0. -/
theorem test_decode_cfg_extremes :
    decodeTableWord 16 0b0000_100_11111111_0 = some (.cfg 4#3 255#8 false 0#_) := rfl

theorem test_reject_request_bits : decode ⟨.start, [0x10#8], false, 0#32, 0#_⟩ = .error .bitsAboveRequest := rfl
theorem test_reject_config_bits : decode ⟨.cfgWe, [0#8, 0x10#8], false, 0#32, 0#_⟩ = .error .bitsAboveConfig := rfl
theorem test_reject_length : decode ⟨.cfgWe, [0#8], false, 0#32, 0#_⟩ = .error .wrongLength := rfl
theorem test_reject_no_format : decodeTableWord 24 0 = none := by decide

/-- The rows of opcode_table.json of format REQ4, as mask and value: no two overlap. -/
theorem test_request_rows_disjoint :
    [(0b11#4, 0b00#4), (0b11#4, 0b01#4), (0b11#4, 0b10#4), (0b11#4, 0b11#4)].Pairwise
      (fun x y => ∀ w : Nibble, ¬ (w &&& x.1 = x.2 ∧ w &&& y.1 = y.2)) := by decide

/-! ### One step of each instruction -/

/-- 30_encoding.md R84: DPW 0x8 is packet 0xB1. -/
theorem test_dpw_packet :
    after (exec (.dpw 2#2 false 0xF0#32) State.reset) (fun t => (t.pkt, t.lWdata, t.busy, t.phase)) =
      some (0xB1#8, some 0xF0#32, true, .req) := by decide
/-- R180: a start in flight only marks. -/
theorem test_dpw_busy :
    after (exec (.dpw 2#2 false 0xF0#32) (flight .ack 1#8 true 0#3))
      (fun t => (t.faults.startWhileBusy, t.phase, t.lRnw)) = some (true, .ack, true) := by decide
/-- R84: APW 0x4 is packet 0x8B. -/
theorem test_apw_packet :
    after (exec (.apw 1#2 false 0x50000000#32) State.reset) (fun t => (t.pkt, t.lApndp, t.lRnw)) =
      some (0x8B#8, true, false) := by decide
/-- R184: DPR 0x0 is packet 0xA5; stepped from its opcode-table word. -/
theorem test_dpr_step :
    after (step (State.reset.withFetchWord 8 0b0010)) (fun t => (t.pkt, t.lRnw, t.lWdata, t.trace)) =
      some (0xA5#8, true, none, []) := by decide
/-- R180: the snapshot is CFG's. -/
theorem test_dpr_snapshot :
    after (exec (.dpr 0#2 true) (configured 4#3 255#8 true [])) (fun t => (t.sTrn, t.sIdle, t.sDpen, t.lTs)) =
      some (4#3, 255#8, true, true) := by decide
/-- R186: APR 0x0 is packet 0x87. -/
theorem test_apr_packet :
    after (exec (.apr 0#2 false) State.reset) (fun t => (t.pkt, t.oe, t.dout, t.cnt)) =
      some (0x87#8, true, true, 0#8) := by decide
/-- R27: a legal write. -/
theorem test_cfg_write :
    after (step (State.reset.withFetchWord 16 0b0000_100_00000010_1))
      (fun t => (t.cfg.trn, t.cfg.idle, t.cfg.dpen, t.faults)) =
      some (4#3, 2#8, true, FaultMark.clear) := by decide
/-- R27: an illegal turnaround count leaves CFG unchanged and marks. -/
theorem test_cfg_illegal :
    after (exec (.cfg 5#3 9#8 true 0#_) State.reset) (fun t => (t.cfg.trn, t.cfg.idle, t.faults.cfgIllegal)) =
      some (1#3, 0#8, true) := by decide

/-! ### One step of the engine -/

/-- R150 to R152: the third sample of 0b001 of a read clears PAR and enters RDATA. -/
theorem test_ack_dispatch :
    after (step { flight .ack 2#8 true 0b001#3 with par := true, inputs := levels [false] })
      (fun t => (t.ack, t.phase, t.par, t.trace)) = some (0b001#3, .rdata, false, [.r false]) := by decide
/-- 41_parity_unit.md R122: 0x0BB11477 received with parity 0. -/
theorem test_read_parity :
    after (step { flight .rpar 0#8 true 0b001#3 with
        sh := 0x0BB11477#32, par := parity32 0x0BB11477#32, inputs := levels [false] })
      (fun t => (t.perr, t.phase)) = some (true, .trn2r) := by decide
/-- R182: a read whose parity failed. -/
theorem test_complete_mismatch :
    after (step { flight .finish 0#8 true 0b001#3 with sh := 0x0BB11477#32, perr := true, dout := false })
      (fun t => (t.result, t.rdata, t.done, t.dout)) =
      some (some 0x8#4, some 0x0BB11477#32, true, true) := by decide
/-- R44: what reset leaves. -/
theorem test_reset_outputs :
    outPorts State.reset = ⟨true, true, true, false, false, none, none, none, none⟩ := by decide

/-! ### Witnesses: encodings and functions -/

theorem witness_DecodedWordIsTheEncoding :
    decode ⟨.start, [0x0F#8], true, 7#32, 0#_⟩ = .ok (.apr 3#2 true) ∧
    decode ⟨.cfgWe, [0xFF#8, 0x0F#8], false, 0#32, 0#_⟩ = .ok (.cfg 7#3 255#8 true 0#_) := ⟨rfl, rfl⟩

theorem witness_FrameCheckSeesOddErrors : (0 : Nat) < 32 ∧ (31 : Nat) < 32 ∧ (0 : Nat) ≠ 31 := by decide

theorem witness_AcknowledgeSelectsTheOutcome :
    ackDecode 1#3 = .ok ∧ ackDecode 2#3 = .wait ∧ ackDecode 4#3 = .fault ∧ ackDecode 0#3 = .protocolError ∧
    ackDecode 7#3 = .protocolError ∧ outcome 1#3 true true = .parityMismatch := by decide

theorem witness_ResultCodesAreDistinct :
    outcome 1#3 false true = .ok ∧ outcome 2#3 true false = .wait ∧ outcome 4#3 true false = .fault ∧
    outcome 1#3 true true = .parityMismatch ∧ outcome 0#3 true false = .protocolError ∧
    resultCode (outcome 1#3 false true) 1#3 = resultCode (outcome 1#3 true false) 1#3 := by decide

/-! ### Witnesses: the configuration write and the start -/

theorem witness_ConfigurationWrite :
    (flight .req 0#8 true 0#3).busy = true ∧
    (State.reset.busy = false ∧ ¬ (1 ≤ (0#3).toNat ∧ (0#3).toNat ≤ 4) ∧ ¬ (1 ≤ (5#3).toNat ∧ (5#3).toNat ≤ 4) ∧
      ¬ (1 ≤ (7#3).toNat ∧ (7#3).toNat ≤ 4)) ∧
    (State.reset.busy = false ∧ (1 ≤ (1#3).toNat ∧ (1#3).toNat ≤ 4) ∧ (1 ≤ (4#3).toNat ∧ (4#3).toNat ≤ 4)) ∧
    isTransfer (.dpw 0#2 false 0#32) = true := by decide

theorem witness_ReadStartLatchesTheRequest : State.reset.busy = false := by decide
theorem witness_WriteStartLatchesTheRequest : (configured 4#3 255#8 true []).busy = false := by decide
theorem witness_StartWhileBusyOnlyMarks :
    (flight .finish 0#8 false 1#3).busy = true ∧ isTransfer (.apr 3#2 true) = true := by decide

/-! ### Witnesses: one step -/

theorem witness_StepRunsTheDecodedInstruction :
    decode ⟨.start, [0x02#8], false, 0#32, 0#_⟩ = .ok (.dpr 0#2 false) ∧
    decode ⟨.cfgWe, [0x00#8, 0x02#8], false, 0#32, 0#_⟩ = .ok (.cfg 1#3 0#8 false 0#_) ∧
    State.reset.busy = false ∧ (flight .req 7#8 true 0#3).busy = true := ⟨rfl, rfl, rfl, rfl⟩

theorem witness_StartUsesTheConfigurationWrittenWithIt :
    ∀ trn ∈ [1#3, 4#3, 0#3, 5#3],
      let s := driven [{ cfgWe := true, cfgTrn := trn, start := true }]
      (currentInputs s).rst = false ∧ (currentInputs s).reads = [] ∧ (currentInputs s).cfgWe = true ∧
      (currentInputs s).start = true ∧ s.busy = false ∧
      legalTrn (currentInputs s).cfgTrn = (trn == 1#3 || trn == 4#3) := by decide

/-- The caller drives nothing at all. -/
theorem quiet_reset (n : Nat) : quiet n State.reset := quiet_of_silent rfl

theorem witness_HoldsBetweenTransfers : State.reset.busy = false ∧ quiet (9 + 1) State.reset :=
  ⟨rfl, quiet_reset _⟩

theorem witness_ResetTakesEveryRegister :
    (currentInputs (driven [{ rst := true, start := true, cfgWe := true }])).rst = true ∧
    (currentInputs { flight .wdata 31#8 false 1#3 with inputs := [{ rst := true }] }).rst = true ∧
    ({ FaultMark.clear with readUnwritten := true } : FaultMark).readUnwritten = true := by decide

theorem witness_CallerReadsReturnOrMark :
    ∃ t, step { driven [{ reads := [.tsr, .result] }] with result := some 1#4 } = .next t := ⟨_, rfl⟩

/-! ### Witnesses: the rows -/

theorem inFlight_flight (ph : Phase) (k : BitVec 8) (rnw : Bool) (a : Ack) : inFlight (flight ph k rnw a) :=
  ⟨rfl, rfl⟩

theorem witness_PacketPhaseSendsThePacket :
    (flight .req 0#8 true 0#3).phase = .req ∧ (flight .req 0#8 true 0#3).cnt.toNat < 8 ∧
    (flight .req 7#8 true 0#3).cnt.toNat = 7 := by decide

theorem witness_TurnaroundCycleIsReleased :
    (∀ ph ∈ [Phase.trn1, .trn2r, .trn2w, .trnwf],
      (flight ph 0#8 true 1#3).phase = ph ∧
      (flight ph 0#8 true 1#3).cnt.toNat + 1 < (flight ph 0#8 true 1#3).sTrn.toNat) := by decide

theorem witness_TurnaroundEndsInItsPhase :
    (∀ ph ∈ [Phase.trn1, .trn2r, .trn2w, .trnwf],
      (flight ph 1#8 false 1#3).phase = ph ∧
      (flight ph 1#8 false 1#3).cnt.toNat + 1 = (flight ph 1#8 false 1#3).sTrn.toNat) ∧
    (flight .trn2w 1#8 false 1#3).lWdata = some 0x80000001#32 := by decide

theorem witness_AcknowledgePhaseSamplesAndDispatches :
    (flight .ack 0#8 true 0#3).phase = .ack ∧ (flight .ack 0#8 true 0#3).cnt.toNat < 3 ∧
    (flight .ack 2#8 false 0#3).cnt.toNat < 3 := by decide

theorem witness_ReadDataPhaseSamplesTheWord :
    (flight .rdata 0#8 true 1#3).phase = .rdata ∧ (flight .rdata 0#8 true 1#3).cnt.toNat < 32 ∧
    (flight .rdata 31#8 true 1#3).cnt.toNat < 32 := by decide

theorem witness_ReadParityIsChecked :
    (flight .rpar 0#8 true 1#3).phase = .rpar ∧ (flight .rpar 0#8 true 1#3).cnt = 0#8 := by decide

theorem witness_WriteDataPhaseSendsTheWordAndItsParity :
    ((flight .wdata 0#8 false 1#3).phase = .wdata ∧ (flight .wdata 0#8 false 1#3).cnt.toNat < 32 ∧
      (flight .wdata 31#8 false 1#3).cnt.toNat < 32) ∧
    ((flight .wpar 0#8 false 1#3).phase = .wpar ∧ (flight .wpar 0#8 false 1#3).cnt = 0#8) := by decide

theorem witness_PostCapturesTheTime : (flight .post 0#8 true 1#3).phase = .post := by decide

theorem witness_PaddingIsDrivenLow :
    ((flight .idlec 0#8 true 1#3).phase = .idlec ∧
      (flight .idlec 0#8 true 1#3).cnt.toNat < (flight .idlec 0#8 true 1#3).sIdle.toNat ∧
      (flight .idlec 2#8 true 1#3).cnt.toNat < (flight .idlec 2#8 true 1#3).sIdle.toNat) ∧
    ((flight .dummyw 0#8 false 2#3).phase = .dummyw ∧ (flight .dummyw 0#8 false 2#3).cnt.toNat < 33 ∧
      (flight .dummyw 32#8 false 2#3).cnt.toNat < 33) := by decide

theorem witness_DummyReadAndBackoffAreReleased :
    ((flight .dummyr 0#8 true 4#3).phase = .dummyr ∧ (flight .dummyr 0#8 true 4#3).cnt.toNat < 33 ∧
      (flight .dummyr 32#8 true 4#3).cnt.toNat < 33) ∧
    ((flight .backoff 0#8 true 7#3).phase = .backoff ∧
      (flight .backoff 34#8 true 7#3).cnt.toNat < (flight .backoff 34#8 true 7#3).sTrn.toNat + 33) := by decide

theorem witness_CompletionReportsTheOutcome : (flight .finish 0#8 true 1#3).phase = .finish := by decide

/-! ### Witnesses: whole transfers -/

/-- With t = 1, the target's acknowledge is sampled in the steps 9, 10 and 11 after the start. -/
def answering (a : Ack) : List Inputs :=
  levels (List.replicate 9 true ++ [a.getLsbD 0, a.getLsbD 1, a.getLsbD 2])

/-- The start of a DPR 0x0 with .TS in a system whose target is about to answer a. -/
def startedRead (a : Ack) : State := startTransfer false true 0#2 true none (driven (answering a))

theorem quiet_startedRead (a : Ack) (n : Nat) : quiet n (startedRead a) := quiet_of_silent rfl

theorem witness_StepsPerformTheSequentialView :
    isTransfer (.dpr 0#2 true) = true ∧ (driven (answering 1#3)).busy = false ∧
    legalTrn (driven (answering 1#3)).cfg.trn = true ∧
    exec (.dpr 0#2 true) (driven (answering 1#3)) = .next (startedRead 1#3) ∧
    quiet (transferSteps (startedRead 1#3)) (startedRead 1#3) :=
  ⟨rfl, rfl, rfl, rfl, quiet_startedRead _ _⟩

theorem witness_TransferTakesItsPath :
    isTransfer (.apw 3#2 true 5#32) = true ∧ (configured 4#3 255#8 true []).busy = false ∧
    legalTrn (configured 4#3 255#8 true []).cfg.trn = true ∧ 0 < transferSteps State.reset ∧
    quiet (transferSteps State.reset) State.reset :=
  ⟨rfl, rfl, rfl, by unfold transferSteps; split <;> omega, quiet_reset _⟩

theorem witness_OkReadDeliversTheWord :
    (driven (answering 1#3)).busy = false ∧ legalTrn (driven (answering 1#3)).cfg.trn = true ∧
    exec (.dpr 0#2 true) (driven (answering 1#3)) = .next (startedRead 1#3) ∧
    comingAck (startedRead 1#3) = 0b001#3 ∧ quiet (transferSteps (startedRead 1#3)) (startedRead 1#3) ∧
    (0 : Nat) < 32 ∧ (31 : Nat) < 32 :=
  ⟨rfl, rfl, rfl, by decide, quiet_startedRead _ _, by decide, by decide⟩

theorem witness_OkWriteSendsTheWord :
    (driven (answering 1#3)).busy = false ∧ legalTrn (driven (answering 1#3)).cfg.trn = true ∧
    ∃ t, exec (.apw 1#2 true 5#32) (driven (answering 1#3)) = .next t ∧ comingAck t = 0b001#3 ∧
      quiet (transferSteps t) t :=
  ⟨rfl, rfl, _, rfl, by decide, quiet_of_silent rfl⟩

theorem witness_WaitAndFaultMoveNoData :
    ∀ a ∈ [0b010#3, 0b100#3],
      (driven (answering a)).busy = false ∧ legalTrn (driven (answering a)).cfg.trn = true ∧
      comingAck (startedRead a) = a ∧ (answering a).all Inputs.silent = true := by decide

theorem witness_ProtocolErrorBacksOff :
    ∀ a ∈ [0b000#3, 0b011#3, 0b101#3, 0b110#3, 0b111#3],
      comingAck (startedRead a) = a ∧ comingAck (startedRead a) ≠ 0b001#3 ∧
      comingAck (startedRead a) ≠ 0b010#3 ∧ comingAck (startedRead a) ≠ 0b100#3 ∧
      (answering a).all Inputs.silent = true := by decide

/-- Two different states with one request, one snapshot, one set of sampled bits and one time. -/
theorem witness_ObservationIsDetermined :
    let s := driven (answering 1#3)
    let s' := { driven (answering 1#3) with sh := 9#32, par := true, trace := [.z], tsr := some 1#32 }
    ∃ t t', s ≠ s' ∧ isTransfer (.dpr 0#2 true) = true ∧ s.busy = false ∧ s'.busy = false ∧
      legalTrn s.cfg.trn = true ∧ s'.cfg = s.cfg ∧
      exec (.dpr 0#2 true) s = .next t ∧ exec (.dpr 0#2 true) s' = .next t' ∧
      comingAck t' = comingAck t ∧ comingClass t = .ok ∧ t.lRnw = true ∧ t.lTs = true ∧
      (∀ k, k < 33 → level (11 + s.cfg.trn.toNat + k) t' = level (11 + s.cfg.trn.toNat + k) t) ∧
      (upcoming (44 + 2 * s.cfg.trn.toNat) t').tsNow = (upcoming (44 + 2 * s.cfg.trn.toNat) t).tsNow ∧
      quiet (transferSteps t) t ∧ quiet (transferSteps t) t' :=
  ⟨_, _, fun h => absurd (congrArg State.trace h) (by decide), rfl, rfl, rfl, rfl, rfl, rfl, rfl, rfl,
    by decide, rfl, rfl, fun _ _ => rfl, rfl, quiet_of_silent rfl, quiet_of_silent rfl⟩

/-! ### Witnesses: the invariant and the rules about the whole machine -/

/-- A state in flight meets the invariant: the first cycle of REQ of a read. -/
theorem inv_flight_req : Inv (flight .req 0#8 true 0#3) := by
  constructor <;> simp [flight, State.reset, Cfg.reset, legalTrn, hostPhase, onPath, parityHeld]

/-- So does the capture point of a write. -/
theorem inv_flight_post : Inv (flight .post 0#8 false 1#3) := by
  constructor <;> simp [flight, State.reset, Cfg.reset, legalTrn, hostPhase, onPath, parityHeld, ackDecode]

theorem witness_StepKeepsTheInvariant :
    Inv (flight .req 0#8 true 0#3) ∧ ∃ t, step (flight .req 0#8 true 0#3) = .next t := ⟨inv_flight_req, _, rfl⟩

theorem witness_NothingStopsTheEngine : Inv (flight .post 0#8 false 1#3) := inv_flight_post

theorem witness_CyclesRespectTheDriver :
    Inv (flight .req 0#8 true 0#3) ∧ ∃ t, step (flight .req 0#8 true 0#3) = .next t := ⟨inv_flight_req, _, rfl⟩

theorem witness_FaultMarksAreSticky :
    ∃ t, step { driven [{ rst := true }] with faults := ⟨true, true, true, true, true⟩ } = .next t := ⟨_, rfl⟩

/-- R204: a fault leaves the marks of the other reasons as they are. -/
theorem test_raise_leaves_the_other_marks :
    (raise .cfgIllegal State.reset).faults = ⟨false, false, true, false, false⟩ := by decide

theorem witness_MarksFollowTheCallersDuties :
    (∃ t, step State.reset = .next t ∧ dutiful (currentInputs State.reset) State.reset = true) ∧
    ∃ t, step (driven [{ reads := [.tsr] }]) = .next t ∧
      dutiful (currentInputs (driven [{ reads := [.tsr] }])) (driven [{ reads := [.tsr] }]) = false :=
  ⟨⟨_, rfl, by decide⟩, ⟨_, rfl, by decide⟩⟩

theorem witness_BusyAndDoneFollowTheirRule : ∃ t, step (flight .finish 0#8 true 1#3) = .next t := ⟨_, rfl⟩

theorem witness_TimestampChangesOnlyAtCapture :
    (∃ t, step { flight .post 0#8 false 1#3 with lTs := true } = .next t) ∧
    Inv (flight .post 0#8 false 1#3) ∧ (flight .post 0#8 false 1#3).phase = .post :=
  ⟨⟨_, rfl⟩, inv_flight_post, rfl⟩

theorem witness_OutputsChangeOnlyAtStartAndCompletion :
    (Inv (flight .req 0#8 true 0#3) ∧ (flight .req 0#8 true 0#3).busy = true) ∧
    (∃ t, step (driven [{ start := true }]) = .next t ∧ (driven [{ start := true }]).busy = false ∧
      (currentInputs (driven [{ start := true }])).start = true) ∧
    (∃ t, step (flight .finish 0#8 true 1#3) = .next t ∧ (flight .finish 0#8 true 1#3).busy = true ∧
      (flight .finish 0#8 true 1#3).phase = .finish ∧ (currentInputs (flight .finish 0#8 true 1#3)).rst = false) ∧
    ∃ t, step State.reset = .next t ∧ (currentInputs State.reset).rst = false ∧
      (currentInputs State.reset).start = false ∧ State.reset.busy = false :=
  ⟨⟨inv_flight_req, rfl⟩, ⟨_, rfl, rfl, rfl⟩, ⟨_, rfl, rfl, rfl, rfl⟩, ⟨_, rfl, rfl, rfl, rfl⟩⟩

theorem witness_RequestAndSnapshotHeldInFlight :
    let s := { flight .rdata 5#8 true 1#3 with inputs := [{ start := true, cfgWe := true, cfgTrn := 3#3 }] }
    s.busy = true ∧ (currentInputs s).rst = false ∧ ∃ t, step s = .next t := ⟨rfl, rfl, _, rfl⟩

theorem witness_ConfigurationChangesOnlyByItsWrite :
    (∃ t, step (driven [{ rst := true, cfgWe := true, cfgTrn := 4#3 }]) = .next t) ∧
    (∃ t, step (driven [{ cfgWe := true, cfgTrn := 4#3 }]) = .next t) ∧
    (∃ t, step (driven [{ cfgWe := true, cfgTrn := 5#3 }]) = .next t) ∧
    ∃ t, step { flight .ack 0#8 true 0#3 with inputs := [{ cfgWe := true, cfgTrn := 4#3 }] } = .next t :=
  ⟨⟨_, rfl⟩, ⟨_, rfl⟩, ⟨_, rfl⟩, ⟨_, rfl⟩⟩

/-- A time source whose 32 bits wrap after the coming step (9, then 7), with the step after the parity
cycle of a write with .TS a capture. -/
theorem witness_LaterCapturesAreNotEarlier :
    let s := { flight .wpar 0#8 false 1#3 with lTs := true, inputs := [{ tsNow := 9#32 }, { tsNow := 7#32 }] }
    ∃ T, monotonicTime T s ∧ (∃ u, Machine.run 1 s = .next u ∧ capturing u) ∧
      T 1 - T 0 < 2 ^ 32 ∧ T 0 < 2 ^ 32 :=
  ⟨_, monotonicTime_wrapping _, ⟨_, rfl, rfl, rfl, rfl, rfl⟩, by decide, by decide⟩

theorem witness_LineLevelMattersOnlyWhenSampled :
    State.reset.busy = false ∧ samplePhase (flight .trn1 0#8 true 0#3).phase = false ∧
    ({ rst := true } : Inputs).rst = true := by decide

theorem witness_RequestPortsReadOnlyAtStart :
    (flight .req 0#8 true 0#3).busy = true ∧ ({} : Inputs).start = false ∧ ({ rst := true } : Inputs).rst = true :=
  ⟨rfl, rfl, rfl⟩

theorem witness_CallerErrorLeavesTheTransferAlone :
    let p : Inputs := { start := true, cfgWe := true, reads := [.result] }
    (flight .req 0#8 true 0#3).busy = true ∧ p.rst = false ∧
    ∃ t, step { flight .req 0#8 true 0#3 with
      inputs := [{ p with cfgWe := false, start := false, reads := [] }] } = .next t := ⟨rfl, rfl, _, rfl⟩

theorem witness_PacketBeginsOnlyAtAnAcceptedStart :
    ∃ t, step (driven [{ start := true }]) = .next t ∧ t.phase = .req ∧
      (driven [{ start := true }]).phase ≠ .req := ⟨_, rfl, rfl, by decide⟩

end Sys2Proof.Tests
end

section
/-! PROOFS. The sticky fault marks (00_scope.md R10, 60_exceptions.md R204). -/

namespace Sys2Proof.Machine

open Sys2Proof

/-- Each bit of the mark after a step is the bit before it, or the breach the step finds (R204). -/
theorem step_faults_bits {s t : State} (h : step s = .next t) :
    let p := currentInputs s
    t.faults.startWhileBusy = (s.faults.startWhileBusy || (!p.rst && p.start && s.busy)) ∧
    t.faults.cfgWriteWhileBusy = (s.faults.cfgWriteWhileBusy || (!p.rst && p.cfgWe && s.busy)) ∧
    t.faults.cfgIllegal =
      (s.faults.cfgIllegal || (!p.rst && p.cfgWe && !s.busy && !legalTrn p.cfgTrn)) ∧
    t.faults.readUnwritten = (s.faults.readUnwritten || p.reads.any (fun r => !readable r s)) ∧
    t.faults.resetWhileBusy = (s.faults.resetWhileBusy || (p.rst && s.busy)) := by
  intro p
  obtain ⟨-, hm⟩ := step_marks h
  rw [hm]
  have hread : ∀ b : Bool, (if b then { s.faults with readUnwritten := true } else s.faults) =
      { s.faults with readUnwritten := s.faults.readUnwritten || b } := by
    intro b; cases b <;> simp
  rw [hread]
  cases p.rst <;> simp [p]

/-- Settles O41: `raise` is one record update per reason, and by `step_faults_bits` a step only adds
breaches to the bits it finds. -/
theorem faultMarksAreSticky : Obligations.FaultMarksAreSticky := by
  refine ⟨fun s => ⟨rfl, rfl, rfl, rfl, rfl⟩, fun s t h => ?_⟩
  obtain ⟨hstart, hcfg, hillegal, hread, hreset⟩ := step_faults_bits h
  rw [hstart, hcfg, hillegal, hread, hreset]
  exact ⟨Bool.or_inl, Bool.or_inl, Bool.or_inl, Bool.or_inl, Bool.or_inl⟩

end Sys2Proof.Machine
end

section
/-! PROOFS. The registers of 10_state.md R23 to R33 after the parts of a step: one lemma per register for
what opens a step, a reset, an accepted start and a completion. -/

namespace Sys2Proof.Machine

open Sys2Proof

variable (s : State)

/-! ### What opens a step -/

@[simp] theorem base_cfg : (base s).cfg = s.cfg := rfl
@[simp] theorem base_tsr : (base s).tsr = s.tsr := rfl
@[simp] theorem base_result : (base s).result = s.result := rfl
@[simp] theorem base_ackRaw : (base s).ackRaw = s.ackRaw := rfl
@[simp] theorem base_rdata : (base s).rdata = s.rdata := rfl
@[simp] theorem base_busy : (base s).busy = s.busy := rfl
@[simp] theorem base_phase : (base s).phase = s.phase := rfl
@[simp] theorem base_sh : (base s).sh = s.sh := rfl
@[simp] theorem base_ack : (base s).ack = s.ack := rfl
@[simp] theorem base_perr : (base s).perr = s.perr := rfl
@[simp] theorem base_lRnw : (base s).lRnw = s.lRnw := rfl
@[simp] theorem base_lTs : (base s).lTs = s.lTs := rfl
@[simp] theorem base_done : (base s).done = false := rfl

variable (m : FaultMark) (rb : List ReadValue)

@[simp] theorem withMarks_cfg : (withMarks m rb s).cfg = s.cfg := rfl
@[simp] theorem withMarks_tsr : (withMarks m rb s).tsr = s.tsr := rfl
@[simp] theorem withMarks_result : (withMarks m rb s).result = s.result := rfl
@[simp] theorem withMarks_ackRaw : (withMarks m rb s).ackRaw = s.ackRaw := rfl
@[simp] theorem withMarks_rdata : (withMarks m rb s).rdata = s.rdata := rfl
@[simp] theorem withMarks_busy : (withMarks m rb s).busy = s.busy := rfl
@[simp] theorem withMarks_done : (withMarks m rb s).done = s.done := rfl
@[simp] theorem withMarks_phase : (withMarks m rb s).phase = s.phase := rfl
@[simp] theorem withMarks_sh : (withMarks m rb s).sh = s.sh := rfl
@[simp] theorem withMarks_ack : (withMarks m rb s).ack = s.ack := rfl
@[simp] theorem withMarks_perr : (withMarks m rb s).perr = s.perr := rfl
@[simp] theorem withMarks_lRnw : (withMarks m rb s).lRnw = s.lRnw := rfl
@[simp] theorem withMarks_lTs : (withMarks m rb s).lTs = s.lTs := rfl
@[simp] theorem withMarks_faults : (withMarks m rb s).faults = m := rfl

/-! ### Reset (R44) -/

@[simp] theorem resetEngine_cfg : (resetEngine s).cfg = ⟨1#3, 0#8, false, Config.clkDelayReset⟩ := rfl
@[simp] theorem resetEngine_tsr : (resetEngine s).tsr = none := rfl
@[simp] theorem resetEngine_result : (resetEngine s).result = none := rfl
@[simp] theorem resetEngine_ackRaw : (resetEngine s).ackRaw = none := rfl
@[simp] theorem resetEngine_rdata : (resetEngine s).rdata = none := rfl
@[simp] theorem resetEngine_busy : (resetEngine s).busy = false := rfl
@[simp] theorem resetEngine_done : (resetEngine s).done = false := rfl

/-! ### Completion (46_transfers.md R182) -/

@[simp] theorem complete_cfg : (complete s).cfg = s.cfg := rfl
@[simp] theorem complete_tsr : (complete s).tsr = s.tsr := rfl
@[simp] theorem complete_busy : (complete s).busy = false := rfl
@[simp] theorem complete_done : (complete s).done = true := rfl
@[simp] theorem complete_ackRaw : (complete s).ackRaw = some s.ack := rfl
@[simp] theorem complete_result :
    (complete s).result = some (resultCode (outcome s.ack s.lRnw s.perr) s.ack) := rfl
@[simp] theorem complete_rdata :
    (complete s).rdata = if ackDecode s.ack = .ok ∧ s.lRnw = true then some s.sh else none := rfl

/-! ### An accepted start (R180) -/

section
variable {s} (apndp rnw ts : Bool) (a : Select) (v : Option Data) (h : s.busy = false)
include h

@[simp] theorem startTransfer_cfg : (startTransfer apndp rnw a ts v s).cfg = s.cfg := by
  rw [startTransfer_idle _ _ _ _ _ h]
@[simp] theorem startTransfer_tsr : (startTransfer apndp rnw a ts v s).tsr = s.tsr := by
  rw [startTransfer_idle _ _ _ _ _ h]
@[simp] theorem startTransfer_result : (startTransfer apndp rnw a ts v s).result = none := by
  rw [startTransfer_idle _ _ _ _ _ h]
@[simp] theorem startTransfer_ackRaw : (startTransfer apndp rnw a ts v s).ackRaw = none := by
  rw [startTransfer_idle _ _ _ _ _ h]
@[simp] theorem startTransfer_rdata : (startTransfer apndp rnw a ts v s).rdata = none := by
  rw [startTransfer_idle _ _ _ _ _ h]
@[simp] theorem startTransfer_busy_of_idle : (startTransfer apndp rnw a ts v s).busy = true := by
  rw [startTransfer_idle _ _ _ _ _ h]
@[simp] theorem startTransfer_done : (startTransfer apndp rnw a ts v s).done = false := by
  rw [startTransfer_idle _ _ _ _ _ h]
@[simp] theorem startTransfer_sTrn : (startTransfer apndp rnw a ts v s).sTrn = s.cfg.trn := by
  rw [startTransfer_idle _ _ _ _ _ h]
@[simp] theorem startTransfer_sIdle : (startTransfer apndp rnw a ts v s).sIdle = s.cfg.idle := by
  rw [startTransfer_idle _ _ _ _ _ h]
@[simp] theorem startTransfer_sDpen : (startTransfer apndp rnw a ts v s).sDpen = s.cfg.dpen := by
  rw [startTransfer_idle _ _ _ _ _ h]

end

end Sys2Proof.Machine
end

section
/-! PROOFS. What one step answers, case by case (46_transfers.md R180 to R182, 70_reset_and_hazards.md
R230), and the invariant that every step keeps. -/

namespace Sys2Proof.Machine

open Sys2Proof

/-! ### One step, case by case -/

/-- CFG after the configuration write that p may carry, with no transfer in flight (10_state.md R27). -/
def writtenCfg (p : Inputs) (s : State) : Cfg :=
  if p.cfgWe = true ∧ legalTrn p.cfgTrn = true then ⟨p.cfgTrn, p.cfgIdle, p.cfgDpen, p.cfgClkdly⟩ else s.cfg

/-- The five things that a step can be. -/
inductive StepKind (s t : State) : Prop where
  /-- `rst = 1` (R230). -/
  | reset (rst : (currentInputs s).rst = true) (eq : t = resetEngine (openStep (currentInputs s) s))
  /-- No transfer in flight and no start. -/
  | rest (rst : (currentInputs s).rst = false) (busy : s.busy = false)
      (start : (currentInputs s).start = false) (m : FaultMark) (rb : List ReadValue)
      (eq : t = { withMarks m rb (base s) with cfg := writtenCfg (currentInputs s) s })
  /-- An accepted start, of a request with write data exactly in a write (R180). -/
  | start (rst : (currentInputs s).rst = false) (busy : s.busy = false)
      (start : (currentInputs s).start = true) (m : FaultMark) (rb : List ReadValue)
      (apndp rnw : Bool) (a : Select) (ts : Bool) (v : Option Data) (writeHeld : v.isSome = !rnw)
      (eq : t = startTransfer apndp rnw a ts v
        { withMarks m rb (base s) with cfg := writtenCfg (currentInputs s) s })
  /-- A row of the transfer in flight (R181). -/
  | row (rst : (currentInputs s).rst = false) (busy : s.busy = true) (phase : s.phase ≠ .finish)
      (m : FaultMark) (rb : List ReadValue)
      (eq : engineRow (currentInputs s) (withMarks m rb (base s)) = .next t)
      (same : SameTransfer (withMarks m rb (base s)) t)
  /-- The completion (R182). -/
  | finish (rst : (currentInputs s).rst = false) (busy : s.busy = true) (phase : s.phase = .finish)
      (m : FaultMark) (rb : List ReadValue) (eq : t = complete (withMarks m rb (base s)))

theorem step_kind {s t : State} (h : step s = .next t) : StepKind s t := by
  rcases step_cases h with ⟨hrst, ht⟩ | ⟨hrst, hb, ht⟩ | ⟨hrst, hb, hrow⟩
  · exact .reset hrst ht
  · obtain ⟨c, m, rb, e, hc⟩ := afterCaller_idle (p := currentInputs s) hb
    rw [e, show c = writtenCfg (currentInputs s) s from hc] at ht
    unfold afterStart at ht
    cases hs : (currentInputs s).start with
    | false => exact .rest hrst hb hs m rb (by simpa [hs] using ht)
    | true =>
      rw [hs, if_pos rfl] at ht
      exact .start hrst hb hs m rb _ _ _ _ _ (by cases (currentInputs s).reqRnw <;> rfl) ht
  · rcases engineRow_frame hrow with ⟨hph, same⟩ | ⟨hph, ht⟩
    · exact .row hrst hb hph _ _ hrow same
    · exact .finish hrst hb hph _ _ ht

/-! ### The invariant -/

/-- What a state with no transfer in flight must show for the invariant: a legal CFG, the idle posture
(10_state.md R32), and outputs that agree. -/
theorem Inv.of_idle {s : State} (busy : s.busy = false) (phase : s.phase = .idle)
    (cfgLegal : legalTrn s.cfg.trn = true) (posture : idlePosture s)
    (done : s.done = true → s.result.isSome = true)
    (outputs : s.ackRaw.isSome = s.result.isSome ∧
      (s.rdata.isSome = true → s.ackRaw = some 0b001#3 ∧ (s.result = some 0x1#4 ∨ s.result = some 0x8#4))) :
    Inv s := by
  have still : ¬ s.busy = true := by simp [busy]
  obtain ⟨hclk, hoe, hdout⟩ := posture
  exact {
    cfgLegal := cfgLegal
    clockIsHigh := hclk
    busyIffPhase := iff_of_false still (not_not_intro phase)
    driver := by rw [hoe, phase]; rfl
    idleHigh := fun _ => hdout
    invalidated := fun h => absurd h still
    doneIdle := fun h => ⟨busy, done h⟩
    counted := fun h => absurd h still
    snapshotLegal := fun h => absurd h still
    framed := fun h => absurd h still
    writeHeld := fun h => absurd h still
    path := by simp [onPath, phase]
    parity := by simp [parityHeld, phase]
    perrRead := fun h => absurd h still
    outputs := fun _ => outputs }

/-- A reset leaves the rows of R44 at their values, with no transfer in flight (R231). -/
theorem inv_resetEngine (s : State) : Inv (resetEngine s) :=
  .of_idle rfl rfl rfl ⟨rfl, rfl, rfl⟩ (fun h => Bool.noConfusion h) ⟨rfl, fun h => Bool.noConfusion h⟩

/-- Settles O37: the reset state is what a reset makes of itself. -/
theorem resetStateMeetsTheInvariant : Obligations.ResetStateMeetsTheInvariant :=
  inv_resetEngine State.reset

theorem Inv.of_cfg {s : State} (h : Inv s) (c : Cfg) (hc : legalTrn c.trn = true) :
    Inv { s with cfg := c } :=
  { h with cfgLegal := hc }

/-- A configuration write leaves CFG legal (R23, R27). -/
theorem legalTrn_writtenCfg (p : Inputs) {s : State} (h : legalTrn s.cfg.trn = true) :
    legalTrn (writtenCfg p s).trn = true := by
  unfold writtenCfg
  split
  · next hw => exact hw.2
  · exact h

/-- BUSY = 0 is PHASE = IDLE. -/
theorem Inv.phase_of_idle {s : State} (h : Inv s) (hb : s.busy = false) : s.phase = .idle :=
  Decidable.byContradiction fun hp => by simp [h.busyIffPhase.2 hp] at hb

/-- An accepted start enters REQ with a legal snapshot and the packet of its request (R180). -/
theorem Inv.of_start {s : State} (h : Inv s) (hb : s.busy = false) (apndp rnw : Bool) (a : Select)
    (ts : Bool) (v : Option Data) (hv : v.isSome = !rnw) : Inv (startTransfer apndp rnw a ts v s) := by
  rw [startTransfer_idle _ _ _ _ _ hb]
  exact {
    cfgLegal := h.cfgLegal
    clockIsHigh := h.clockIsHigh
    busyIffPhase := ⟨fun _ => Phase.noConfusion, fun _ => rfl⟩
    driver := by simpa [h.phase_of_idle hb, hostPhase] using h.driver
    idleHigh := fun hx => Bool.noConfusion hx
    invalidated := fun _ => ⟨rfl, rfl, rfl⟩
    doneIdle := fun hx => Bool.noConfusion hx
    counted := fun _ => .inl rfl
    snapshotLegal := fun _ => h.cfgLegal
    framed := fun _ => rfl
    writeHeld := fun _ => hv
    path := trivial
    parity := trivial
    perrRead := fun _ hx => Bool.noConfusion hx
    outputs := fun hx => Bool.noConfusion hx }

/-- Only 0b001 decodes to OK (44_ack_interpreter.md R151). -/
theorem ack_of_ok : ∀ {a : Ack}, ackDecode a = .ok → a = 0b001#3 := by decide

/-- The result code of an OK acknowledge is Ok or ParityMismatch (R88, R183). -/
theorem resultCode_of_ok {a : Ack} (h : ackDecode a = .ok) (rnw perr : Bool) :
    resultCode (outcome a rnw perr) a = 0x1#4 ∨ resultCode (outcome a rnw perr) a = 0x8#4 := by
  unfold outcome
  rw [h]
  cases rnw && perr
  · exact .inl rfl
  · exact .inr rfl

/-- The completion takes the idle posture and writes outputs that agree (R182, R202). -/
theorem Inv.of_complete {s : State} (h : Inv s) (hp : s.phase = .finish) : Inv (complete s) := by
  have hoe : s.oe = true := by rw [h.driver, hp]; rfl
  refine .of_idle rfl rfl h.cfgLegal ⟨h.clockIsHigh, hoe, rfl⟩ (fun _ => rfl) ⟨rfl, fun hd => ?_⟩
  rw [complete_eq] at hd ⊢
  by_cases hok : ackDecode s.ack = .ok ∧ s.lRnw = true
  · exact ⟨congrArg some (ack_of_ok hok.1),
      (resultCode_of_ok hok.1 _ _).imp (congrArg some) (congrArg some)⟩
  · simp [hok] at hd

/-- Every row keeps the invariant (R181). -/
theorem Inv.of_engineRow {p : Inputs} {s t : State} (h : Inv s) (hb : s.busy = true) (hd : s.done = false)
    (hr : engineRow p s = .next t) (same : SameTransfer s t) : Inv t := by
  cases hp : s.phase with
  | idle => exact absurd hp (h.busyIffPhase.1 hb)
  | req => exact inv_rowReq h hb hd hp (engineRow_req hp ▸ hr) same
  | trn1 => exact inv_rowTrn1 h hb hd hp (engineRow_trn1 hp ▸ hr) same
  | ack => exact inv_rowAck h hb hd hp (engineRow_ack hp ▸ hr) same
  | rdata => exact inv_rowRdata h hb hd hp (engineRow_rdata hp ▸ hr) same
  | rpar => exact inv_rowRpar h hb hd hp (engineRow_rpar hp ▸ hr) same
  | trn2r => exact inv_rowTrn2r h hb hd hp (engineRow_trn2r hp ▸ hr) same
  | trn2w => exact inv_rowTrn2w h hb hd hp (engineRow_trn2w hp ▸ hr) same
  | wdata => exact inv_rowWdata h hb hd hp (engineRow_wdata hp ▸ hr) same
  | wpar => exact inv_rowWpar h hb hd hp (engineRow_wpar hp ▸ hr) same
  | post => exact inv_rowPost h hb hd hp (engineRow_post hp ▸ hr) same
  | idlec => exact inv_rowIdlec h hb hd hp (engineRow_idlec hp ▸ hr) same
  | dummyr => exact inv_rowDummyr h hb hd hp (engineRow_dummyr hp ▸ hr) same
  | trnwf => exact inv_rowTrnwf h hb hd hp (engineRow_trnwf hp ▸ hr) same
  | dummyw => exact inv_rowDummyw h hb hd hp (engineRow_dummyw hp ▸ hr) same
  | backoff => exact inv_rowBackoff h hb hd hp (engineRow_backoff hp ▸ hr) same
  | finish => exact next_inj (engineRow_finish hp ▸ hr) ▸ h.of_complete hp

/-- Settles O38: each of the five things that a step can be keeps the invariant; the marks, the answers
to reads and a legal configuration write do not touch it. -/
theorem stepKeepsTheInvariant : Obligations.StepKeepsTheInvariant := by
  intro s t h hstep
  have hrest : ∀ m rb, Inv { withMarks m rb (base s) with cfg := writtenCfg (currentInputs s) s } :=
    fun m rb => (h.of_base m rb).of_cfg _ (legalTrn_writtenCfg _ h.cfgLegal)
  cases step_kind hstep with
  | reset _ ht => exact ht ▸ inv_resetEngine _
  | rest _ _ _ m rb ht => exact ht ▸ hrest m rb
  | start _ hb _ m rb _ _ _ _ _ hv ht => exact ht ▸ (hrest m rb).of_start hb _ _ _ _ _ hv
  | row _ hb _ m rb hr same => exact (h.of_base m rb).of_engineRow hb rfl hr same
  | finish _ _ hp m rb ht => exact ht ▸ (h.of_base m rb).of_complete hp

end Sys2Proof.Machine
end

section
/-! PROOFS. When each register of 10_state.md changes, from the five things that a step can be
(`step_kind`), and what the caller's reads return. -/

namespace Sys2Proof.Machine

open Sys2Proof

/-- Settles O18: the reads of a step and the mark they raise are `step_marks` and `step_faults_bits`. -/
theorem callerReadsReturnOrMark : Obligations.CallerReadsReturnOrMark := by
  intro s t h
  obtain ⟨hread, -⟩ := step_marks h
  obtain ⟨-, -, -, hmark, -⟩ := step_faults_bits h
  exact ⟨hread, hmark⟩

/-- Settles O43: a reset, a step at rest, a start, a row and a completion, each with its BUSY and DONE. -/
theorem busyAndDoneFollowTheirRule : Obligations.BusyAndDoneFollowTheirRule := by
  refine ⟨⟨rfl, rfl⟩, fun s t h => ?_⟩
  cases step_kind h with
  | reset hr ht => simp [ht, hr]
  | rest hr hb hs m rb ht => simp [ht, hr, hb, hs]
  | start hr hb hs m rb _ _ _ _ _ _ ht => simp [ht, hr, hb, hs]
  | row hr hb hp m rb _ same => simp [same.busy, same.done, hr, hb, hp]
  | finish hr hb hp m rb ht => simp [ht, hr, hb, hp]

/-- Settles O44: a reset clears TSR, POST writes it (`engineRow_effect`), and everything else leaves it;
that POST has an OK acknowledge is the invariant's path. -/
theorem timestampChangesOnlyAtCapture : Obligations.TimestampChangesOnlyAtCapture := by
  refine ⟨rfl, fun s t h => ?_, fun s h hp => ?_⟩
  · cases step_kind h with
    | reset hr ht => simp [ht, hr]
    | rest hr hb _ m rb ht => simp [ht, hr, hb]
    | start hr hb _ m rb _ _ _ _ _ _ ht => simp [ht, hr, hb]
    | row hr hb _ m rb hrow _ =>
      have htsr : t.tsr = if s.phase = .post ∧ s.lTs = true then some (currentInputs s).tsNow else s.tsr :=
        (engineRow_effect hrow).tsr
      simp [htsr, hr, hb]
    | finish hr _ hp m rb ht => simp [ht, hr, hp]
  · have hpath := h.path
    rwa [onPath, hp] at hpath

/-- Settles O45: a reset and a start clear the three outputs, the completion writes them, and a step at
rest and a row leave them. -/
theorem outputsChangeOnlyAtStartAndCompletion : Obligations.OutputsChangeOnlyAtStartAndCompletion := by
  refine ⟨⟨rfl, rfl, rfl⟩, fun s h => h.invalidated, fun s t h => ?_⟩
  cases step_kind h with
  | reset hr ht => simp [ht, hr]
  | rest hr hb hs m rb ht => simp [ht, hr, hb, hs]
  | start hr hb hs m rb _ _ _ _ _ _ ht => simp [ht, hr, hb, hs]
  | row hr hb hp m rb _ same => simp [same.result, same.ackRaw, same.rdata, hr, hb, hp]
  | finish hr hb hp m rb ht =>
    refine ⟨by simp [hr, hb], fun _ => ?_, fun _ hc => absurd ⟨hr, hb, hp⟩ hc⟩
    rw [ht]
    exact ⟨rfl, rfl, rfl⟩

/-- Settles O46: in flight a step is a row or the completion, and neither writes the request, the
snapshot or CFG. -/
theorem requestAndSnapshotHeldInFlight : Obligations.RequestAndSnapshotHeldInFlight := by
  intro s t hbusy hrst h
  cases step_kind h with
  | reset hr _ => exact absurd hr (by simp [hrst])
  | rest _ hb => exact absurd hb (by simp [hbusy])
  | start _ hb => exact absurd hb (by simp [hbusy])
  | row _ _ _ m rb _ same =>
    exact ⟨same.cfg, same.lApndp, same.lRnw, same.lA, same.lTs, same.lWdata, same.sTrn, same.sIdle,
      same.sDpen, same.pkt⟩
  | finish _ _ _ m rb ht => subst ht; exact ⟨rfl, rfl, rfl, rfl, rfl, rfl, rfl, rfl, rfl, rfl⟩

/-- Settles O51: CFG is written by a reset and, with no transfer in flight, by the configuration write
(`writtenCfg`); a start, a row and the completion keep it. -/
theorem configurationChangesOnlyByItsWrite : Obligations.ConfigurationChangesOnlyByItsWrite := by
  intro s t h p
  cases step_kind h with
  | reset hr ht => simp [p, ht, hr]
  | rest hr hb _ m rb ht => simp [p, ht, hr, hb, writtenCfg, legalTrn_iff]
  | start hr hb _ m rb _ _ _ _ _ _ ht => simp [p, ht, hr, hb, writtenCfg, legalTrn_iff]
  | row hr hb _ m rb _ same => simp [p, same.cfg, hr, hb]
  | finish hr hb _ m rb ht => simp [p, ht, hr, hb]

/-! ### The configuration write and reset -/

/-- Settles O10: the three branches of `writeConfig`; the start of a transfer snapshots CFG. -/
theorem configurationWrite : Obligations.ConfigurationWrite := by
  intro s trn idle dpen clkdly
  simp only [exec_cfg]
  refine ⟨fun hb => ?_, fun hb hill => ?_, fun hb hleg => ⟨?_, fun i hi => ?_⟩⟩
  · rw [writeConfig_busy _ hb]; rfl
  · rw [writeConfig_illegal hb (by simpa [legalTrn] using hill)]; rfl
  · rw [writeConfig_legal hb ((legalTrn_iff _).2 hleg)]
  · obtain ⟨apndp, rnw, a, ts, v, -, he⟩ := exec_transfer hi
    exact ⟨_, he _, startTransfer_sTrn _ _ _ _ _ hb, startTransfer_sIdle _ _ _ _ _ hb,
      startTransfer_sDpen _ _ _ _ _ hb⟩

/-- A reset gives every row of R44 its value. -/
theorem hasResetValues_resetEngine (s : State) : hasResetValues (resetEngine s) :=
  ⟨rfl, rfl, rfl, rfl, rfl, rfl, rfl, rfl, rfl, rfl, rfl⟩

/-- Settles O17: the reset state is a reset of itself, and a step with `rst = 1` is a reset whatever else
is driven (`step_reset`). -/
theorem resetTakesEveryRegister : Obligations.ResetTakesEveryRegister := by
  refine ⟨hasResetValues_resetEngine State.reset, rfl, fun s hrst => ?_⟩
  have hstep := step_reset hrst
  obtain ⟨hstart, hcfg, hillegal, hread, hreset⟩ := step_faults_bits hstep
  refine ⟨_, hstep, hasResetValues_resetEngine _, ?_, ?_, ?_, ?_, ?_, fun hm => ?_⟩
  · rw [openStep_eq]; rfl
  · rw [hreset, hrst, Bool.true_and]
  · simpa [hrst] using hstart
  · simpa [hrst] using hcfg
  · simpa [hrst] using hillegal
  · rw [hread, hm, Bool.true_or]

end Sys2Proof.Machine
end

section
/-! PROOFS. What a step in flight does not depend on: the level on the line outside the sampling phases
(10_state.md R22), and what the caller drives (46_transfers.md R180, 60_exceptions.md R203). -/

namespace Sys2Proof.Machine

open Sys2Proof

/-- The state in which p is what the outside drives in the coming step, and ps after it. -/
def facing (p : Inputs) (ps : List Inputs) (s : State) : State := { s with inputs := p :: ps }

@[simp] theorem currentInputs_facing (p : Inputs) (ps : List Inputs) (s : State) :
    currentInputs (facing p ps s) = p := rfl
@[simp] theorem facing_busy (p : Inputs) (ps : List Inputs) (s : State) : (facing p ps s).busy = s.busy := rfl
@[simp] theorem facing_faults (p : Inputs) (ps : List Inputs) (s : State) :
    (facing p ps s).faults = s.faults := rfl

/-- A step on inputs p: a reset, the row of a transfer in flight, or the caller's part alone. -/
theorem step_facing (p : Inputs) (ps : List Inputs) (s : State) :
    step (facing p ps s) =
      if p.rst then .next (resetEngine (openStep p (facing p ps s)))
      else if s.busy then engineRow p (afterCaller p (facing p ps s))
      else .next (afterCaller p (facing p ps s)) :=
  stepOn_eq p (facing p ps s)

/-- The level on the line reaches a row only in the sampling phases (40_bus_primitives.md R103). -/
theorem engineRow_swdioIn {s : State} (h : samplePhase s.phase = false) (p : Inputs) (b : Bool) :
    engineRow { p with swdioIn := b } s = engineRow p s := by
  unfold engineRow
  cases hp : s.phase
  case ack | rdata | rpar => simp [hp, samplePhase] at h
  all_goals rfl

/-- Settles O47: reset and the caller's part do not read the line, and outside the sampling phases the
row does not either (`engineRow_swdioIn`). -/
theorem lineLevelMattersOnlyWhenSampled : Obligations.LineLevelMattersOnlyWhenSampled := by
  intro s p ps b h
  have hopen : openStep { p with swdioIn := b } (facing { p with swdioIn := b } ps s) =
      openStep p (facing p ps s) := rfl
  have hcaller : afterCaller { p with swdioIn := b } (facing { p with swdioIn := b } ps s) =
      afterCaller p (facing p ps s) := rfl
  change step (facing _ ps s) = step (facing p ps s)
  rw [step_facing, step_facing, hopen, hcaller]
  change (if p.rst then _ else _) = _
  cases hr : p.rst with
  | true => rfl
  | false =>
    cases hb : s.busy with
    | false => rfl
    | true =>
      have hs : samplePhase s.phase = false := by simpa [hr, hb] using h
      have hph : (afterCaller p (facing p ps s)).phase = s.phase := by
        rw [afterCaller_busy (s := facing p ps s) hb]; rfl
      exact engineRow_swdioIn (hph ▸ hs) p b

/-- In flight, a step is the row on the state with the inputs taken, but for the marks and the answers
to reads (R203). -/
theorem step_facing_busy {p : Inputs} {ps : List Inputs} {s : State} (hb : s.busy = true)
    (hr : p.rst = false) :
    ∃ m rb, step (facing p ps s) =
      andThen (engineRow p (base (facing p ps s))) fun t => .next (withMarks m rb t) := by
  refine ⟨(afterCaller p (facing p ps s)).faults, (afterCaller p (facing p ps s)).readBack, ?_⟩
  rw [step_facing, hr, hb, ← engineRow_withMarks, ← afterCaller_busy (s := facing p ps s) hb]
  rfl

/-- Settles O49: both steps are the same row (`step_facing_busy`), which reads neither strobe; the marks
of the strobes are `step_faults_bits`. -/
theorem callerErrorLeavesTheTransferAlone : Obligations.CallerErrorLeavesTheTransferAlone := by
  intro s t p ps hb hr h
  obtain ⟨m, rb, hstep⟩ := step_facing_busy (p := p) (ps := ps) hb hr
  obtain ⟨m', rb', hsilent⟩ := step_facing_busy (ps := ps) hb
    (p := { p with cfgWe := false, start := false, reads := [] }) hr
  obtain ⟨u, hu, ht⟩ := andThen_eq_next (hsilent.symm.trans h)
  have hrow : engineRow p (base (facing p ps s)) = .next u := hu
  rw [hrow, andThen_next] at hstep
  obtain ⟨hstart, hcfg, hillegal, -, hreset⟩ := step_faults_bits hstep
  refine ⟨m, rb, ?_, by simpa [hr, hb] using hstart, by simpa [hr, hb] using hcfg,
    by simpa [hb] using hillegal, by simpa [hr] using hreset⟩
  rw [next_inj ht]
  exact hstep

end Sys2Proof.Machine
end

section
/-! PROOFS. The request ports and the packet: what a step that accepts no start makes of the request ports
(20_memory.md R71), and which steps enter REQ (20_memory.md R68). -/

namespace Sys2Proof.Machine

open Sys2Proof

/-- p with another request and other write data on the ports. -/
def withRequest (apndp rnw : Bool) (a : Select) (ts : Bool) (v : Data) (p : Inputs) : Inputs :=
  { p with reqApndp := apndp, reqRnw := rnw, reqA := a, reqTs := ts, wdata := v }

/-- Neither a configuration write nor what opens a step touches BUSY. -/
theorem afterCfg_open_busy (p : Inputs) (s : State) :
    (afterCfg p (clearDone (openStep p s))).busy = s.busy := by
  rw [afterCfg_eq, clearDone_openStep]; rfl

/-- A start that is not accepted is its mark alone (46_transfers.md R180). -/
theorem afterStart_of_not_accepted {p : Inputs} {s : State} (h : s.busy = true ∨ p.start = false) :
    afterStart p s = if p.start then raise .startWhileBusy s else s := by
  unfold afterStart
  rcases h with hb | hs
  · rw [startTransfer_busy _ _ _ _ _ hb]
  · simp [hs]

/-- What opens a step takes the inputs, whichever they are. -/
theorem openStep_facing (q p p' : Inputs) (ps : List Inputs) (s : State) :
    openStep q (facing p' ps s) = openStep q (facing p ps s) := rfl

section
variable (apndp rnw : Bool) (a : Select) (ts : Bool) (v : Data) (p : Inputs)

/-- The reads do not look at the request ports (10_state.md R43). -/
theorem openStep_withRequest (s : State) :
    openStep (withRequest apndp rnw a ts v p) s = openStep p s := rfl

/-- No row reads the request ports (R181). -/
theorem engineRow_withRequest (s : State) :
    engineRow (withRequest apndp rnw a ts v p) s = engineRow p s := rfl

/-- Without an accepted start, the caller's part of a step does not read the request ports. -/
theorem afterCaller_withRequest {s : State} (h : s.busy = true ∨ p.start = false) :
    afterCaller (withRequest apndp rnw a ts v p) s = afterCaller p s := by
  have refused : (afterCfg p (clearDone (openStep p s))).busy = true ∨ p.start = false := by
    rwa [afterCfg_open_busy]
  calc afterCaller (withRequest apndp rnw a ts v p) s
      = afterStart (withRequest apndp rnw a ts v p) (afterCfg p (clearDone (openStep p s))) := rfl
    _ = if p.start then raise .startWhileBusy (afterCfg p (clearDone (openStep p s)))
          else afterCfg p (clearDone (openStep p s)) := afterStart_of_not_accepted refused
    _ = afterCaller p s := (afterStart_of_not_accepted refused).symm

end

/-- Settles O48: a reset and the row do not read the request ports, and the caller's part reads them only
in an accepted start (`afterCaller_withRequest`). -/
theorem requestPortsReadOnlyAtStart : Obligations.RequestPortsReadOnlyAtStart := by
  intro s p ps apndp rnw ts a v h
  have caller : p.rst = false →
      afterCaller (withRequest apndp rnw a ts v p) (facing (withRequest apndp rnw a ts v p) ps s) =
        afterCaller p (facing p ps s) := fun hr =>
    afterCaller_withRequest _ _ _ _ _ _ (s := facing p ps s) (by simpa [hr] using h)
  change step (facing (withRequest apndp rnw a ts v p) ps s) = step (facing p ps s)
  rw [step_facing, step_facing, openStep_withRequest, openStep_facing p p,
    engineRow_withRequest]
  change (if p.rst then _ else _) = _
  cases hr : p.rst with
  | true => rfl
  | false => rw [caller hr]

/-- Settles O50: of the five things that a step can be, a reset and the completion end in IDLE, a step at
rest keeps the phase, and no row enters REQ (`engineRow_effect`); the accepted start is left. -/
theorem packetBeginsOnlyAtAnAcceptedStart : Obligations.PacketBeginsOnlyAtAnAcceptedStart := by
  intro s t h hreq hne
  cases step_kind h with
  | reset _ ht => subst ht; exact Phase.noConfusion hreq
  | rest _ _ _ _ _ ht => subst ht; exact absurd hreq hne
  | start hr hb hs => exact ⟨hb, hs, hr⟩
  | row _ _ _ _ _ hrow => exact absurd ((engineRow_effect hrow).entry hreq) hne
  | finish _ _ _ _ _ ht => subst ht; exact Phase.noConfusion hreq

end Sys2Proof.Machine
end

section
/-! PROOFS. The encodings (30_encoding.md R80, R82, R84, R89, R90; opcode_table.json): the decoder and the
encoder undo each other, and the layouts of the request nibble and its packet. -/

namespace Sys2Proof

open Sys2Proof.Machine

/-! ### What the decoder reads from an encoded word -/

/-- The byte that carries a nibble decodes to the nibble's request (R84). -/
theorem decode_nibble (req : Nibble) (ts : Bool) (v : Data) (c : ClkDelay) :
    decode ⟨.start, [0#4 ++ req], ts, v, c⟩ = .ok (decodeReq4 req ts v) := by
  obtain ⟨high, low⟩ := extract_carried req
  simp only [decode, high, low, if_true]

/-- The two bytes of a configuration word decode to the word's fields (R89). -/
theorem decode_cfgBytes (w : BitVec 12) (ts : Bool) (v : Data) (c : ClkDelay) :
    decode ⟨.cfgWe, [w.extractLsb' 0 8, 0#4 ++ w.extractLsb' 8 4], ts, v, c⟩ = .ok (decodeCfgw w c) := by
  simp only [decode, (extract_carried _).1, if_true]
  rw [cfgWord_bytes]

/-- Settles O1: the four requests are the round trips of `Laws.RoundTrip`, and the configuration write
needs no legal turnaround count to come back (log 22). -/
theorem decodeEncodeRoundTrip : Obligations.DecodeEncodeRoundTrip := by
  intro i
  cases i with
  | dpw a ts v => exact Laws.RoundTrip.dpw a ts v rfl
  | apw a ts v => exact Laws.RoundTrip.apw a ts v rfl
  | dpr a ts => exact Laws.RoundTrip.dpr a ts rfl
  | apr a ts => exact Laws.RoundTrip.apr a ts rfl
  | cfg trn idle dpen c =>
    calc decode (encode (.cfg trn idle dpen c))
        = .ok (decodeCfgw (cfgWord trn idle dpen) c) := decode_cfgBytes _ _ _ _
      _ = .ok (.cfg trn idle dpen c) := by rw [decodeCfgw_cfgWord]

/-! ### What the encoder makes of a decoded word -/

/-- The two shapes of a word that decodes: a request byte and the two bytes of a configuration word, each
with its high nibble clear. -/
theorem decode_eq_ok {p : PortWord} {i : Instr} (h : decode p = .ok i) :
    (∃ b : Byte, p.strobe = .start ∧ p.word = [b] ∧ b.extractLsb' 4 4 = 0#4 ∧
      i = decodeReq4 (b.extractLsb' 0 4) p.ts p.wdata) ∨
    (∃ lo hi : Byte, p.strobe = .cfgWe ∧ p.word = [lo, hi] ∧ hi.extractLsb' 4 4 = 0#4 ∧
      i = decodeCfgw (hi.extractLsb' 0 4 ++ lo) p.clkdly) := by
  obtain ⟨strobe, word, ts, v, c⟩ := p
  unfold decode at h
  split at h
  · next b hs hw =>
    split at h
    · next high => injection h with h; exact .inl ⟨b, hs, hw, high, h.symm⟩
    · cases h
  · next lo hi hs hw =>
    split at h
    · next high => injection h with h; exact .inr ⟨lo, hi, hs, hw, high, h.symm⟩
    · cases h
  all_goals cases h

/-- A byte with a clear high nibble is its low nibble carried. -/
theorem carried_of_high_clear : ∀ b : Byte, b.extractLsb' 4 4 = 0#4 → 0#4 ++ b.extractLsb' 0 4 = b := by
  decide

/-- A nibble is its fields put together again (R80). -/
theorem reqNibble_of_fields : ∀ r : Nibble,
    reqNibble (r.getLsbD 0) (r.getLsbD 1) (r.extractLsb' 2 2) = r := by decide

/-- The encoding of a request is one byte that carries its nibble (R80, R90). -/
theorem encode_decodeReq4 (r : Nibble) (ts : Bool) (v : Data) :
    (encode (decodeReq4 r ts v)).strobe = .start ∧ (encode (decodeReq4 r ts v)).word = [0#4 ++ r] := by
  rw [← reqNibble_of_fields r]
  generalize r.getLsbD 0 = apndp, r.getLsbD 1 = rnw, r.extractLsb' 2 2 = a
  obtain ⟨h0, h1, h2⟩ := reqNibble_fields apndp rnw a
  simp only [decodeReq4, h0, h1, h2]
  cases rnw <;> cases apndp <;> exact ⟨rfl, rfl⟩

/-- A configuration word is its fields put together again (opcode_table.json, tttiiiiiiiid). -/
theorem cfgWord_of_fields (w : BitVec 12) :
    cfgWord (w.extractLsb' 9 3) (w.extractLsb' 1 8) (w.getLsbD 0) = w := by
  apply BitVec.eq_of_getLsbD_eq
  intro k hk
  rw [getLsbD_cfgWord]
  split
  · next h0 => rw [h0]
  · split
    · next h0 h9 => simp [show k - 1 < 8 by omega, show 1 + (k - 1) = k by omega]
    · next h0 h9 => simp [show k - 9 < 3 by omega, show 9 + (k - 9) = k by omega]

/-- The encoding of a configuration write is the two bytes of its word (R89). -/
theorem encode_decodeCfgw (w : BitVec 12) (c : ClkDelay) :
    (encode (decodeCfgw w c)).strobe = .cfgWe ∧
      (encode (decodeCfgw w c)).word = [w.extractLsb' 0 8, 0#4 ++ w.extractLsb' 8 4] := by
  refine ⟨rfl, ?_⟩
  simp only [decodeCfgw, encode, cfgWord_of_fields]

/-- A word put together from a nibble and a byte is taken apart into them. -/
theorem extract_nibble_byte (n : Nibble) (lo : Byte) :
    (n ++ lo : BitVec (4 + 8)).extractLsb' 0 8 = lo ∧ (n ++ lo : BitVec (4 + 8)).extractLsb' 8 4 = n :=
  ⟨BitVec.extractLsb'_append_eq_right, BitVec.extractLsb'_append_eq_left⟩

/-- Settles O2: of either shape (`decode_eq_ok`), the encoder gives the bytes back, as their high nibble is
clear. -/
theorem decodedWordIsTheEncoding : Obligations.DecodedWordIsTheEncoding := by
  intro p i h
  rcases decode_eq_ok h with ⟨b, hs, hw, high, rfl⟩ | ⟨lo, hi, hs, hw, high, rfl⟩
  · obtain ⟨es, ew⟩ := encode_decodeReq4 (b.extractLsb' 0 4) p.ts p.wdata
    exact ⟨es.trans hs.symm, by rw [ew, hw, carried_of_high_clear b high]⟩
  · obtain ⟨es, ew⟩ := encode_decodeCfgw (hi.extractLsb' 0 4 ++ lo) p.clkdly
    obtain ⟨elo, ehi⟩ := extract_nibble_byte (hi.extractLsb' 0 4) lo
    exact ⟨es.trans hs.symm, by rw [ew, hw, elo, ehi, carried_of_high_clear hi high]⟩

/-! ### The opcode table and the layouts -/

/-- Settles O3: the four request bytes carry their nibble, and the two configuration bytes their word. -/
theorem opcodeTableWordsDecode : Obligations.OpcodeTableWordsDecode := by
  intro ts v c
  exact ⟨decode_nibble 0b1000#4 ts v c, decode_nibble 0b0101#4 ts v c, decode_nibble 0b1110#4 ts v c,
    decode_nibble 0b0011#4 ts v c, decode_cfgBytes (cfgWord 2#3 5#8 true) ts v c⟩

/-- REQ[1:0] selects the operation (R90). -/
theorem decodeReq4_eq (req : Nibble) (ts : Bool) (v : Data) :
    decodeReq4 req ts v =
      (let a := req.extractLsb' 2 2
       if req.extractLsb' 0 2 = 0b00#2 then .dpw a ts v
       else if req.extractLsb' 0 2 = 0b01#2 then .apw a ts v
       else if req.extractLsb' 0 2 = 0b10#2 then .dpr a ts
       else .apr a ts) := by
  have select : ∀ r : Nibble,
      r.extractLsb' 0 2 = BitVec.ofBool (r.getLsbD 1) ++ BitVec.ofBool (r.getLsbD 0) := by decide
  unfold decodeReq4
  rw [select req]
  cases req.getLsbD 1 <;> cases req.getLsbD 0 <;> rfl

/-- The map of R84, nibble by nibble. -/
theorem frame_map : ∀ req : Nibble,
    some (frame req) =
      [0x81#8, 0xA3#8, 0xA5#8, 0x87#8, 0xA9#8, 0x8B#8, 0x8D#8, 0xAF#8,
       0xB1#8, 0x93#8, 0x95#8, 0xB7#8, 0x99#8, 0xBB#8, 0xBD#8, 0x9F#8][req.toNat]? := by decide

/-- Settles O4: every nibble decodes (`decode_nibble`), to the operation of `decodeReq4_eq`, and has the
packet of `frame_map`. -/
theorem allRequestsAreLegal : Obligations.AllRequestsAreLegal := fun req ts v c =>
  ⟨(decode_nibble req ts v c).trans (congrArg _ (decodeReq4_eq req ts v)), frame_map req⟩

/-- Settles O5: the nibble's fields are `reqNibble_fields`, and each of the 16 packets has the bits of
R82. -/
theorem nibbleAndPacketLayout : Obligations.NibbleAndPacketLayout := by
  refine ⟨fun apndp rnw a => ?_, by decide⟩
  obtain ⟨hApndp, hRnw, hA⟩ := reqNibble_fields apndp rnw a
  refine ⟨hApndp, hRnw, ?_, ?_⟩
  · rw [← congrArg (BitVec.getLsbD · 0) hA]; simp
  · rw [← congrArg (BitVec.getLsbD · 1) hA]; simp

end Sys2Proof
end

section
/-! PROOFS. The result codes (30_encoding.md R88). -/

namespace Sys2Proof.Machine

open Sys2Proof

/-- No result code is above that of ParityMismatch. -/
theorem resultCode_le (o : TransferOutcome) (a : Ack) : (resultCode o a).toNat ≤ 8 := by
  cases o with
  | ok | wait | fault | parityMismatch => simp [resultCode]
  | protocolError =>
    have := a.isLt
    simp only [resultCode, BitVec.toNat_setWidth]
    omega

/-- The outcome that a result code names, read back by R88's table. -/
def outcomeOfCode (c : BitVec 4) : TransferOutcome :=
  if c = 0x1#4 then .ok
  else if c = 0x2#4 then .wait
  else if c = 0x4#4 then .fault
  else if c = 0x8#4 then .parityMismatch
  else .protocolError

/-- The code of a transfer's outcome tells the outcome: an acknowledge that is a ProtocolError is none of
the other codes. -/
theorem outcomeOfCode_resultCode : ∀ (a : Ack) (rnw perr : Bool),
    outcomeOfCode (resultCode (outcome a rnw perr) a) = outcome a rnw perr := by decide

/-- Settles O9: the codes are those of `resultCode`, and `outcomeOfCode` reads the outcome back. -/
theorem resultCodesAreDistinct : Obligations.ResultCodesAreDistinct := by
  constructor
  · intro a rnw perr
    have code : ∀ {o o' : TransferOutcome}, o = o' → resultCode o a = resultCode o' a :=
      congrArg (resultCode · a)
    refine ⟨resultCode_le _ a, code, code, code, code, fun h => ?_⟩
    rw [code h]
    exact BitVec.toNat_setWidth_of_le (by decide)
  · intro a a' rnw rnw' perr perr' h
    rw [← outcomeOfCode_resultCode a, h, outcomeOfCode_resultCode]

end Sys2Proof.Machine
end

section
/-! PROOFS. The driven phases of the sequencer, one cycle each (46_transfers.md R181). -/

namespace Sys2Proof.Machine

open Sys2Proof

/-- In flight, with a silent caller, a step is the row of the phase and nothing else. -/
theorem step_inFlight {s : State} (h : inFlight s) : step s = engineRow (currentInputs s) (base s) := by
  obtain ⟨hbusy, hsilent⟩ := h
  rw [step_silent hsilent, if_pos hbusy]

@[simp] theorem base_cnt (s : State) : (base s).cnt = s.cnt := rfl

/-- Settles O19: REQ before its last cycle and in it. -/
theorem packetPhaseSendsThePacket : Obligations.PacketPhaseSendsThePacket := by
  intro s hf hp _
  dsimp only
  rw [step_inFlight hf, engineRow_req (s := base s) hp, rowReq]
  by_cases h7 : s.cnt.toNat = 7
  · have last : (base s).cnt.toNat + 1 = 8 := by simp [h7]
    rw [if_pos h7, row_last last]; rfl
  · have more : (base s).cnt.toNat + 1 ≠ 8 := by simp [h7]
    rw [if_neg h7, row_tick more]; rfl

/-- Settles O25: WDATA before its last cycle and in it, and the one cycle of WPAR. -/
theorem writeDataPhaseSendsTheWordAndItsParity : Obligations.WriteDataPhaseSendsTheWordAndItsParity := by
  intro s hf
  constructor
  · intro hp hlt
    dsimp only
    rw [step_inFlight hf, engineRow_wdata (s := base s) hp, rowWdata]
    by_cases h31 : s.cnt.toNat < 31
    · have more : (base s).cnt.toNat + 1 ≠ 32 := by rw [base_cnt]; omega
      rw [if_pos h31, row_tick more, sendData_eq]; rfl
    · have last : (base s).cnt.toNat + 1 = 32 := by rw [base_cnt]; omega
      rw [if_neg h31, row_last last, sendData_eq]; rfl
  · intro hp h0
    have last : (base s).cnt.toNat + 1 = 1 := by simp [h0]
    rw [step_inFlight hf, engineRow_wpar (s := base s) hp, rowWpar, row_last last]; rfl

end Sys2Proof.Machine
end

section
/-! PROOFS. The cycle record of a step and the driver (40_bus_primitives.md R101 to R104). -/

namespace Sys2Proof.Machine

open Sys2Proof

/-- The record of a row agrees with who holds the line in its phase: none in a control step, a driven one
in a phase of the host, a sampled or a released one in a phase of the target (R102 to R104, R143). -/
theorem rowCycle_agrees_with_phase (p : Inputs) (s : State) :
    rowCycle p s = [] ∨
    (∃ b, rowCycle p s = [.w b] ∧ hostPhase s.phase = true) ∨
    (rowCycle p s = [.r p.swdioIn] ∧ hostPhase s.phase = false ∧ samplePhase s.phase = true) ∨
    (rowCycle p s = [.z] ∧ hostPhase s.phase = false) := by
  unfold rowCycle
  cases s.phase with
  | idle | post | finish => exact .inl rfl
  | req | wdata | wpar | idlec | dummyw => exact .inr (.inl ⟨_, rfl, rfl⟩)
  | ack | rdata | rpar => exact .inr (.inr (.inl ⟨rfl, rfl, rfl⟩))
  | trn1 | trn2r | trn2w | dummyr | trnwf | backoff => exact .inr (.inr (.inr ⟨rfl, rfl⟩))

/-- A start, accepted or not, issues no bus cycle (R180). -/
@[simp] theorem startTransfer_trace (apndp rnw : Bool) (a : Select) (ts : Bool) (v : Option Data) (s : State) :
    (startTransfer apndp rnw a ts v s).trace = s.trace := by
  cases hb : s.busy with
  | true => rw [startTransfer_busy _ _ _ _ _ hb, raise_trace]
  | false => rw [startTransfer_idle _ _ _ _ _ hb]

/-- A step adds nothing to the trace, or the record of the row of its phase (R101, R181, R230). -/
theorem step_trace {s t : State} (h : step s = .next t) :
    t.trace = s.trace ∨ t.trace = s.trace ++ rowCycle (currentInputs s) s := by
  cases step_kind h with
  | reset _ ht => exact .inl (by rw [ht, openStep_eq]; rfl)
  | rest _ _ _ _ _ ht => exact .inl (by rw [ht]; rfl)
  | start _ _ _ _ _ _ _ _ _ _ _ ht => exact .inl (by rw [ht, startTransfer_trace]; rfl)
  | row _ _ _ _ _ hrow => exact .inr (engineRow_effect hrow).trace
  | finish _ _ _ _ _ ht => exact .inl (by rw [ht]; rfl)

/-- Settles O40: the record of a step is its row's (`step_trace`), which agrees with the phase, and in
the invariant OE follows the phase. -/
theorem cyclesRespectTheDriver : Obligations.CyclesRespectTheDriver := by
  intro s t hinv h
  rw [hinv.driver]
  rcases step_trace h with ht | ht
  · exact .inl ht
  · rw [ht]
    rcases rowCycle_agrees_with_phase (currentInputs s) s with hc | ⟨b, hc, hoe⟩ | ⟨hc, hoe, hs⟩ | ⟨hc, hoe⟩
    · exact .inl (by rw [hc, List.append_nil])
    · exact .inr (.inl ⟨b, by rw [hc], hoe⟩)
    · exact .inr (.inr (.inl ⟨by rw [hc], hoe, hs⟩))
    · exact .inr (.inr (.inr ⟨by rw [hc], hoe⟩))

end Sys2Proof.Machine
end

section
/-! PROOFS. The parity unit (41_parity_unit.md R121, R122, R124): the data parity as a popcount, what bit
errors in a read frame do to the check, and the cycles that check a parity or touch none. -/

namespace Sys2Proof.Machine

open Sys2Proof

/-! ### The data parity -/

/-- The parity of the low n bits is their popcount modulo 2. -/
theorem parityBelow_eq_countP (n : Nat) (d : Data) :
    parityBelow n d = decide ((List.range n).countP (fun i => d.getLsbD i) % 2 = 1) := by
  induction n with
  | zero => rfl
  | succ k ih =>
    rw [parityBelow_succ, ih, List.range_succ, List.countP_append, List.countP_singleton]
    cases d.getLsbD k with
    | false => simp
    | true => rw [Bool.eq_iff_iff]; simp [Nat.succ_mod_two_eq_one_iff]

/-- Settles O6: the popcount is that of the low 32 bits, which are all; the corner values are computed. -/
theorem dataParityIsPopcount : Obligations.DataParityIsPopcount :=
  ⟨parityBelow_eq_countP 32, by decide⟩

/-- Parity is additive: the parity of a sum modulo 2 is the sum of the parities. -/
theorem parityBelow_xor (n : Nat) (d e : Data) :
    parityBelow n (d ^^^ e) = xor (parityBelow n d) (parityBelow n e) := by
  induction n with
  | zero => rfl
  | succ k ih =>
    simp only [parityBelow_succ, ih, BitVec.getLsbD_xor, Bool.xor_assoc, Bool.xor_left_comm]

/-- A word with the single bit i set has parity 1 once bit i is counted. -/
theorem parityBelow_singleBit {i : Nat} (hi : i < 32) (n : Nat) :
    parityBelow n (1#32 <<< i) = decide (i < n) := by
  induction n with
  | zero => rfl
  | succ k ih =>
    rw [parityBelow_succ, ih, ← BitVec.twoPow_eq, BitVec.getLsbD_twoPow]
    rcases Nat.lt_trichotomy i k with h | h | h
    · simp [hi, h, h.ne, Nat.lt_succ_of_lt h]
    · subst h; simp [hi]
    · simp [h.ne', Nat.not_lt.2 h.le, Nat.not_lt.2 (Nat.succ_le_of_lt h)]

/-- Flipping one bit of the word turns its parity. -/
theorem parity32_flip (d : Data) {i : Nat} (hi : i < 32) : parity32 (d ^^^ (1#32 <<< i)) = !parity32 d := by
  rw [parity32, parityBelow_xor, parityBelow_singleBit hi, decide_eq_true hi, Bool.xor_true]; rfl

/-- Settles O7: each flip of a data bit negates the parity (`parity32_flip`), a flip of the parity bit
negates the other side of the check, and two negations cancel. -/
theorem frameCheckSeesOddErrors : Obligations.FrameCheckSeesOddErrors := by
  refine ⟨fun d p i hi => ?_, fun d p => ?_, fun d p i j hi hj _ => ?_, fun d p i hi => ?_⟩
  · rw [parity32_flip d hi, Bool.not_bne]
  · rw [Bool.bne_not]
  · rw [parity32_flip _ hj, parity32_flip d hi, Bool.not_not]
  · rw [parity32_flip d hi, Bool.not_bne_not]

/-! ### The cycles -/

/-- The level on the line in the coming step is the bit that a cycle of that step samples. -/
theorem level_zero (s : State) : level 0 s = readBit (currentInputs s) := by
  rw [level, upcoming_zero]; rfl

/-- Settles O24: the one cycle of RPAR. -/
theorem readParityIsChecked : Obligations.ReadParityIsChecked := by
  intro s hf hp h0
  have last : (base s).cnt.toNat + 1 = 1 := by simp [h0]
  rw [step_inFlight hf, engineRow_rpar (s := base s) hp, rowRpar, row_last last, level_zero]; rfl

/-- A row of cycles driven low that leads to FINISH, in a cycle before its last and in its last
(45_data_phase_sequencer.md R164, R168). -/
theorem row_drivenLow (len : Nat) (s : State) :
    row len (cycleW false) (fun s => .next (enter .finish s)) s =
      let u := { s with dout := false, swclk := true, trace := s.trace ++ [BusCycle.w false] }
      .next (if s.cnt.toNat + 1 = len then { u with phase := .finish, cnt := 0#8 }
        else { u with cnt := s.cnt + 1#8 }) := by
  dsimp only
  by_cases h : s.cnt.toNat + 1 = len
  · rw [row_last h, if_pos h]; rfl
  · rw [row_tick h, if_neg h]; rfl

/-- Settles O27: IDLEC and DUMMYW are rows driven low, of S_IDLE and of 33 cycles. -/
theorem paddingIsDrivenLow : Obligations.PaddingIsDrivenLow := by
  intro s hf
  constructor
  · intro hp _
    rw [step_inFlight hf, engineRow_idlec (s := base s) hp, rowIdlec, row_drivenLow]; rfl
  · intro hp _
    have last : s.cnt.toNat + 1 = dummyN ↔ s.cnt.toNat = 32 := Nat.succ_inj
    rw [step_inFlight hf, engineRow_dummyw (s := base s) hp, rowDummyw, row_drivenLow]
    simp only [base_cnt, last]; rfl

end Sys2Proof.Machine
end

section
/-! PROOFS. The turnaround periods (43_turnaround_fsm.md R140 to R145): a cycle before the last of its
period, and the last cycle with the change of driver and the next phase (46_transfers.md R181). -/

namespace Sys2Proof.Machine

open Sys2Proof

@[simp] theorem base_sTrn (s : State) : (base s).sTrn = s.sTrn := rfl

/-- The phases with a turnaround period: the first one, before the data or after it on an OK
acknowledge, and on WAIT and FAULT (R141). -/
def turnaroundPhase (ph : Phase) : Prop := ph = .trn1 ∨ ph = .trn2r ∨ ph = .trn2w ∨ ph = .trnwf

/-- The row of a turnaround phase is S_TRN released cycles; the phases differ in the exit alone (R140). -/
theorem engineRow_turnaround {s : State} (hp : turnaroundPhase s.phase) (p : Inputs) :
    ∃ exit, engineRow p s = row s.sTrn.toNat cycleZ exit s := by
  rcases hp with hp | hp | hp | hp
  · exact ⟨_, engineRow_trn1 hp⟩
  · exact ⟨_, engineRow_trn2r hp⟩
  · exact ⟨_, engineRow_trn2w hp⟩
  · exact ⟨_, engineRow_trnwf hp⟩

/-- Settles O20: in each phase the row is released cycles, and this one is not its last. -/
theorem turnaroundCycleIsReleased : Obligations.TurnaroundCycleIsReleased := by
  intro s hf hp hlt
  have more : (base s).cnt.toNat + 1 ≠ (base s).sTrn.toNat := hlt.ne
  obtain ⟨exit, hrow⟩ := engineRow_turnaround (s := base s) hp (currentInputs s)
  rw [step_inFlight hf, hrow, row_tick more]; rfl

/-- After the last cycle of TRN2W the driver is back and the write data is loaded (R162). -/
theorem rowTrn2w_last {s : State} {v : Data} (last : s.cnt.toNat + 1 = s.sTrn.toNat)
    (hv : s.lWdata = some v) :
    rowTrn2w s = .next (enter .wdata { enableOutput (cycleZ s) with sh := v, par := false }) := by
  have load := loadWriteData_eq (s := enableOutput (cycleZ s)) hv
  rw [rowTrn2w, row_last last, load, andThen_next]

/-- After the last cycle of TRNWF the driver is back, and the dummy write runs where S_DPEN = 1 in a
write (R167, R168). -/
theorem rowTrnwf_last {s : State} (last : s.cnt.toNat + 1 = s.sTrn.toNat) :
    rowTrnwf s = .next (if s.sDpen = true ∧ s.lRnw = false
      then enter .dummyw (driveBit false (enableOutput (cycleZ s)))
      else enter .finish (enableOutput (cycleZ s))) := by
  have runs : (s.sDpen && !s.lRnw) = true ↔ s.sDpen = true ∧ s.lRnw = false := by simp
  rw [rowTrnwf, row_last last]
  by_cases dummy : s.sDpen = true ∧ s.lRnw = false
  · rw [if_pos dummy]; exact if_pos (runs.2 dummy)
  · rw [if_neg dummy]; exact if_neg (mt runs.1 dummy)

/-- Settles O21: the last cycle of each of the four rows, with its exit. -/
theorem turnaroundEndsInItsPhase : Obligations.TurnaroundEndsInItsPhase := by
  intro s hf hlast
  have last : (base s).cnt.toNat + 1 = (base s).sTrn.toNat := hlast
  rw [step_inFlight hf]
  refine ⟨fun hp => ?_, fun hp => ?_, fun v hp hv => ?_, fun hp => ?_⟩
  · rw [engineRow_trn1 (s := base s) hp, rowTrn1, row_last last]; rfl
  · rw [engineRow_trn2r (s := base s) hp, rowTrn2r, row_last last]; rfl
  · rw [engineRow_trn2w (s := base s) hp, rowTrn2w_last last hv]; rfl
  · rw [engineRow_trnwf (s := base s) hp, rowTrnwf_last last]; rfl

end Sys2Proof.Machine
end

section
/-! PROOFS. The acknowledge interpreter (44_ack_interpreter.md R150 to R152): the outcome that each class of
acknowledge gives (46_transfers.md R183), and the cycles of ACK with their dispatch. -/

namespace Sys2Proof.Machine

open Sys2Proof

/-! ### The outcome of each class (R183) -/

section
variable {a : Ack} (rnw perr : Bool)

theorem outcome_of_ok (h : ackDecode a = .ok) :
    outcome a rnw perr = if rnw = true ∧ perr = true then .parityMismatch else .ok := by
  simp only [outcome, h, Bool.and_eq_true]

theorem outcome_of_wait (h : ackDecode a = .wait) : outcome a rnw perr = .wait := by
  simp only [outcome, h]

theorem outcome_of_fault (h : ackDecode a = .fault) : outcome a rnw perr = .fault := by
  simp only [outcome, h]

theorem outcome_of_protocolError (h : ackDecode a = .protocolError) :
    outcome a rnw perr = .protocolError := by
  simp only [outcome, h]

end

/-- Only an OK acknowledge of a read whose check failed gives ParityMismatch. -/
theorem of_outcome_parityMismatch {a : Ack} {rnw perr : Bool} (h : outcome a rnw perr = .parityMismatch) :
    ackDecode a = .ok ∧ rnw = true ∧ perr = true := by
  cases hk : ackDecode a with
  | ok =>
    rw [outcome_of_ok rnw perr hk] at h
    split at h
    · next failed => exact ⟨rfl, failed⟩
    · cases h
  | wait => rw [outcome_of_wait rnw perr hk] at h; cases h
  | fault => rw [outcome_of_fault rnw perr hk] at h; cases h
  | protocolError => rw [outcome_of_protocolError rnw perr hk] at h; cases h

/-- Settles O8: the classes are those of `ackDecode`, each with its outcome, and ParityMismatch is read
back by `of_outcome_parityMismatch`. -/
theorem acknowledgeSelectsTheOutcome : Obligations.AcknowledgeSelectsTheOutcome :=
  ⟨fun _ => rfl, fun _ rnw perr =>
    ⟨outcome_of_ok rnw perr, outcome_of_wait rnw perr, outcome_of_fault rnw perr,
      outcome_of_protocolError rnw perr, of_outcome_parityMismatch⟩⟩

/-! ### The cycles of ACK (R150, R152) -/

/-- Settles O22: ACK[CNT] takes the sample (`getLsbD_putBit`); the first two samples count, and the third
dispatches on the acknowledge it completes (`dispatchAck_eq`). -/
theorem acknowledgePhaseSamplesAndDispatches : Obligations.AcknowledgePhaseSamplesAndDispatches := by
  intro s hf hp hlt
  refine ⟨putBit s.ack s.cnt.toNat (level 0 s), fun j => getLsbD_putBit _ _ _ _ hlt, ?_⟩
  dsimp only
  rw [step_inFlight hf, engineRow_ack (s := base s) hp, rowAck, ← level_zero]
  by_cases h2 : s.cnt.toNat < 2
  · have more : (base s).cnt.toNat + 1 ≠ 3 := by rw [base_cnt]; omega
    rw [if_pos h2, row_tick more, sampleAck_eq]; rfl
  · have last : (base s).cnt.toNat + 1 = 3 := by rw [base_cnt]; omega
    rw [if_neg h2, row_last last, sampleAck_eq, dispatchAck_eq]; rfl

end Sys2Proof.Machine
end

section
/-! PROOFS. The data phases of the sequencer, one step each (45_data_phase_sequencer.md R160 to R170): a data
sample, the capture point, and the released cycles of the dummy read and of the back-off. -/

namespace Sys2Proof.Machine

open Sys2Proof

@[simp] theorem base_sIdle (s : State) : (base s).sIdle = s.sIdle := rfl

/-- A row whose exit stops nothing: the cycle's action, then the exit in the last cycle and the count in
every other (R181). -/
theorem row_next (len : Nat) (act out : State → State) (s : State) :
    row len act (fun u => .next (out u)) s =
      .next (if s.cnt.toNat + 1 = len then out (act s) else countUp (act s)) := by
  by_cases h : s.cnt.toNat + 1 = len
  · rw [row_last h, if_pos h]
  · rw [row_tick h, if_neg h]

/-- Settles O23: SH[CNT] takes the sample (`getLsbD_putBit`), and the sample with CNT = 31 is the last. -/
theorem readDataPhaseSamplesTheWord : Obligations.ReadDataPhaseSamplesTheWord := by
  intro s hf hp hlt
  refine ⟨putBit s.sh s.cnt.toNat (level 0 s), fun j => getLsbD_putBit _ _ _ _ hlt, ?_⟩
  dsimp only
  rw [step_inFlight hf, engineRow_rdata (s := base s) hp, rowRdata, row_next, ← level_zero, sampleData_eq]
  by_cases h31 : s.cnt.toNat < 31
  · have more : (base s).cnt.toNat + 1 ≠ 32 := by rw [base_cnt]; omega
    rw [if_pos h31, if_neg more]; rfl
  · have last : (base s).cnt.toNat + 1 = 32 := by rw [base_cnt]; omega
    rw [if_neg h31, if_pos last]; rfl

/-- The capture point writes TSR where the request asked for the time (R163). -/
theorem captureTime_eq (t : Data) (s : State) :
    captureTime t s = { s with tsr := if s.lTs then some t else s.tsr } := by
  unfold captureTime
  by_cases h : s.lTs = true
  · rw [if_pos h, if_pos h]
  · rw [if_neg h, if_neg h]

/-- Settles O26: the capture (`captureTime_eq`), then the branch on S_IDLE; neither is a bus cycle. -/
theorem postCapturesTheTime : Obligations.PostCapturesTheTime := by
  intro s hf hp
  dsimp only
  rw [step_inFlight hf, engineRow_post (s := base s) hp, rowPost, captureTime_eq, upcoming_zero]
  by_cases h0 : s.sIdle = 0#8
  · rw [if_pos h0]; exact if_pos h0
  · rw [if_neg h0]; exact if_neg h0

/-- Settles O28: both rows are released cycles (`row_next`), of 33 and of S_TRN + 33. -/
theorem dummyReadAndBackoffAreReleased : Obligations.DummyReadAndBackoffAreReleased := by
  intro s hf
  constructor
  · intro hp _
    have last : s.cnt.toNat + 1 = dummyN ↔ s.cnt.toNat = 32 := Nat.succ_inj
    rw [step_inFlight hf, engineRow_dummyr (s := base s) hp, rowDummyr, row_next]
    simp only [base_cnt, last]; rfl
  · intro hp _
    rw [step_inFlight hf, engineRow_backoff (s := base s) hp, rowBackoff, row_next]; rfl

end Sys2Proof.Machine
end

section
/-! PROOFS. What a stretch of a whole transfer leaves on the wire (46_transfers.md R188, 60_exceptions.md
R202): the records of each procedure of the sequential view, the marks of a run with a silent caller, and
the state that an accepted start leaves. -/

namespace Sys2Proof.Machine

open Sys2Proof

/-! ### The records of a stretch -/

@[simp] theorem pass_trace (s : State) : (pass s).trace = s.trace := by rw [pass_eq]; rfl
@[simp] theorem pass_tsr (s : State) : (pass s).tsr = s.tsr := by rw [pass_eq]; rfl
@[simp] theorem pass_swclk (s : State) : (pass s).swclk = s.swclk := by rw [pass_eq]; rfl
@[simp] theorem pass_oe (s : State) : (pass s).oe = s.oe := by rw [pass_eq]; rfl
@[simp] theorem pass_ack (s : State) : (pass s).ack = s.ack := by rw [pass_eq]; rfl

/-- The records c were issued between s and t: SWCLK is high after any cycle, and TSR stays, as no capture
point is among them (40_bus_primitives.md R101, 45_data_phase_sequencer.md R163). -/
structure Issues (c : List BusCycle) (s t : State) : Prop where
  trace : t.trace = s.trace ++ c
  clock : s.swclk = true ∨ c ≠ [] → t.swclk = true
  tsr : t.tsr = s.tsr

/-- What issues no cycle. -/
theorem Issues.nothing {s t : State} (trace : t.trace = s.trace) (clock : t.swclk = s.swclk)
    (tsr : t.tsr = s.tsr) : Issues [] s t where
  trace := by rw [trace, List.append_nil]
  clock h := clock.trans (h.resolve_right fun hc => hc rfl)
  tsr := tsr

/-- One cycle, at its end. -/
theorem Issues.cycle {b : BusCycle} {s t : State} (trace : t.trace = s.trace ++ [b])
    (clock : t.swclk = true) (tsr : t.tsr = s.tsr) : Issues [b] s t :=
  ⟨trace, fun _ => clock, tsr⟩

theorem Issues.trans {c d : List BusCycle} {s t u : State} (h : Issues c s t) (k : Issues d t u) :
    Issues (c ++ d) s u where
  trace := by rw [k.trace, h.trace, List.append_assoc]
  clock := by
    intro hcd
    by_cases hd : d = []
    · exact k.clock (.inl (h.clock (by simpa [hd] using hcd)))
    · exact k.clock (.inr hd)
  tsr := k.tsr.trans h.tsr

/-- What issues nothing adds nothing. -/
theorem Issues.still {c : List BusCycle} {s t u : State} (h : Issues c s t) (k : Issues [] t u) :
    Issues c s u := by
  simpa using h.trans k

theorem Issues.pass (s : State) : Issues [] s (pass s) := .nothing (pass_trace s) (pass_swclk s) (pass_tsr s)

theorem Issues.enableOutput (s : State) : Issues [] s (enableOutput s) := .nothing rfl rfl rfl

theorem Issues.disableOutput (s : State) : Issues [] s (disableOutput s) := .nothing rfl rfl rfl

theorem Issues.driveBit (b : Bool) (s : State) : Issues [] s (driveBit b s) := .nothing rfl rfl rfl

theorem Issues.cycleW (b : Bool) (s : State) : Issues [.w b] s (cycleW b s) := .cycle rfl rfl rfl

theorem Issues.cycleZ (s : State) : Issues [.z] s (cycleZ s) := .cycle rfl rfl rfl

theorem Issues.sampleAck (i : Nat) (b : Bool) (s : State) : Issues [.r b] s (sampleAck i b s) :=
  .cycle rfl rfl rfl

theorem Issues.stepW (b : Bool) (s : State) : Issues [.w b] s (stepW b s) := (Issues.pass s).trans (.cycleW b _)

theorem Issues.stepZ (s : State) : Issues [.z] s (stepZ s) := (Issues.pass s).trans (.cycleZ _)

theorem Issues.ackSample (i : Nat) (s : State) :
    Issues [.r (level 0 s)] s (Machine.sampleAck i (lineLevel s) (Machine.pass s)) := by
  rw [level_zero]
  exact (Issues.pass s).trans (.sampleAck i _ _)

/-- A loop issues the records of its rounds. -/
theorem Issues.forN {P : Nat → State → State} {c : Nat → BusCycle} {n : Nat} {s : State}
    (h : ∀ i, Issues [c i] (forN i P s) (P i (forN i P s))) :
    Issues ((List.range n).map c) s (forN n P s) := by
  induction n with
  | zero => exact .nothing rfl rfl rfl
  | succ k ih =>
    rw [List.range_succ, List.map_append]
    exact ih.trans (h k)

/-- A loop of equal rounds issues their record again and again. -/
theorem Issues.replicate {P : State → State} {b : BusCycle} (h : ∀ u, Issues [b] u (P u)) (n : Nat)
    (s : State) : Issues (List.replicate n b) s (Machine.forN n (fun _ => P) s) := by
  have hr := Issues.forN (P := fun _ => P) (c := fun _ => b) (n := n) (s := s) fun _ => h _
  rwa [List.map_const', List.length_range] at hr

/-- The packet on the wire (R131). -/
theorem Issues.packetPhase (s : State) : Issues (packetCycles s.pkt) s (packetPhase s) := by
  have hpkt : ∀ i, (Machine.forN i (fun i s => Machine.stepW (s.pkt.getLsbD i) s) s).pkt = s.pkt := fun i =>
    (Ran.forN (P := fun i s => Machine.stepW (s.pkt.getLsbD i) s) (fun _ _ => .stepW _ _) i s).pkt
  have hloop : Issues (packetCycles s.pkt) s
      (Machine.forN 8 (fun i s => Machine.stepW (s.pkt.getLsbD i) s) s) :=
    .forN fun i => by rw [hpkt]; exact .stepW _ _
  exact hloop.still (.disableOutput _)

/-- The turnaround on the wire (R140). -/
theorem Issues.turnaround (s : State) : Issues (List.replicate s.sTrn.toNat .z) s (turnaround s) :=
  .replicate Issues.stepZ _ s

/-- The acknowledge on the wire (R150). -/
theorem Issues.ackPhase (s : State) : Issues (sampledCycles 0 3 s) s (ackPhase s) := by
  refine .forN fun i => ?_
  have hlevel : level 0 (Machine.forN i (fun i s => Machine.sampleAck i (lineLevel s) (Machine.pass s)) s) =
      level (0 + i) s := by
    rw [level, (Ran.forN Ran.ackSample i s).upcoming, Nat.add_comm]; rfl
  rw [← hlevel]
  exact .ackSample i _

/-- From the start to the dispatch (R131, R140, R150). -/
def toDispatch (s : State) : State := ackPhase (turnaround (packetPhase s))

theorem Ran.beforeAck (s : State) : Ran (8 + s.sTrn.toNat) s (Machine.turnaround (Machine.packetPhase s)) := by
  have hpacket := Ran.packetPhase s
  exact hpacket.sTrn ▸ hpacket.trans (Ran.turnaround _)

theorem Ran.toDispatch (s : State) : Ran (8 + s.sTrn.toNat + 3) s (Machine.toDispatch s) :=
  (Ran.beforeAck s).trans (Ran.ackPhase _)

/-- The acknowledge at the dispatch is the one the target was about to give (R85, R150). -/
theorem toDispatch_ack (s : State) : (toDispatch s).ack = comingAck s := by
  unfold toDispatch
  rw [ackPhase_ack]
  simp only [level, (Ran.beforeAck s).upcoming]
  rfl

theorem Issues.toDispatch (s : State) :
    Issues (packetCycles s.pkt ++ List.replicate s.sTrn.toNat .z ++ sampledCycles (8 + s.sTrn.toNat) 3 s)
      s (Machine.toDispatch s) := by
  have hlevels : sampledCycles 0 3 (Machine.turnaround (Machine.packetPhase s)) =
      sampledCycles (8 + s.sTrn.toNat) 3 s := by
    simp only [sampledCycles, level, (Ran.beforeAck s).upcoming, Nat.zero_add, Nat.add_assoc]
  have hturn := Issues.turnaround (Machine.packetPhase s)
  rw [(Ran.packetPhase s).sTrn] at hturn
  exact ((Issues.packetPhase s).trans hturn).trans (hlevels ▸ Issues.ackPhase _)

/-! ### The marks -/

/-- With a silent caller no mark is raised (R204). -/
theorem step_silent_faults {s t : State} (hs : (currentInputs s).silent = true) (h : step s = .next t) :
    t.faults = s.faults := by
  obtain ⟨hrst, hcfg, hstart, hreads⟩ := (silent_iff _).1 hs
  obtain ⟨-, hm⟩ := step_marks h
  rw [hm]
  simp [hrst, hcfg, hstart, hreads]

theorem run_quiet_faults {n : Nat} :
    ∀ {s t : State}, quiet n s → run n s = .next t → t.faults = s.faults := by
  induction n with
  | zero => intro s t _ h; rw [next_inj h]
  | succ k ih =>
    intro s t hq h
    obtain ⟨u, hu, hrest⟩ := andThen_eq_next ((run_succ k s).symm.trans h)
    obtain ⟨hnow, hlater⟩ := quiet_succ hq
    obtain ⟨hi, hn⟩ := step_inputs hu
    exact (ih (hlater u hi hn) hrest).trans (step_silent_faults hnow hu)

/-! ### The start -/

/-- t is in flight, in the first cycle of REQ, after a start accepted in s (R180). -/
structure Started (s t : State) : Prop where
  atReq : atCycle .req 0 t = t
  busy : t.busy = true
  sTrn : t.sTrn = s.cfg.trn
  sDpen : t.sDpen = s.cfg.dpen
  cfg : t.cfg = s.cfg
  tsr : t.tsr = s.tsr
  faults : t.faults = s.faults
  trace : t.trace = s.trace

/-- Every transfer operation starts, with no transfer in flight. -/
theorem exec_started {s : State} {i : Instr} (hi : isTransfer i = true) (hb : s.busy = false) :
    ∃ t, exec i s = .next t ∧ Started s t := by
  obtain ⟨apndp, rnw, a, ts, v, -, he⟩ := exec_transfer hi
  refine ⟨_, he s, ?_⟩
  rw [startTransfer_idle _ _ _ _ _ hb]
  constructor <;> rfl

/-- The snapshot of a legal CFG has a turnaround (R41). -/
theorem Started.sTrn_pos {s t : State} (h : Started s t) (hleg : legalTrn s.cfg.trn = true) :
    0 < t.sTrn.toNat := by
  rw [h.sTrn]
  exact ((legalTrn_iff _).1 hleg).1

end Sys2Proof.Machine
end

section
/-! PROOFS. The transfers that move no data (45_data_phase_sequencer.md R166 to R170): the paths after WAIT
and FAULT and after an unrecognised acknowledge, and what they report (60_exceptions.md R202). -/

namespace Sys2Proof.Machine

open Sys2Proof

/-! ### The tails of the sequential view -/

/-- The dummy read, where it runs (R166). -/
def dummyRead (s : State) : State := if s.sDpen && s.lRnw then forN dummyN (fun _ => stepZ) s else s

/-- The dummy write, where it runs (R168). -/
def dummyWrite (s : State) : State :=
  if s.sDpen && !s.lRnw then forN dummyN (fun _ => stepW false) (driveBit false s) else s

/-- The cycles of a dummy data phase that runs where b is true. -/
def dummyCycles (b : Bool) : Nat := if b then 33 else 0

theorem waitFaultTail_eq (s : State) :
    waitFaultTail s = dummyWrite (enableOutput (turnaround (dummyRead s))) := rfl

theorem Ran.dummyRead (s : State) : Ran (dummyCycles (s.sDpen && s.lRnw)) s (dummyRead s) := by
  unfold Machine.dummyRead dummyCycles
  split
  · exact .forN (fun _ u => .stepZ u) _ s
  · exact .refl s

theorem Ran.dummyWrite (s : State) : Ran (dummyCycles (s.sDpen && !s.lRnw)) s (dummyWrite s) := by
  unfold Machine.dummyWrite dummyCycles
  split
  · have hdrive := (Ran.refl s).still (.driveBit false s)
    exact Nat.zero_add 33 ▸ hdrive.trans (.forN (fun _ u => .stepW false u) 33 _)
  · exact .refl s

theorem Issues.dummyRead (s : State) :
    Issues (List.replicate (dummyCycles (s.sDpen && s.lRnw)) .z) s (dummyRead s) := by
  unfold Machine.dummyRead dummyCycles
  split
  · exact .replicate Issues.stepZ 33 s
  · exact .nothing rfl rfl rfl

theorem Issues.dummyWrite (s : State) :
    Issues (List.replicate (dummyCycles (s.sDpen && !s.lRnw)) (.w false)) s (dummyWrite s) := by
  unfold Machine.dummyWrite dummyCycles
  split
  · exact (Issues.driveBit false s).trans (.replicate (Issues.stepW false) 33 _)
  · exact .nothing rfl rfl rfl

theorem stepZ_ack (s : State) : (stepZ s).ack = s.ack := by rw [stepZ, cycleZ_eq]; exact pass_ack s
theorem stepW_ack (b : Bool) (s : State) : (stepW b s).ack = s.ack := by rw [stepW, cycleW_eq]; exact pass_ack s
theorem stepW_oe (b : Bool) (s : State) : (stepW b s).oe = s.oe := by rw [stepW, cycleW_eq]; exact pass_oe s

theorem turnaround_ack (s : State) : (turnaround s).ack = s.ack :=
  forN_keeps State.ack _ (fun _ => stepZ_ack) _ s

theorem dummyRead_ack (s : State) : (dummyRead s).ack = s.ack := by
  unfold dummyRead
  split
  · exact forN_keeps State.ack _ (fun _ => stepZ_ack) _ s
  · rfl

theorem dummyWrite_ack (s : State) : (dummyWrite s).ack = s.ack := by
  unfold dummyWrite
  split
  · exact forN_keeps State.ack _ (fun _ => stepW_ack false) _ (driveBit false s)
  · rfl

theorem dummyWrite_oe (s : State) : (dummyWrite s).oe = s.oe := by
  unfold dummyWrite
  split
  · exact forN_keeps State.oe _ (fun _ => stepW_oe false) _ (driveBit false s)
  · rfl

/-- A tail of n steps from s to t that issues the records c, samples nothing, and leaves the host driving
the line (R169, R170). -/
structure MovesNoData (n : Nat) (c : List BusCycle) (s t : State) : Prop where
  ran : Ran n s t
  issues : Issues c s t
  ack : t.ack = s.ack
  oe : t.oe = true

/-- The steps between the dispatch and FINISH on WAIT and FAULT. -/
def waitFaultSteps (s : State) : Nat :=
  dummyCycles (s.sDpen && s.lRnw) + s.sTrn.toNat + dummyCycles (s.sDpen && !s.lRnw)

/-- The records of these steps (R166 to R168). -/
def waitFaultCycles (s : State) : List BusCycle :=
  List.replicate (dummyCycles (s.sDpen && s.lRnw)) .z ++ List.replicate s.sTrn.toNat .z ++
    List.replicate (dummyCycles (s.sDpen && !s.lRnw)) (.w false)

theorem waitFaultTail_movesNoData (s : State) :
    MovesNoData (waitFaultSteps s) (waitFaultCycles s) s (waitFaultTail s) := by
  rw [waitFaultTail_eq]
  have hread := Ran.dummyRead s
  have hturn := (hread.trans (Ran.turnaround _)).still (.enableOutput _)
  have hwrite := hturn.trans (Ran.dummyWrite _)
  have iturn := (Issues.dummyRead s).trans (Issues.turnaround _)
  have iwrite := (iturn.still (.enableOutput _)).trans (Issues.dummyWrite _)
  rw [hturn.sDpen, hturn.lRnw, hread.sTrn] at hwrite iwrite
  exact {
    ran := hwrite
    issues := iwrite
    ack := by rw [dummyWrite_ack, enableOutput_ack, turnaround_ack, dummyRead_ack]
    oe := by rw [dummyWrite_oe, enableOutput_oe] }

theorem protocolErrorBackoff_movesNoData (s : State) :
    MovesNoData (s.sTrn.toNat + 33) (List.replicate (s.sTrn.toNat + 33) .z) s (protocolErrorBackoff s) := by
  have hloop : protocolErrorBackoff s =
      enableOutput (forN (s.sTrn.toNat + dummyN) (fun _ => stepZ) s) := by rw [forN_add]; rfl
  rw [hloop]
  exact {
    ran := (Ran.forN (fun _ u => .stepZ u) _ s).still (.enableOutput _)
    issues := (Issues.replicate Issues.stepZ _ s).still (.enableOutput _)
    ack := (enableOutput_ack _).trans (forN_keeps State.ack _ (fun _ => stepZ_ack) _ s)
    oe := rfl }

/-! ### The machine's steps -/

/-- WAIT and FAULT dispatch alike (44_ack_interpreter.md R152). -/
theorem dispatchAck_of_waitFault {s : State} (hc : ackDecode s.ack = .wait ∨ ackDecode s.ack = .fault) :
    dispatchAck s = if s.sDpen && s.lRnw then atCycle .dummyr 0 s else atCycle .trnwf 0 s := by
  unfold dispatchAck
  rcases hc with hc | hc <;> rw [hc] <;> rfl

/-- From the dispatch to the end of DUMMYR (R166). -/
theorem run_dummyRead {s : State} (hb : s.busy = true)
    (hc : ackDecode s.ack = .wait ∨ ackDecode s.ack = .fault)
    (hq : quiet (dummyCycles (s.sDpen && s.lRnw)) s) :
    run (dummyCycles (s.sDpen && s.lRnw)) (dispatchAck s) = .next (atCycle .trnwf 0 (dummyRead s)) := by
  rw [dispatchAck_of_waitFault hc]
  unfold dummyRead
  cases hd : s.sDpen && s.lRnw with
  | true => rw [hd] at hq; exact run_dummyr hb hq
  | false => rfl

/-- From the exit of TRNWF to completion (R168, R182). -/
theorem run_dummyWrite {s : State} (hb : s.busy = true)
    (hq : quiet (dummyCycles (s.sDpen && !s.lRnw) + 1) s) :
    run (dummyCycles (s.sDpen && !s.lRnw) + 1)
        (if s.sDpen && !s.lRnw then atCycle .dummyw 0 (driveBit false s) else atCycle .finish 0 s) =
      .next (complete (pass (dummyWrite s))) := by
  have hran := Ran.dummyWrite s
  have hfinish := run_finish (hran.busy.trans hb) (hran.quiet hq)
  unfold dummyWrite at hfinish ⊢
  cases hd : s.sDpen && !s.lRnw with
  | true =>
    rw [hd] at hq hfinish
    exact (run_from (run_dummyw (s := driveBit false s) hb (quiet_le hq (Nat.le_succ 33))) rfl).trans hfinish
  | false => rw [hd] at hfinish; exact hfinish

/-- From the dispatch on WAIT or FAULT to completion (R166 to R169). -/
theorem run_waitFaultTail {s : State} (ht : 0 < s.sTrn.toNat) (hb : s.busy = true)
    (hc : ackDecode s.ack = .wait ∨ ackDecode s.ack = .fault) (hq : quiet (waitFaultSteps s + 1) s) :
    run (waitFaultSteps s + 1) (dispatchAck s) = .next (complete (pass (waitFaultTail s))) := by
  unfold waitFaultSteps at hq ⊢
  rw [Nat.add_assoc, Nat.add_assoc] at hq ⊢
  have hread := Ran.dummyRead s
  have hturn := (Ran.turnaround (dummyRead s)).still (.enableOutput _)
  rw [hread.sTrn] at hturn
  have hboth := hread.trans hturn
  have hqTurn := hread.quiet hq
  have readRun := run_dummyRead hb hc (quiet_le hq (Nat.le_add_right _ _))
  have turnRun := run_trnwf (by rwa [hread.sTrn]) (hread.busy.trans hb)
    (quiet_le hqTurn (by rw [hread.sTrn]; exact Nat.le_add_right _ _))
  have writeRun := run_dummyWrite (s := enableOutput (turnaround (dummyRead s))) (hboth.busy.trans hb)
    (by rw [hboth.sDpen, hboth.lRnw]; exact hturn.quiet hqTurn)
  rw [hread.sTrn, hread.sDpen, hread.lRnw] at turnRun
  rw [hboth.sDpen, hboth.lRnw] at writeRun
  exact (run_from readRun rfl).trans ((run_from turnRun rfl).trans writeRun)

/-- From the dispatch on an unrecognised acknowledge to completion (R170). -/
theorem run_protocolErrorBackoff {s : State} (hb : s.busy = true) (hc : ackDecode s.ack = .protocolError)
    (hq : quiet (s.sTrn.toNat + 33 + 1) s) :
    run (s.sTrn.toNat + 33 + 1) (dispatchAck s) = .next (complete (pass (protocolErrorBackoff s))) := by
  have hd : dispatchAck s = atCycle .backoff 0 s := by unfold dispatchAck; rw [hc]; rfl
  have hran := (protocolErrorBackoff_movesNoData s).ran
  rw [hd, run_from (run_backoff hb (quiet_le hq (Nat.le_succ _))) rfl]
  exact run_finish (hran.busy.trans hb) (hran.quiet hq)

/-! ### The whole transfer -/

/-- The outcome of an acknowledge other than OK carries the acknowledge's own pattern (R88, R183). -/
theorem resultCode_of_not_ok : ∀ (a : Ack) (rnw perr : Bool), ackDecode a ≠ .ok →
    resultCode (outcome a rnw perr) a = a.setWidth 4 := by decide

/-- A transfer whose tail moves no data ends with the acknowledge as its result, TSR, CFG and the marks as
they were, and the idle posture (R169, R170, R202). -/
theorem Started.ends_without_data {s t v : State} {n m : Nat} {c : List BusCycle} (h : Started s t)
    (ht : 0 < t.sTrn.toNat) (hm : m = 8 + t.sTrn.toNat + 3 + (n + 1)) (hq : quiet m t)
    (hc : ackDecode (comingAck t) ≠ .ok) (tail : MovesNoData n c (toDispatch t) v)
    (hrun : quiet (n + 1) (toDispatch t) →
      run (n + 1) (dispatchAck (toDispatch t)) = .next (complete (pass v))) :
    ∃ u, run m t = .next u ∧
      u.trace = s.trace ++ packetCycles t.pkt ++ List.replicate s.cfg.trn.toNat .z ++
        sampledCycles (8 + s.cfg.trn.toNat) 3 t ++ c ∧
      u.rdata = none ∧ u.ackRaw = some (comingAck t) ∧ u.result = some ((comingAck t).setWidth 4) ∧
      u.tsr = s.tsr ∧ u.cfg = s.cfg ∧ u.faults = s.faults ∧ idlePosture u := by
  subst hm
  have hran := Ran.toDispatch t
  obtain ⟨hhead, -, -⟩ := run_head ht h.busy (quiet_le hq (Nat.le_add_right _ _))
  rw [h.atReq] at hhead
  have hrunAll : run _ t = .next (complete (pass v)) :=
    (run_from hhead rfl).trans (hrun (hran.quiet hq))
  have hissues := (Issues.toDispatch t).trans tail.issues
  have hack : (pass v).ack = comingAck t := by rw [pass_ack, tail.ack, toDispatch_ack]
  have hcfg : (pass v).cfg = t.cfg := ((hran.trans tail.ran).trans (Ran.pass v)).cfg
  refine ⟨_, hrunAll, ?_, ?_, ?_, ?_, ?_, ?_, ?_, ?_, ?_, ?_⟩
  · show (pass v).trace = _
    rw [pass_trace, hissues.trace, h.trace, ← h.sTrn]
    simp only [List.append_assoc]
  · rw [complete_rdata, hack, if_neg fun hok => hc hok.1]
  · rw [complete_ackRaw, hack]
  · rw [complete_result, hack, resultCode_of_not_ok _ _ _ hc]
  · rw [complete_tsr, pass_tsr, hissues.tsr, h.tsr]
  · rw [complete_cfg, hcfg, h.cfg]
  · exact (run_quiet_faults hq hrunAll).trans h.faults
  · exact (pass_swclk v).trans (hissues.clock (.inr (by simp [packetCycles])))
  · exact (pass_oe v).trans tail.oe
  · rfl

/-- The steps of a transfer on WAIT or FAULT (R239). -/
theorem transferSteps_of_waitFault {s : State} (hc : comingClass s = .wait ∨ comingClass s = .fault) :
    transferSteps s = 8 + s.sTrn.toNat + 3 + (waitFaultSteps s + 1) := by
  have hcycles : cycleCount (comingClass s) s.lRnw s.sDpen s.sTrn.toNat s.sIdle.toNat =
      if s.sDpen then 8 + s.sTrn.toNat + 3 + 33 + s.sTrn.toNat else 8 + s.sTrn.toNat + 3 + s.sTrn.toNat := by
    rcases hc with hc | hc <;> rw [hc] <;> rfl
  have hok : comingClass s ≠ .ok := by rcases hc with hc | hc <;> simp [hc]
  rw [transferSteps, transferCycles, hcycles, if_neg hok, waitFaultSteps]
  cases s.sDpen <;> cases s.lRnw <;> simp [dummyCycles] <;> omega

/-- The steps of a transfer on an unrecognised acknowledge (R239). -/
theorem transferSteps_of_protocolError {s : State} (hc : comingClass s = .protocolError) :
    transferSteps s = 8 + s.sTrn.toNat + 3 + (s.sTrn.toNat + 33 + 1) := by
  rw [transferSteps, transferCycles, hc]; rfl

/-- The dummy data phase runs where S_DPEN = 1: released in a read, driven low in a write (R166, R168). -/
theorem waitFaultCycles_eq (s : State) :
    waitFaultCycles s =
      (if s.sDpen = true ∧ s.lRnw = true then List.replicate 33 BusCycle.z else []) ++
        List.replicate s.sTrn.toNat BusCycle.z ++
        (if s.sDpen = true ∧ s.lRnw = false then List.replicate 33 (BusCycle.w false) else []) := by
  unfold waitFaultCycles
  cases s.sDpen <;> cases s.lRnw <;> rfl

/-- Settles O34: the start, then `Started.ends_without_data` with the tail of WAIT and FAULT; the request and
the snapshot that the tail works from are the start's (`Ran.toDispatch`). -/
theorem waitAndFaultMoveNoData : Obligations.WaitAndFaultMoveNoData := by
  intro s i hi hb hleg
  obtain ⟨t, he, hst⟩ := exec_started hi hb
  refine ⟨t, he, fun hq hack => ?_⟩
  have hclass : comingClass t = .wait ∨ comingClass t = .fault :=
    hack.imp (fun h => by rw [comingClass, h]; rfl) (fun h => by rw [comingClass, h]; rfl)
  have hok : comingClass t ≠ .ok := by rcases hclass with hc | hc <;> simp [hc]
  have hran := Ran.toDispatch t
  have ht : 0 < (toDispatch t).sTrn.toNat := by rw [hran.sTrn]; exact hst.sTrn_pos hleg
  have hdispatch : ackDecode (toDispatch t).ack = .wait ∨ ackDecode (toDispatch t).ack = .fault := by
    rw [toDispatch_ack]; exact hclass
  have hsteps : transferSteps t = 8 + t.sTrn.toNat + 3 + (waitFaultSteps (toDispatch t) + 1) := by
    rw [transferSteps_of_waitFault hclass, waitFaultSteps, waitFaultSteps, hran.sTrn, hran.sDpen, hran.lRnw]
  obtain ⟨u, hu⟩ := hst.ends_without_data (hst.sTrn_pos hleg) hsteps hq hok
    (waitFaultTail_movesNoData _) (run_waitFaultTail ht (hran.busy.trans hst.busy) hdispatch)
  rw [waitFaultCycles_eq, hran.sTrn, hran.sDpen, hran.lRnw, hst.sTrn, hst.sDpen] at hu
  simp only [← List.append_assoc] at hu
  exact ⟨u, hu⟩

/-- Settles O35: the start, then `Started.ends_without_data` with the back-off as its tail. -/
theorem protocolErrorBacksOff : Obligations.ProtocolErrorBacksOff := by
  intro s i hi hb hleg
  obtain ⟨t, he, hst⟩ := exec_started hi hb
  refine ⟨t, he, fun hq h1 h2 h4 => ?_⟩
  have hclass : comingClass t = .protocolError := by
    rw [comingClass, ackDecode, if_neg h1, if_neg h2, if_neg h4]
  have hok : comingClass t ≠ .ok := by simp [hclass]
  have hran := Ran.toDispatch t
  have hdispatch : ackDecode (toDispatch t).ack = .protocolError := by
    rw [toDispatch_ack]; exact hclass
  have hsteps : transferSteps t = 8 + t.sTrn.toNat + 3 + ((toDispatch t).sTrn.toNat + 33 + 1) := by
    rw [transferSteps_of_protocolError hclass, hran.sTrn]
  obtain ⟨u, hu⟩ := hst.ends_without_data (hst.sTrn_pos hleg) hsteps hq hok
    (protocolErrorBackoff_movesNoData _) (run_protocolErrorBackoff (hran.busy.trans hst.busy) hdispatch)
  rw [hran.sTrn, hst.sTrn] at hu
  exact ⟨u, hu⟩

end Sys2Proof.Machine
end

section
/-! PROOFS. The machine's steps are the sequential view (46_transfers.md R188): the stretch after each class
of acknowledge, and the whole transfer. -/

namespace Sys2Proof.Machine

open Sys2Proof

/-! ### The stretches of the data phases -/

/-- The first n data samples (45_data_phase_sequencer.md R160). -/
def sampleBits (n : Nat) (s : State) : State := forN n (fun i s => sampleData i (lineLevel s) (pass s)) s

/-- The parity sample and its check (41_parity_unit.md R122). -/
def sampleParity (s : State) : State := checkParity (lineLevel s) (cycleR (lineLevel s) (pass s))

/-- The first n data cycles of a write (45_data_phase_sequencer.md R162). -/
def sendBits (n : Nat) (s : State) : State := forN n (fun i s => sendData i (pass s)) s

/-- SH takes the write data and PAR is cleared (R162). -/
def loaded (d : Data) (s : State) : State := { s with sh := d, par := false }

/-- The data and its parity on the wire. -/
def sendFrame (s : State) : State := stepW (sendBits 32 s).par (sendBits 32 s)

/-- A turnaround after which the host drives (43_turnaround_fsm.md R143). -/
def turnToHost (s : State) : State := enableOutput (turnaround s)

theorem readData_eq (s : State) : readData s = sampleParity (sampleBits 32 (clearParity s)) := rfl

/-- `WriteData()` where L_WDATA holds a value, which it does in every write (10_state.md R40). -/
theorem writeData_eq {s : State} {d : Data} (hd : s.lWdata = some d) :
    writeData s = .next (postOk (sendFrame (loaded d (turnToHost s)))) := by
  have keep : (turnToHost s).lWdata = some d := (Ran.turnaround s).lWdata.trans hd
  unfold writeData
  rw [show loadWriteData (enableOutput (turnaround s)) = .next (loaded d (turnToHost s)) from
    loadWriteData_eq keep]
  rfl

theorem SameTransfer.loaded (d : Data) (s : State) : SameTransfer s (loaded d s) := by constructor <;> rfl

theorem Ran.turnToHost (s : State) : Ran s.sTrn.toNat s (turnToHost s) :=
  (Ran.turnaround s).still (.enableOutput _)

theorem Ran.sampleBits (n : Nat) (s : State) : Ran n s (sampleBits n s) := .forN Ran.readSample n s

theorem Ran.readData (s : State) : Ran 33 s (readData s) :=
  (((Ran.refl s).still (.clearParity s)).trans (Ran.sampleBits 32 _)).trans (Ran.parityCheck _)

theorem Ran.sendBits (n : Nat) (s : State) : Ran n s (sendBits n s) := .forN Ran.writeBit n s

theorem Ran.sendFrame (s : State) : Ran 33 s (sendFrame s) := (Ran.sendBits 32 s).trans (Ran.stepW _ _)

/-! ### The machine's steps after the dispatch -/

/-- With a caller silent for n steps from s on, the machine's n steps from a answer o. -/
def Runs (n : Nat) (s a : State) (o : Answer) : Prop := quiet n s → run n a = o

/-- A stretch of m steps, then the rest. -/
theorem Runs.trans {m n : Nat} {s w a b : State} {o : Answer} (first : Runs m s a (.next b))
    (stretch : Ran m s w) (rest : Runs n w b o) : Runs (m + n) s a o := fun hq =>
  (run_from (first (quiet_le hq (Nat.le_add_right m n))) rfl).trans (rest (stretch.quiet hq))

/-- POST, the idle cycles and FINISH, after a stretch that keeps S_IDLE. -/
theorem runs_postOk {n m : Nat} {s w : State} (hran : Ran n s w) (hb : s.busy = true) (hi : s.sIdle.toNat = m) :
    Runs (2 + m) w (atCycle .post 0 w) (.next (complete (pass (postOk w)))) := by
  rw [← hi, ← hran.sIdle]
  exact run_postOk (hran.busy.trans hb)

/-- TRN2R, POST and FINISH. -/
theorem runs_readTail {s : State} (ht : 0 < s.sTrn.toNat) (hb : s.busy = true) :
    Runs (s.sTrn.toNat + (2 + s.sIdle.toNat)) s (atCycle .trn2r 0 s)
      (.next (complete (pass (readTail s)))) := by
  have hturn := Ran.turnToHost s
  have turn : Runs s.sTrn.toNat s (atCycle .trn2r 0 s) (.next (atCycle .post 0 (turnToHost s))) :=
    run_trn2r ht hb
  exact turn.trans hturn (runs_postOk hturn hb rfl)

/-- From the dispatch of a read on an OK acknowledge to completion (R160, R161, R163). -/
theorem runs_okRead {s : State} (ht : 0 < s.sTrn.toNat) (hb : s.busy = true) (hc : ackDecode s.ack = .ok)
    (hr : s.lRnw = true) :
    Runs (32 + (1 + (s.sTrn.toNat + (2 + s.sIdle.toNat)))) s (dispatchAck s)
      (.next (complete (pass (readTail (readData s))))) := by
  have hdispatch : dispatchAck s = atCycle .rdata 0 (clearParity s) := by
    unfold dispatchAck; rw [hc, hr]; rfl
  have hword := Ran.sampleBits 32 (clearParity s)
  have hdata := Ran.readData s
  have word : Runs 32 (clearParity s) (atCycle .rdata 0 (clearParity s))
      (.next (atCycle .rpar 0 (sampleBits 32 (clearParity s)))) := run_rdata hb
  have parity : Runs 1 (sampleBits 32 (clearParity s)) (atCycle .rpar 0 (sampleBits 32 (clearParity s)))
      (.next (atCycle .trn2r 0 (readData s))) := run_rpar (hword.busy.trans hb)
  have tail := runs_readTail (s := readData s) (by rwa [hdata.sTrn]) (hdata.busy.trans hb)
  rw [hdata.sTrn, hdata.sIdle] at tail
  rw [hdispatch]
  exact word.trans hword (parity.trans (Ran.parityCheck _) tail)

/-- WDATA, WPAR, POST and FINISH. -/
theorem runs_sendFrame {s : State} (hb : s.busy = true) :
    Runs (32 + (1 + (2 + s.sIdle.toNat))) s (atCycle .wdata 0 s)
      (.next (complete (pass (postOk (sendFrame s))))) := by
  have hword := Ran.sendBits 32 s
  have hframe := Ran.sendFrame s
  have word : Runs 32 s (atCycle .wdata 0 s) (.next (atCycle .wpar 0 (sendBits 32 s))) := run_wdata hb
  have parity : Runs 1 (sendBits 32 s) (atCycle .wpar 0 (sendBits 32 s))
      (.next (atCycle .post 0 (sendFrame s))) := run_wpar (hword.busy.trans hb)
  exact word.trans hword (parity.trans (Ran.stepW _ _) (runs_postOk hframe hb rfl))

/-- From the dispatch of a write on an OK acknowledge to completion (R162, R163). -/
theorem runs_okWrite {s : State} {d : Data} (ht : 0 < s.sTrn.toNat) (hb : s.busy = true)
    (hc : ackDecode s.ack = .ok) (hr : s.lRnw = false) (hd : s.lWdata = some d) :
    Runs (s.sTrn.toNat + (32 + (1 + (2 + s.sIdle.toNat)))) s (dispatchAck s)
      (.next (complete (pass (postOk (sendFrame (loaded d (turnToHost s))))))) := by
  have hdispatch : dispatchAck s = atCycle .trn2w 0 s := by unfold dispatchAck; rw [hc, hr]; rfl
  have hturn := (Ran.turnToHost s).still (.loaded d _)
  have turn : Runs s.sTrn.toNat s (atCycle .trn2w 0 s) (.next (atCycle .wdata 0 (loaded d (turnToHost s)))) :=
    run_trn2w hd ht hb
  have frame := runs_sendFrame (hturn.busy.trans hb)
  rw [hturn.sIdle] at frame
  rw [hdispatch]
  exact turn.trans hturn frame

/-! ### The whole transfer -/

/-- The part of `Transfer()` between the acknowledge and FINISH (R188). -/
def transferTail (s : State) : Answer :=
  match ackDecode s.ack with
  | .ok => if s.lRnw then .next (readTail (readData s)) else writeData s
  | .wait => .next (waitFaultTail s)
  | .fault => .next (waitFaultTail s)
  | .protocolError => .next (protocolErrorBackoff s)

theorem transfer_eq (s : State) :
    transfer s = andThen (transferTail (toDispatch s)) fun v => .next (complete (pass v)) := by
  unfold transfer transferTail toDispatch
  generalize ackPhase (turnaround (packetPhase s)) = u
  cases hc : ackDecode u.ack <;> simp only [hc]

/-- The steps of that part (R239). -/
def tailSteps (s : State) : Nat :=
  match ackDecode s.ack with
  | .ok => s.sTrn.toNat + 33 + (1 + s.sIdle.toNat)
  | .wait | .fault => waitFaultSteps s
  | .protocolError => s.sTrn.toNat + 33

/-- From the dispatch to completion the machine performs the rest of `Transfer()`. -/
theorem runs_transferTail {s : State} (ht : 0 < s.sTrn.toNat) (hb : s.busy = true)
    (hw : s.lWdata.isSome = !s.lRnw) :
    Runs (tailSteps s + 1) s (dispatchAck s)
      (andThen (transferTail s) fun v => .next (complete (pass v))) := by
  unfold tailSteps transferTail
  cases hc : ackDecode s.ack with
  | ok =>
    cases hr : s.lRnw with
    | true =>
      have h := runs_okRead ht hb hc hr
      rwa [show 32 + (1 + (s.sTrn.toNat + (2 + s.sIdle.toNat))) =
        s.sTrn.toNat + 33 + (1 + s.sIdle.toNat) + 1 by omega] at h
    | false =>
      obtain ⟨d, hd⟩ := Option.isSome_iff_exists.1 (hw.trans (congrArg not hr))
      have h := runs_okWrite ht hb hc hr hd
      rw [show s.sTrn.toNat + (32 + (1 + (2 + s.sIdle.toNat))) =
        s.sTrn.toNat + 33 + (1 + s.sIdle.toNat) + 1 by omega] at h
      simpa [writeData_eq hd] using h
  | wait => exact run_waitFaultTail ht hb (.inl hc)
  | fault => exact run_waitFaultTail ht hb (.inr hc)
  | protocolError => exact run_protocolErrorBackoff hb hc

/-- The steps of a transfer, up to the dispatch and after it (R239). -/
theorem transferSteps_eq (s : State) :
    transferSteps s = 8 + s.sTrn.toNat + 3 + (tailSteps (toDispatch s) + 1) := by
  have hran := Ran.toDispatch s
  have hwf : waitFaultSteps (toDispatch s) = waitFaultSteps s := by
    rw [waitFaultSteps, waitFaultSteps, hran.sTrn, hran.sDpen, hran.lRnw]
  have htail : tailSteps (toDispatch s) = match comingClass s with
      | .ok => s.sTrn.toNat + 33 + (1 + s.sIdle.toNat)
      | .wait | .fault => waitFaultSteps s
      | .protocolError => s.sTrn.toNat + 33 := by
    rw [tailSteps, toDispatch_ack, hran.sTrn, hran.sIdle, hwf]; rfl
  rw [htail]
  cases hc : comingClass s with
  | ok =>
    rw [transferSteps, transferCycles, hc]
    cases s.lRnw <;> simp [cycleCount] <;> omega
  | wait => exact transferSteps_of_waitFault (.inl hc)
  | fault => exact transferSteps_of_waitFault (.inr hc)
  | protocolError => exact transferSteps_of_protocolError hc

/-- A transfer in the first cycle of REQ, with a silent caller: its steps are `Transfer()` (R188). -/
theorem Started.runs_transfer {s t : State} (h : Started s t) (ht : 0 < t.sTrn.toNat)
    (hw : t.lWdata.isSome = !t.lRnw) : Runs (transferSteps t) t t (transfer t) := by
  have hran := Ran.toDispatch t
  have head : Runs (8 + t.sTrn.toNat + 3) t t (.next (dispatchAck (toDispatch t))) := by
    intro hq
    obtain ⟨hrun, -, -⟩ := run_head ht h.busy hq
    rwa [h.atReq] at hrun
  have tail := runs_transferTail (s := toDispatch t) (by rwa [hran.sTrn]) (hran.busy.trans h.busy)
    (by rw [hran.lWdata, hran.lRnw, hw])
  rw [transferSteps_eq, transfer_eq]
  exact head.trans hran tail

/-- A start accepted in s leaves the first cycle of REQ (R180). -/
theorem startTransfer_started {s : State} (hb : s.busy = false) (apndp rnw : Bool) (a : Select) (ts : Bool)
    (v : Option Data) : Started s (startTransfer apndp rnw a ts v s) := by
  rw [startTransfer_idle _ _ _ _ _ hb]
  constructor <;> rfl

section
variable {s : State} (apndp rnw ts : Bool) (a : Select) (v : Option Data) (h : s.busy = false)
include h

@[simp] theorem startTransfer_lRnw : (startTransfer apndp rnw a ts v s).lRnw = rnw := by
  rw [startTransfer_idle _ _ _ _ _ h]
@[simp] theorem startTransfer_lTs : (startTransfer apndp rnw a ts v s).lTs = ts := by
  rw [startTransfer_idle _ _ _ _ _ h]
@[simp] theorem startTransfer_lWdata : (startTransfer apndp rnw a ts v s).lWdata = v := by
  rw [startTransfer_idle _ _ _ _ _ h]
@[simp] theorem startTransfer_pkt :
    (startTransfer apndp rnw a ts v s).pkt = frame (reqNibble apndp rnw a) := by
  rw [startTransfer_idle _ _ _ _ _ h]

end

/-- Settles O30: the start (`exec_transfer`), the steps up to the dispatch (`run_head`), and the rest of
the path of each class of acknowledge (`runs_transferTail`). -/
theorem stepsPerformTheSequentialView : Obligations.StepsPerformTheSequentialView := by
  intro s i hi hb hleg
  obtain ⟨apndp, rnw, a, ts, v, hv, he⟩ := exec_transfer hi
  have hst := startTransfer_started hb apndp rnw a ts v
  have hw : (startTransfer apndp rnw a ts v s).lWdata.isSome = !(startTransfer apndp rnw a ts v s).lRnw := by
    rw [startTransfer_lWdata _ _ _ _ _ hb, startTransfer_lRnw _ _ _ _ _ hb, hv]
  exact ⟨_, he s, hst.runs_transfer (hst.sTrn_pos hleg) hw⟩

end Sys2Proof.Machine
end

section
/-! PROOFS. The start of a transfer (46_transfers.md R180): the request it latches, a start in flight, the
word that carries it on the ports, and a start beside a configuration write; and the completion (R182). -/

namespace Sys2Proof.Machine

open Sys2Proof

/-! ### The instructions -/

/-- Settles O11: both reads are a start with no write data (`startTransfer_idle`). -/
theorem readStartLatchesTheRequest : Obligations.ReadStartLatchesTheRequest := fun _ a ts hb =>
  ⟨congrArg Host.Outcome.next (startTransfer_idle false true a ts none hb),
    congrArg Host.Outcome.next (startTransfer_idle true true a ts none hb)⟩

/-- Settles O12: both writes are a start with their write data (`startTransfer_idle`). -/
theorem writeStartLatchesTheRequest : Obligations.WriteStartLatchesTheRequest := fun _ a ts v hb =>
  ⟨congrArg Host.Outcome.next (startTransfer_idle false false a ts (some v) hb),
    congrArg Host.Outcome.next (startTransfer_idle true false a ts (some v) hb)⟩

/-- Settles O13: each transfer operation is a start (`exec_transfer`), which in flight is its mark. -/
theorem startWhileBusyOnlyMarks : Obligations.StartWhileBusyOnlyMarks := by
  intro s i hb hi
  obtain ⟨apndp, rnw, a, ts, v, -, he⟩ := exec_transfer hi
  rw [he, startTransfer_busy _ _ _ _ _ hb]
  rfl

/-! ### The decoded instruction on the ports (log 13) -/

/-- Where nothing is read, what opens a step only takes the inputs and clears DONE. -/
theorem clearDone_openStep_of_no_reads {p : Inputs} (h : p.reads = []) (s : State) :
    clearDone (openStep p s) = base s := by
  rw [openStep, h, serveReads_nil]; rfl

theorem drivePorts_rst (w : PortWord) (p : Inputs) : (drivePorts w p).rst = false := by
  unfold drivePorts; cases w.strobe <;> rfl

theorem drivePorts_reads (w : PortWord) (p : Inputs) : (drivePorts w p).reads = [] := by
  unfold drivePorts; cases w.strobe <;> rfl

/-- The instruction on the ports that carry a word is the one the word decodes to. -/
theorem afterCaller_drivePorts {w : PortWord} {i : Instr} (h : decode w = .ok i) (p : Inputs) (s : State) :
    .next (afterCaller (drivePorts w p) s) = exec i (base s) := by
  rw [afterCaller, clearDone_openStep_of_no_reads (drivePorts_reads w p)]
  rcases decode_eq_ok h with ⟨b, hs, hw, high, rfl⟩ | ⟨lo, hi, hs, hw, -, rfl⟩
  · rw [← reqNibble_of_byte b high, exec_request]
    simp [afterStart, afterCfg, drivePorts, hs, hw]
  · obtain ⟨htrn, hidle, hdpen⟩ := cfgPorts_of_bytes lo hi
    rw [decodeCfgw, exec_cfg, ← htrn, ← hidle, ← hdpen]
    simp [afterStart, afterCfg, drivePorts, hs, hw]

/-- Settles O14: the caller's part of the step is the decoded instruction (`afterCaller_drivePorts`), and
the row follows where a transfer is in flight (`step_facing`). -/
theorem stepRunsTheDecodedInstruction : Obligations.StepRunsTheDecodedInstruction := by
  intro s w i h
  have hstep := step_facing (drivePorts w (currentInputs s)) s.inputs.tail s
  have hcaller := afterCaller_drivePorts h (currentInputs s)
    (facing (drivePorts w (currentInputs s)) s.inputs.tail s)
  change _ = exec i (base s) at hcaller
  rw [drivePorts_rst] at hstep
  rw [← hcaller]
  constructor
  · intro hb
    rw [hb] at hstep
    exact hstep
  · intro hb
    rw [hb] at hstep
    exact hstep

/-! ### A configuration write and a start in one step -/

/-- Settles O15: the configuration write runs first, legal or not (`writeConfig`), and the start then
snapshots the CFG it leaves (`startTransfer_idle`). -/
theorem startUsesTheConfigurationWrittenWithIt : Obligations.StartUsesTheConfigurationWrittenWithIt := by
  intro s p hrst hreads hwe hstart hb
  have hbase : (base s).busy = false := hb
  have hstep : step s = .next (afterStart p (afterCfg p (base s))) := by
    rw [← clearDone_openStep_of_no_reads hreads]
    unfold step
    rw [stepOn_eq, hb]
    exact if_neg (by simp [hrst, p])
  rw [afterCfg, if_pos hwe, afterStart, if_pos hstart] at hstep
  cases hleg : legalTrn p.cfgTrn with
  | true =>
    rw [writeConfig_legal hbase hleg, startTransfer_idle _ _ _ _ _ (by exact hb)] at hstep
    exact ⟨_, hstep, rfl, rfl, rfl, rfl, rfl, rfl, rfl, fun _ => ⟨rfl, rfl⟩, fun h => Bool.noConfusion h⟩
  | false =>
    rw [writeConfig_illegal hbase hleg, startTransfer_idle _ _ _ _ _ (by exact hb)] at hstep
    exact ⟨_, hstep, rfl, rfl, rfl, rfl, rfl, rfl, rfl, fun h => Bool.noConfusion h, fun _ => ⟨rfl, rfl⟩⟩

/-! ### The completion -/

/-- The code of a transfer's outcome: ParityMismatch where an OK read failed its check, and the
acknowledge's own pattern everywhere else (R88, R183). -/
theorem resultCode_outcome : ∀ (a : Ack) (rnw perr : Bool),
    resultCode (outcome a rnw perr) a =
      if a = 0b001#3 ∧ rnw = true ∧ perr = true then 0x8#4 else a.setWidth 4 := by decide

/-- OK is the pattern 0b001 (R151). -/
theorem ackDecode_eq_ok_iff {a : Ack} : ackDecode a = .ok ↔ a = 0b001#3 :=
  ⟨ack_of_ok, fun h => by rw [h]; rfl⟩

/-- Settles O29: FINISH is the completion (`complete_eq`), whose code is `resultCode_outcome`. -/
theorem completionReportsTheOutcome : Obligations.CompletionReportsTheOutcome := by
  intro s hf hp
  rw [step_inFlight hf, engineRow_finish (s := base s) hp, complete_eq, resultCode_outcome]
  simp only [ackDecode_eq_ok_iff]
  rfl

end Sys2Proof.Machine
end

section
/-! PROOFS. What the stretch after the acknowledge leaves (60_exceptions.md R202): the sampled word and its
check, the write data frame, the capture point and the idle cycles, and the tail of each class. -/

namespace Sys2Proof.Machine

open Sys2Proof

/-! ### The answer held for the completion -/

@[simp] theorem pass_sh (s : State) : (pass s).sh = s.sh := by rw [pass_eq]; rfl
@[simp] theorem pass_par (s : State) : (pass s).par = s.par := by rw [pass_eq]; rfl
@[simp] theorem pass_perr (s : State) : (pass s).perr = s.perr := by rw [pass_eq]; rfl
@[simp] theorem pass_lRnw (s : State) : (pass s).lRnw = s.lRnw := by rw [pass_eq]; rfl
@[simp] theorem pass_lTs (s : State) : (pass s).lTs = s.lTs := by rw [pass_eq]; rfl

/-- What a driven or released stretch keeps: what the completion reports, and who drives the line. -/
structure SameAnswer (s t : State) : Prop where
  ack : t.ack = s.ack
  sh : t.sh = s.sh
  perr : t.perr = s.perr
  oe : t.oe = s.oe

theorem SameAnswer.refl (s : State) : SameAnswer s s := ⟨rfl, rfl, rfl, rfl⟩

theorem SameAnswer.trans {s t u : State} (h : SameAnswer s t) (k : SameAnswer t u) : SameAnswer s u :=
  ⟨k.ack.trans h.ack, k.sh.trans h.sh, k.perr.trans h.perr, k.oe.trans h.oe⟩

theorem SameAnswer.forN {P : Nat → State → State} (h : ∀ i u, SameAnswer u (P i u)) (n : Nat)
    (s : State) : SameAnswer s (forN n P s) := by
  induction n with
  | zero => exact .refl s
  | succ k ih => exact ih.trans (h k _)

theorem SameAnswer.pass (s : State) : SameAnswer s (pass s) :=
  ⟨pass_ack s, pass_sh s, pass_perr s, pass_oe s⟩

theorem SameAnswer.stepW (b : Bool) (s : State) : SameAnswer s (stepW b s) :=
  (SameAnswer.pass s).trans ⟨rfl, rfl, rfl, rfl⟩

theorem SameAnswer.stepZ (s : State) : SameAnswer s (stepZ s) :=
  (SameAnswer.pass s).trans ⟨rfl, rfl, rfl, rfl⟩

theorem SameAnswer.writeBit (i : Nat) (s : State) : SameAnswer s (sendData i (Machine.pass s)) := by
  rw [sendData_eq]
  exact (SameAnswer.pass s).trans ⟨rfl, rfl, rfl, rfl⟩

theorem SameAnswer.turnaround (s : State) : SameAnswer s (turnaround s) := .forN (fun _ => .stepZ) _ s

theorem SameAnswer.sendBits (n : Nat) (s : State) : SameAnswer s (sendBits n s) := .forN .writeBit n s

theorem SameAnswer.sendFrame (s : State) : SameAnswer s (sendFrame s) :=
  (SameAnswer.sendBits 32 s).trans (.stepW _ _)

/-! ### The capture point and the idle cycles (45_data_phase_sequencer.md R163, R164) -/

/-- The step of POST. -/
def capture (s : State) : State := captureTime (currentInputs s).tsNow (pass s)

/-- The idle cycles, where there are any. -/
def padding (s : State) : State :=
  if s.sIdle = 0#8 then s else forN s.sIdle.toNat (fun _ => stepW false) (driveBit false s)

theorem postOk_eq (s : State) : postOk s = padding (capture s) := rfl

theorem capture_tsr (s : State) :
    (capture s).tsr = if s.lTs then some (upcoming 0 s).tsNow else s.tsr := by
  rw [capture, captureTime_eq, upcoming_zero, pass_lTs, pass_tsr]

theorem capture_trace (s : State) : (capture s).trace = s.trace := by
  rw [capture, captureTime_eq]; exact pass_trace s

theorem capture_swclk (s : State) : (capture s).swclk = s.swclk := by
  rw [capture, captureTime_eq]; exact pass_swclk s

theorem Ran.capture (s : State) : Ran 1 s (capture s) := (Ran.pass s).still (.captureTime _ _)

theorem SameAnswer.capture (s : State) : SameAnswer s (capture s) := by
  rw [Machine.capture, captureTime_eq]
  exact (SameAnswer.pass s).trans ⟨rfl, rfl, rfl, rfl⟩

/-- S_IDLE cycles driven low: none where S_IDLE is 0. -/
theorem padding_cases (s : State) :
    (s.sIdle.toNat = 0 ∧ padding s = s) ∨
      padding s = forN s.sIdle.toNat (fun _ => stepW false) (driveBit false s) := by
  unfold padding
  split
  · next h => exact .inl ⟨by rw [h]; rfl, rfl⟩
  · exact .inr rfl

theorem Ran.padding (s : State) : Ran s.sIdle.toNat s (padding s) := by
  rcases padding_cases s with ⟨hi, hp⟩ | hp <;> rw [hp]
  · rw [hi]; exact .refl s
  · have hdrive := (Ran.refl s).still (.driveBit false s)
    have hlow := hdrive.trans (.forN (fun _ u => .stepW false u) s.sIdle.toNat _)
    rwa [Nat.zero_add] at hlow

theorem Issues.padding (s : State) : Issues (List.replicate s.sIdle.toNat (.w false)) s (padding s) := by
  rcases padding_cases s with ⟨hi, hp⟩ | hp <;> rw [hp]
  · rw [hi]; exact .nothing rfl rfl rfl
  · exact (Issues.driveBit false s).trans (.replicate (Issues.stepW false) _ _)

theorem SameAnswer.padding (s : State) : SameAnswer s (padding s) := by
  rcases padding_cases s with ⟨-, hp⟩ | hp <;> rw [hp]
  · exact .refl s
  · have hdrive : SameAnswer s (driveBit false s) := ⟨rfl, rfl, rfl, rfl⟩
    exact hdrive.trans (.forN (fun _ => .stepW false) _ _)

theorem Ran.postOk (s : State) : Ran (1 + s.sIdle.toNat) s (postOk s) := by
  have hcapture := Ran.capture s
  rw [postOk_eq, ← hcapture.sIdle]
  exact hcapture.trans (Ran.padding _)

theorem SameAnswer.postOk (s : State) : SameAnswer s (postOk s) :=
  (SameAnswer.capture s).trans (.padding _)

/-! ### The sampled word -/

/-- The word whose bits are the 32 levels from step k on. -/
def levelWord (k : Nat) (s : State) : Data := BitVec.ofFnLE fun i : Fin 32 => level (k + i) s

theorem getLsbD_levelWord (k : Nat) (s : State) {j : Nat} (hj : j < 32) :
    (levelWord k s).getLsbD j = level (k + j) s := by
  rw [levelWord, BitVec.getLsbD_ofFnLE, dif_pos hj]

/-- The level on the line after m steps is the one m steps from now. -/
theorem Ran.lineLevel {m : Nat} {s t : State} (h : Ran m s t) : lineLevel t = level m s := by
  rw [Machine.lineLevel, ← level_zero, level, h.upcoming]; rfl

theorem sampleBits_succ (k : Nat) (s : State) :
    sampleBits (k + 1) s = sampleData k (level k s) (pass (sampleBits k s)) := by
  rw [← (Ran.sampleBits k s).lineLevel]; rfl

/-- SH after k samples (R160). -/
theorem getLsbD_sampleBits_sh (s : State) {k : Nat} (hk : k ≤ 32) (j : Nat) :
    (sampleBits k s).sh.getLsbD j = if j < k then level j s else s.sh.getLsbD j := by
  induction k with
  | zero => rfl
  | succ k ih =>
    rw [sampleBits_succ, sampleData_eq]
    show (putBit (pass (sampleBits k s)).sh k (level k s)).getLsbD j = _
    rw [getLsbD_putBit _ _ _ _ (by omega), pass_sh, ih (by omega)]
    by_cases hj : j = k
    · subst hj; simp
    · simp only [if_neg hj, show j < k + 1 ↔ j < k by omega]

/-- PAR after k samples is the parity of the bits sampled so far (41_parity_unit.md R123). -/
theorem sampleBits_par {s : State} (hpar : s.par = false) {k : Nat} (hk : k ≤ 32) :
    (sampleBits k s).par = parityBelow k (sampleBits k s).sh := by
  induction k with
  | zero => exact hpar
  | succ k ih =>
    rw [sampleBits_succ, sampleData_eq]
    show xor (pass (sampleBits k s)).par (level k s) =
      parityBelow (k + 1) (putBit (pass (sampleBits k s)).sh k (level k s))
    rw [parityBelow_putBit _ _ _ (by omega), pass_par, pass_sh, ih (by omega)]

theorem sampleBits_ack (k : Nat) (s : State) : (sampleBits k s).ack = s.ack :=
  forN_keeps State.ack (fun i s => sampleData i (lineLevel s) (pass s)) (fun _ u => pass_ack u) k s

theorem Issues.sampleBits (n : Nat) (s : State) : Issues (sampledCycles 0 n s) s (sampleBits n s) := by
  refine .forN fun i => ?_
  rw [Nat.zero_add, ← (Ran.sampleBits i s).lineLevel]
  exact (Issues.pass _).trans (.cycle rfl rfl rfl)

/-- The cycle of RPAR keeps the word and the acknowledge, and checks PAR against the level (R122). -/
theorem sampleParity_answer (s : State) :
    (sampleParity s).sh = s.sh ∧ (sampleParity s).ack = s.ack ∧
      (sampleParity s).perr = (s.par != lineLevel s) :=
  ⟨pass_sh s, pass_ack s, congrArg (· != lineLevel s) (pass_par s)⟩

theorem Issues.sampleParity (s : State) : Issues [.r (lineLevel s)] s (sampleParity s) :=
  (Issues.pass s).trans (.cycle rfl rfl rfl)

/-- The coming levels do not depend on PAR. -/
theorem level_clearParity (k : Nat) (s : State) : level k (clearParity s) = level k s := rfl

theorem sampledCycles_succ (k n : Nat) (s : State) :
    sampledCycles k (n + 1) s = sampledCycles k n s ++ [.r (level (k + n) s)] := by
  simp [sampledCycles, List.range_succ]

/-- What `ReadData()` leaves: the word of the 32 levels, and its check against the 33rd (R122, R160). -/
theorem readData_answer (s : State) :
    (readData s).sh = levelWord 0 s ∧ (readData s).ack = s.ack ∧
      (readData s).perr = (parity32 (levelWord 0 s) != level 32 s) := by
  have hword : (sampleBits 32 (clearParity s)).sh = levelWord 0 s := by
    apply BitVec.eq_of_getLsbD_eq
    intro j hj
    rw [getLsbD_sampleBits_sh _ (Nat.le_refl 32), if_pos hj, getLsbD_levelWord _ _ hj, Nat.zero_add,
      level_clearParity]
  have hpar := sampleBits_par (clearParity_par s) (Nat.le_refl 32)
  obtain ⟨hsh, hack, hperr⟩ := sampleParity_answer (sampleBits 32 (clearParity s))
  rw [(Ran.sampleBits 32 _).lineLevel, level_clearParity, hpar, hword] at hperr
  rw [readData_eq]
  exact ⟨hsh.trans hword, hack.trans (sampleBits_ack 32 _), hperr⟩

/-- The 33 cycles of a read data phase on the wire (R160). -/
theorem Issues.readData (s : State) : Issues (sampledCycles 0 33 s) s (readData s) := by
  have hword := Issues.sampleBits 32 (clearParity s)
  have hparity := Issues.sampleParity (Machine.sampleBits 32 (clearParity s))
  rw [(Ran.sampleBits 32 _).lineLevel] at hparity
  have hread := hword.trans hparity
  rw [← Nat.zero_add 32, ← sampledCycles_succ] at hread
  rw [readData_eq]
  exact Issues.trans (.nothing (clearParity_trace s) (clearParity_swclk s) (clearParity_tsr s)) hread

/-! ### The write data frame (R87, R162) -/

theorem sendBits_succ (k : Nat) (s : State) : sendBits (k + 1) s = sendData k (pass (sendBits k s)) := rfl

/-- PAR after k data cycles is the parity of the bits driven so far (R123). -/
theorem sendBits_par {s : State} (hpar : s.par = false) (k : Nat) :
    (sendBits k s).par = parityBelow k s.sh := by
  induction k with
  | zero => exact hpar
  | succ k ih =>
    rw [sendBits_succ, sendData_eq, parityBelow_succ, pass_par, pass_sh, (SameAnswer.sendBits k s).sh, ih]

theorem Issues.writeBit (i : Nat) (s : State) :
    Issues [.w (s.sh.getLsbD i)] s (sendData i (Machine.pass s)) := by
  rw [sendData_eq, pass_sh]
  exact (Issues.pass s).trans (.cycle rfl rfl rfl)

theorem Issues.sendBits (n : Nat) (s : State) :
    Issues ((List.range n).map fun i => .w (s.sh.getLsbD i)) s (sendBits n s) :=
  .forN fun i => (SameAnswer.sendBits i s).sh ▸ Issues.writeBit i (Machine.sendBits i s)

/-- The frame that a loaded word d puts on the wire. -/
theorem Issues.sendFrame (d : Data) (s : State) : Issues (writeFrame d) s (sendFrame (loaded d s)) := by
  have load : Issues [] s (loaded d s) := .nothing rfl rfl rfl
  have word := Issues.sendBits 32 (loaded d s)
  have parity : Issues [.w (Machine.sendBits 32 (loaded d s)).par] (Machine.sendBits 32 (loaded d s))
      (Machine.sendFrame (loaded d s)) := .stepW _ _
  rw [sendBits_par (s := loaded d s) rfl] at parity
  exact load.trans (word.trans parity)

end Sys2Proof.Machine
end

section
/-! PROOFS. The end of a transfer (46_transfers.md R182 to R189, 60_exceptions.md R202): what the path of each
class of acknowledge leaves for the completion, what the completion reports, and that nothing but the
request, the snapshot, the samples and the time at the capture point decides it. -/

namespace Sys2Proof.Machine

open Sys2Proof

/-! ### The tail of each class -/

/-- The tail from the dispatch in s to FINISH in v, with the records c: the capture on an OK acknowledge
alone, the word and its check after an OK read, and the host driving the line (R160 to R170). -/
structure TailEnds (c : List BusCycle) (s v : State) : Prop where
  ran : Ran (tailSteps s) s v
  trace : v.trace = s.trace ++ c
  clock : s.swclk = true → v.swclk = true
  ack : v.ack = s.ack
  oe : v.oe = true
  tsr : v.tsr = if ackDecode s.ack = .ok ∧ s.lTs = true then some (upcoming (s.sTrn.toNat + 33) s).tsNow
    else s.tsr
  word : ackDecode s.ack = .ok → s.lRnw = true →
    v.sh = levelWord 0 s ∧ v.perr = (parity32 (levelWord 0 s) != level 32 s)

/-- The tail of an OK acknowledge, once its data phase and its turnaround are over in w. -/
theorem TailEnds.of_postOk {c : List BusCycle} {s w : State} (hok : ackDecode s.ack = .ok)
    (ran : Ran (s.sTrn.toNat + 33) s w) (issues : Issues c s w) (ack : w.ack = s.ack) (oe : w.oe = true)
    (word : s.lRnw = true → w.sh = levelWord 0 s ∧ w.perr = (parity32 (levelWord 0 s) != level 32 s)) :
    TailEnds (c ++ List.replicate s.sIdle.toNat (.w false)) s (postOk w) := by
  have hran := ran.trans (Ran.postOk w)
  have hkeep := SameAnswer.postOk w
  have hpad := Issues.padding (capture w)
  rw [(Ran.capture w).sIdle, ran.sIdle, ← postOk_eq] at hpad
  rw [ran.sIdle] at hran
  exact {
    ran := by rw [tailSteps, hok]; exact hran
    trace := by rw [hpad.trace, capture_trace, issues.trace, List.append_assoc]
    clock := fun h => hpad.clock (.inl ((capture_swclk w).trans (issues.clock (.inl h))))
    ack := hkeep.ack.trans ack
    oe := hkeep.oe.trans oe
    tsr := by rw [hpad.tsr, capture_tsr, ran.upcoming, ran.lTs, issues.tsr]; simp [hok]
    word := fun _ hr => by rw [hkeep.sh, hkeep.perr]; exact word hr }

/-- The tail of an OK read: the data phase, then the turnaround (R160, R161). -/
theorem tailEnds_okRead {s : State} (hok : ackDecode s.ack = .ok) :
    TailEnds (sampledCycles 0 33 s ++ List.replicate s.sTrn.toNat .z ++ List.replicate s.sIdle.toNat (.w false))
      s (readTail (readData s)) := by
  have hdata := Ran.readData s
  have hran := hdata.trans (Ran.turnToHost _)
  have hturn := Issues.turnaround (readData s)
  obtain ⟨hsh, hack, hperr⟩ := readData_answer s
  have hkeep := SameAnswer.turnaround (readData s)
  rw [hdata.sTrn, Nat.add_comm] at hran
  rw [hdata.sTrn] at hturn
  exact .of_postOk hok hran (((Issues.readData s).trans hturn).still (.enableOutput _))
    ((enableOutput_ack _).trans (hkeep.ack.trans hack)) (enableOutput_oe _)
    fun _ => ⟨(enableOutput_sh _).trans (hkeep.sh.trans hsh),
      (enableOutput_perr _).trans (hkeep.perr.trans hperr)⟩

/-- The tail of an OK write: the turnaround, then the frame (R162). -/
theorem tailEnds_okWrite {s : State} (hok : ackDecode s.ack = .ok) (hr : s.lRnw = false) (d : Data) :
    TailEnds (List.replicate s.sTrn.toNat .z ++ writeFrame d ++ List.replicate s.sIdle.toNat (.w false))
      s (postOk (sendFrame (loaded d (turnToHost s)))) := by
  have hran := ((Ran.turnToHost s).still (.loaded d _)).trans (Ran.sendFrame _)
  have hissues := ((Issues.turnaround s).still (.enableOutput _)).trans (Issues.sendFrame d _)
  have hkeep := SameAnswer.sendFrame (loaded d (turnToHost s))
  exact .of_postOk hok hran hissues (hkeep.ack.trans (turnaround_ack s)) hkeep.oe
    fun h => absurd h (by simp [hr])

/-- The tail of any other class moves no data (R169, R170). -/
theorem MovesNoData.tailEnds {c : List BusCycle} {s v : State} (h : MovesNoData (tailSteps s) c s v)
    (hok : ackDecode s.ack ≠ .ok) : TailEnds c s v where
  ran := h.ran
  trace := h.issues.trace
  clock hs := h.issues.clock (.inl hs)
  ack := h.ack
  oe := h.oe
  tsr := by rw [h.issues.tsr, if_neg fun hc => hok hc.1]
  word hc := absurd hc hok

/-- The levels to come, seen m steps earlier. -/
theorem levelWord_ran {m : Nat} {s t : State} (h : Ran m s t) (k : Nat) :
    levelWord k t = levelWord (m + k) s := by
  simp only [levelWord, level, h.upcoming, Nat.add_assoc]

theorem sampledCycles_ran {m : Nat} {s t : State} (h : Ran m s t) (k n : Nat) :
    sampledCycles k n t = sampledCycles (m + k) n s := by
  simp only [sampledCycles, level, h.upcoming, Nat.add_assoc]

/-- The tail of a transfer ends, with the records of R239's path. -/
theorem transferTail_ends (t : State) (hw : t.lWdata.isSome = !t.lRnw) :
    ∃ v, transferTail (toDispatch t) = .next v ∧
      TailEnds (tailCycles (t.lWdata.getD 0#32) t) (toDispatch t) v := by
  have hran := Ran.toDispatch t
  have hsamples := sampledCycles_ran hran 0 33
  have hclass : ackDecode (toDispatch t).ack = comingClass t := congrArg ackDecode (toDispatch_ack t)
  rw [show 8 + t.sTrn.toNat + 3 + 0 = 11 + t.sTrn.toNat by omega] at hsamples
  unfold transferTail tailCycles
  rw [hclass, hran.lRnw]
  cases hc : comingClass t with
  | ok =>
    rw [hc] at hclass
    cases hr : t.lRnw with
    | true =>
      have h := tailEnds_okRead hclass
      rw [hsamples, hran.sTrn, hran.sIdle] at h
      exact ⟨_, rfl, h⟩
    | false =>
      obtain ⟨d, hd⟩ := Option.isSome_iff_exists.1 (hw.trans (congrArg not hr))
      have h := tailEnds_okWrite hclass (hran.lRnw.trans hr) d
      rw [hran.sTrn, hran.sIdle] at h
      rw [hd]
      exact ⟨_, writeData_eq (hran.lWdata.trans hd), h⟩
  | wait | fault =>
    rw [hc] at hclass
    have h := waitFaultTail_movesNoData (toDispatch t)
    rw [show waitFaultSteps (toDispatch t) = tailSteps (toDispatch t) by rw [tailSteps, hclass]] at h
    have hends := h.tailEnds (by simp [hclass])
    rw [waitFaultCycles, hran.sTrn, hran.sDpen, hran.lRnw] at hends
    refine ⟨_, rfl, ?_⟩
    cases hdp : t.sDpen <;> cases hrnw : t.lRnw <;> rw [hdp, hrnw] at hends <;> exact hends
  | protocolError =>
    rw [hc] at hclass
    have h := protocolErrorBackoff_movesNoData (toDispatch t)
    rw [show (toDispatch t).sTrn.toNat + 33 = tailSteps (toDispatch t) by rw [tailSteps, hclass]] at h
    have hends := h.tailEnds (by simp [hclass])
    rw [show tailSteps (toDispatch t) = t.sTrn.toNat + 33 by rw [tailSteps, hclass, hran.sTrn],
      List.replicate_add] at hends
    exact ⟨_, rfl, hends⟩

/-! ### The end of a transfer -/

/-- The word an OK read is about to sample, from the state a start leaves (R160). -/
def comingWord (t : State) : Data := levelWord (11 + t.sTrn.toNat) t

/-- The result code of the transfer a start has begun: ParityMismatch where the word of an OK read fails its
check, and the acknowledge's pattern everywhere else (R88, R183). -/
def comingResult (t : State) : BitVec 4 :=
  if comingClass t = .ok ∧ t.lRnw = true ∧ parity32 (comingWord t) ≠ level (43 + t.sTrn.toNat) t then 0x8#4
  else (comingAck t).setWidth 4

/-- RDATA after it (R31). -/
def comingRdata (t : State) : Option Data :=
  if comingClass t = .ok ∧ t.lRnw = true then some (comingWord t) else none

/-- u is the end of the transfer that a start accepted in s has begun in t (R202). -/
structure Ends (s t u : State) : Prop where
  trace : u.trace = s.trace ++ transferTrace (t.lWdata.getD 0#32) t
  ackRaw : u.ackRaw = some (comingAck t)
  result : u.result = some (comingResult t)
  rdata : u.rdata = comingRdata t
  tsr : u.tsr = if comingClass t = .ok ∧ t.lTs = true then some (upcoming (44 + 2 * t.sTrn.toNat) t).tsNow
    else s.tsr
  cfg : u.cfg = s.cfg
  faults : u.faults = s.faults
  posture : idlePosture u

/-- With a silent caller, the steps of a transfer run to its end. -/
theorem Started.run_ends {s t : State} (h : Started s t) (ht : 0 < t.sTrn.toNat)
    (hw : t.lWdata.isSome = !t.lRnw) (hq : quiet (transferSteps t) t) :
    ∃ u, run (transferSteps t) t = .next u ∧ Ends s t u := by
  obtain ⟨v, hv, tail⟩ := transferTail_ends t hw
  have hrun := h.runs_transfer ht hw hq
  rw [transfer_eq, hv, andThen_next] at hrun
  have hran := Ran.toDispatch t
  have hhead := Issues.toDispatch t
  have hclass : ackDecode (toDispatch t).ack = comingClass t := congrArg ackDecode (toDispatch_ack t)
  have hack : (pass v).ack = comingAck t := by rw [pass_ack, tail.ack, toDispatch_ack]
  have hrnw : (pass v).lRnw = t.lRnw := by rw [pass_lRnw, tail.ran.lRnw, hran.lRnw]
  have hword : comingClass t = .ok → t.lRnw = true →
      (pass v).sh = comingWord t ∧
        (pass v).perr = (parity32 (comingWord t) != level (43 + t.sTrn.toNat) t) := by
    intro hok hr
    obtain ⟨hsh, hperr⟩ := tail.word (hclass.trans hok) (hran.lRnw.trans hr)
    have hlevel : level 32 (toDispatch t) = level (43 + t.sTrn.toNat) t := by
      rw [level, hran.upcoming, show 8 + t.sTrn.toNat + 3 + 32 = 43 + t.sTrn.toNat by omega]; rfl
    rw [levelWord_ran hran, show 8 + t.sTrn.toNat + 3 + 0 = 11 + t.sTrn.toNat by omega] at hsh hperr
    rw [hlevel] at hperr
    exact ⟨(pass_sh v).trans hsh, (pass_perr v).trans hperr⟩
  refine ⟨_, hrun, ?_⟩
  exact {
    trace := by
      show (pass v).trace = _
      rw [pass_trace, tail.trace, hhead.trace, h.trace, transferTrace]
      simp only [List.append_assoc]
    ackRaw := by rw [complete_ackRaw, hack]
    result := by
      rw [complete_result, hack, hrnw, resultCode_outcome, comingResult, comingClass]
      by_cases hread : comingAck t = 0b001#3 ∧ t.lRnw = true
      · obtain ⟨-, hperr⟩ := hword (by rw [comingClass, hread.1]; rfl) hread.2
        simp only [hperr, bne_iff_ne, ackDecode_eq_ok_iff]
      · rw [if_neg fun hc => hread ⟨hc.1, hc.2.1⟩, if_neg fun hc => hread ⟨ack_of_ok hc.1, hc.2.1⟩]
    rdata := by
      rw [complete_rdata, hack, hrnw, comingRdata, comingClass]
      by_cases hread : ackDecode (comingAck t) = .ok ∧ t.lRnw = true
      · rw [if_pos hread, if_pos hread, (hword hread.1 hread.2).1]
      · rw [if_neg hread, if_neg hread]
    tsr := by
      rw [complete_tsr, pass_tsr, tail.tsr, hclass, hran.lTs, hran.upcoming, hran.sTrn, hhead.tsr, h.tsr,
        show 8 + t.sTrn.toNat + 3 + (t.sTrn.toNat + 33) = 44 + 2 * t.sTrn.toNat by omega]
    cfg := by rw [complete_cfg, (Ran.pass v).cfg, tail.ran.cfg, hran.cfg, h.cfg]
    faults := (run_quiet_faults hq hrun).trans h.faults
    posture :=
      ⟨(pass_swclk v).trans (tail.clock (hhead.clock (.inr (by simp [packetCycles])))),
        (pass_oe v).trans tail.oe, rfl⟩ }

/-- With no transfer in flight and a legal CFG, a started transfer runs to its end. -/
theorem startTransfer_run_ends {s : State} (hb : s.busy = false) (hleg : legalTrn s.cfg.trn = true)
    {apndp rnw : Bool} {a : Select} {ts : Bool} {v : Option Data} (hv : v.isSome = !rnw)
    (hq : quiet (transferSteps (startTransfer apndp rnw a ts v s)) (startTransfer apndp rnw a ts v s)) :
    ∃ u, run (transferSteps (startTransfer apndp rnw a ts v s)) (startTransfer apndp rnw a ts v s) = .next u ∧
      Ends s (startTransfer apndp rnw a ts v s) u := by
  have hst := startTransfer_started hb apndp rnw a ts v
  refine hst.run_ends (hst.sTrn_pos hleg) ?_ hq
  rw [startTransfer_lWdata _ _ _ _ _ hb, startTransfer_lRnw _ _ _ _ _ hb, hv]

/-- Settles O32: the end of the transfer (`startTransfer_run_ends`) with an OK acknowledge and a read. -/
theorem okReadDeliversTheWord : Obligations.OkReadDeliversTheWord := by
  intro s a ts i hi hb hleg
  obtain ⟨apndp, he⟩ : ∃ apndp, exec i s = .next (startTransfer apndp true a ts none s) := by
    rcases hi with rfl | rfl
    · exact ⟨false, rfl⟩
    · exact ⟨true, rfl⟩
  refine ⟨_, he, fun hq hack => ?_⟩
  obtain ⟨u, hrun, hends⟩ := startTransfer_run_ends hb hleg rfl hq
  have hrnw := startTransfer_lRnw apndp true ts a none hb
  have hts := startTransfer_lTs apndp true ts a none hb
  have htrn := startTransfer_sTrn apndp true ts a none hb
  generalize startTransfer apndp true a ts none s = t at *
  have hok : comingClass t = .ok := by rw [comingClass, hack]; rfl
  refine ⟨u, comingWord t, hrun, fun j hj => ?_, ?_, ?_, ?_, ?_, hends.cfg, hends.faults⟩
  · rw [comingWord, getLsbD_levelWord _ _ hj, htrn]
  · rw [hends.rdata, comingRdata, if_pos ⟨hok, hrnw⟩]
  · rw [hends.ackRaw, hack]
  · rw [hends.result, comingResult, hack, htrn]
    simp [hok, hrnw]
  · rw [hends.tsr, hts, htrn]
    simp [hok]

/-- The acknowledge cycles are the acknowledge, bit 0 first (R85). -/
theorem sampledCycles_comingAck (t : State) :
    sampledCycles (8 + t.sTrn.toNat) 3 t =
      (List.range 3).map fun i => .r ((comingAck t).getLsbD i) := by
  have bits : ∀ b0 b1 b2 : Bool, (List.range 3).map (fun i =>
      BusCycle.r ((BitVec.ofBool b2 ++ (BitVec.ofBool b1 ++ BitVec.ofBool b0) : Ack).getLsbD i)) =
      [.r b0, .r b1, .r b2] := by decide
  rw [comingAck, bits]; rfl

/-- Settles O33: the end of the transfer (`startTransfer_run_ends`) with an OK acknowledge and a write. -/
theorem okWriteSendsTheWord : Obligations.OkWriteSendsTheWord := by
  intro s a ts d i hi hb hleg
  obtain ⟨apndp, he⟩ : ∃ apndp, exec i s = .next (startTransfer apndp false a ts (some d) s) := by
    rcases hi with rfl | rfl
    · exact ⟨false, rfl⟩
    · exact ⟨true, rfl⟩
  refine ⟨_, he, fun hq hack => ?_⟩
  obtain ⟨u, hrun, hends⟩ := startTransfer_run_ends hb hleg rfl hq
  have hrnw := startTransfer_lRnw apndp false ts a (some d) hb
  have hts := startTransfer_lTs apndp false ts a (some d) hb
  have hwdata := startTransfer_lWdata apndp false ts a (some d) hb
  have htrn := startTransfer_sTrn apndp false ts a (some d) hb
  have hidle := startTransfer_sIdle apndp false ts a (some d) hb
  generalize startTransfer apndp false a ts (some d) s = t at *
  have hok : comingClass t = .ok := by rw [comingClass, hack]; rfl
  refine ⟨u, hrun, ?_, ?_, ?_, ?_, ?_, hends.cfg, hends.faults⟩
  · have htail : tailCycles d t = List.replicate s.cfg.trn.toNat .z ++ writeFrame d ++
        List.replicate s.cfg.idle.toNat (.w false) := by
      rw [tailCycles, hok, hrnw, htrn, hidle]; rfl
    have hcycles : sampledCycles (8 + t.sTrn.toNat) 3 t = [.r true, .r false, .r false] := by
      rw [sampledCycles_comingAck, hack]; rfl
    rw [hends.trace, hwdata, Option.getD_some, transferTrace, htail, hcycles, htrn]
    simp only [List.append_assoc]
  · rw [hends.rdata, comingRdata, if_neg (by simp [hrnw])]
  · rw [hends.ackRaw, hack]
  · rw [hends.result, comingResult, if_neg (by simp [hrnw]), hack]; rfl
  · rw [hends.tsr, hts, htrn]
    simp [hok]

end Sys2Proof.Machine
end

section
/-! PROOFS. What decides the observation of a transfer (46_transfers.md R189): the request, the snapshot, the
samples and the time at the capture point. -/

namespace Sys2Proof.Machine

open Sys2Proof

/-- Two transfers just begun with one request, one snapshot, and the same samples to come (R189). -/
structure Alike (t t' : State) : Prop where
  pkt : t'.pkt = t.pkt
  lRnw : t'.lRnw = t.lRnw
  lTs : t'.lTs = t.lTs
  lWdata : t'.lWdata = t.lWdata
  sTrn : t'.sTrn = t.sTrn
  sIdle : t'.sIdle = t.sIdle
  sDpen : t'.sDpen = t.sDpen
  ack : comingAck t' = comingAck t
  data : comingClass t = .ok → t.lRnw = true →
    ∀ k, k < 33 → level (11 + t.sTrn.toNat + k) t' = level (11 + t.sTrn.toNat + k) t

/-- One request started under one snapshot. -/
theorem startTransfer_alike {s s' : State} (hb : s.busy = false) (hb' : s'.busy = false)
    (htrn : s'.cfg.trn = s.cfg.trn) (hidle : s'.cfg.idle = s.cfg.idle) (hdpen : s'.cfg.dpen = s.cfg.dpen)
    {apndp rnw : Bool} {a : Select} {ts : Bool} {v : Option Data}
    (hack : comingAck (startTransfer apndp rnw a ts v s') = comingAck (startTransfer apndp rnw a ts v s))
    (hdata : comingClass (startTransfer apndp rnw a ts v s) = .ok →
      (startTransfer apndp rnw a ts v s).lRnw = true → ∀ k, k < 33 →
        level (11 + s.cfg.trn.toNat + k) (startTransfer apndp rnw a ts v s') =
          level (11 + s.cfg.trn.toNat + k) (startTransfer apndp rnw a ts v s)) :
    Alike (startTransfer apndp rnw a ts v s) (startTransfer apndp rnw a ts v s') where
  pkt := by rw [startTransfer_pkt _ _ _ _ _ hb, startTransfer_pkt _ _ _ _ _ hb']
  lRnw := by rw [startTransfer_lRnw _ _ _ _ _ hb, startTransfer_lRnw _ _ _ _ _ hb']
  lTs := by rw [startTransfer_lTs _ _ _ _ _ hb, startTransfer_lTs _ _ _ _ _ hb']
  lWdata := by rw [startTransfer_lWdata _ _ _ _ _ hb, startTransfer_lWdata _ _ _ _ _ hb']
  sTrn := by rw [startTransfer_sTrn _ _ _ _ _ hb, startTransfer_sTrn _ _ _ _ _ hb', htrn]
  sIdle := by rw [startTransfer_sIdle _ _ _ _ _ hb, startTransfer_sIdle _ _ _ _ _ hb', hidle]
  sDpen := by rw [startTransfer_sDpen _ _ _ _ _ hb, startTransfer_sDpen _ _ _ _ _ hb', hdpen]
  ack := hack
  data := by rw [startTransfer_sTrn _ _ _ _ _ hb]; exact hdata

section
variable {t t' : State} (h : Alike t t')
include h

theorem Alike.comingClass : comingClass t' = comingClass t := congrArg ackDecode h.ack

/-- The step counts agree (R239). -/
theorem Alike.transferSteps : transferSteps t' = transferSteps t := by
  rw [Machine.transferSteps, Machine.transferSteps, transferCycles, transferCycles, h.comingClass, h.lRnw,
    h.sDpen, h.sTrn, h.sIdle]

/-- The acknowledge on the wire. -/
theorem Alike.ackCycles :
    sampledCycles (8 + t.sTrn.toNat) 3 t' = sampledCycles (8 + t.sTrn.toNat) 3 t := by
  have ht' := sampledCycles_comingAck t'
  rwa [h.sTrn, h.ack, ← sampledCycles_comingAck] at ht'

/-- The read data phase on the wire. -/
theorem Alike.dataCycles (hok : Machine.comingClass t = .ok) (hr : t.lRnw = true) :
    sampledCycles (11 + t.sTrn.toNat) 33 t' = sampledCycles (11 + t.sTrn.toNat) 33 t :=
  List.map_congr_left fun k hk => congrArg BusCycle.r (h.data hok hr k (List.mem_range.1 hk))

theorem Alike.tailCycles (d : Data) : tailCycles d t' = tailCycles d t := by
  rw [Machine.tailCycles, Machine.tailCycles, h.comingClass, h.lRnw, h.sTrn, h.sIdle, h.sDpen]
  cases hc : Machine.comingClass t with
  | ok =>
    cases hr : t.lRnw with
    | true => rw [h.dataCycles hc hr]
    | false => rfl
  | wait | fault | protocolError => rfl

/-- The whole traces agree. -/
theorem Alike.transferTrace (d : Data) : transferTrace d t' = transferTrace d t := by
  rw [Machine.transferTrace, Machine.transferTrace, h.pkt, h.sTrn, h.ackCycles, h.tailCycles]

theorem Alike.comingWord (hok : Machine.comingClass t = .ok) (hr : t.lRnw = true) :
    comingWord t' = comingWord t := by
  apply BitVec.eq_of_getLsbD_eq
  intro j hj
  rw [Machine.comingWord, Machine.comingWord, getLsbD_levelWord _ _ hj, getLsbD_levelWord _ _ hj, h.sTrn,
    h.data hok hr j (by omega)]

/-- The outcomes agree. -/
theorem Alike.comingResult : comingResult t' = comingResult t := by
  rw [Machine.comingResult, Machine.comingResult, h.comingClass, h.lRnw, h.ack, h.sTrn]
  by_cases hread : Machine.comingClass t = .ok ∧ t.lRnw = true
  · have hcheck := h.data hread.1 hread.2 32 (by omega)
    rw [show 11 + t.sTrn.toNat + 32 = 43 + t.sTrn.toNat by omega] at hcheck
    rw [h.comingWord hread.1 hread.2, hcheck]
  · rw [if_neg fun hc => hread ⟨hc.1, hc.2.1⟩, if_neg fun hc => hread ⟨hc.1, hc.2.1⟩]

theorem Alike.comingRdata : comingRdata t' = comingRdata t := by
  rw [Machine.comingRdata, Machine.comingRdata, h.comingClass, h.lRnw]
  by_cases hread : Machine.comingClass t = .ok ∧ t.lRnw = true
  · rw [if_pos hread, if_pos hread, h.comingWord hread.1 hread.2]
  · rw [if_neg hread, if_neg hread]

end

/-- Settles O36: both transfers run to their ends (`startTransfer_run_ends`), which name nothing but the
request, the snapshot, the coming samples and the capture's time, and these agree (`Alike`). -/
theorem observationIsDetermined : Obligations.ObservationIsDetermined := by
  intro s s' t t' i hi hb hb' hleg htrn hidle hdpen he he' hack hdata htime hq hq'
  obtain ⟨apndp, rnw, a, ts, v, hv, hexec⟩ := exec_transfer hi
  obtain rfl := next_inj ((hexec s).symm.trans he)
  obtain rfl := next_inj ((hexec s').symm.trans he')
  have alike := startTransfer_alike hb hb' htrn hidle hdpen hack hdata
  have hsTrn := startTransfer_sTrn apndp rnw ts a v hb
  rw [← alike.transferSteps] at hq'
  obtain ⟨u, hrun, hends⟩ := startTransfer_run_ends hb hleg hv hq
  obtain ⟨u', hrun', hends'⟩ := startTransfer_run_ends hb' (htrn ▸ hleg) hv hq'
  rw [alike.transferSteps] at hrun'
  obtain ⟨hclk, hoe, hdout⟩ := hends.posture
  obtain ⟨hclk', hoe', hdout'⟩ := hends'.posture
  have htsr := hends.tsr
  have htsr' := hends'.tsr
  rw [alike.comingClass, alike.lTs, alike.sTrn] at htsr'
  refine ⟨u, u', _, hrun, hrun', hends.trace, ?_, ?_, ?_, ?_, hclk'.trans hclk.symm, hoe'.trans hoe.symm,
    hdout'.trans hdout.symm, fun hok hts => ?_, fun hno => ?_, hends.faults, hends'.faults⟩
  · rw [hends'.trace, alike.lWdata, alike.transferTrace]
  · rw [hends'.result, hends.result, alike.comingResult]
  · rw [hends'.ackRaw, hends.ackRaw, alike.ack]
  · rw [hends'.rdata, hends.rdata, alike.comingRdata]
  · rw [htsr', htsr, if_pos ⟨hok, hts⟩, if_pos ⟨hok, hts⟩, hsTrn, htime hok hts]
  · rw [if_neg hno] at htsr htsr'
    exact ⟨htsr, htsr'⟩

end Sys2Proof.Machine
end

section
/-! PROOFS. The engine never stops (60_exceptions.md R201): every row answers, then every step. -/

namespace Sys2Proof.Machine

open Sys2Proof

/-- A row answers in every cycle before its last, and in its last where its exit does. -/
theorem row_answers {len : Nat} {act : State → State} {exit : State → Answer} {s : State}
    (h : ∃ t, exit (act s) = .next t) : ∃ t, row len act exit s = .next t := by
  by_cases hl : s.cnt.toNat + 1 = len
  · rwa [row_last hl]
  · exact ⟨_, row_tick hl⟩

/-- The engine is in a row that it can finish: not in IDLE, which R181 has no row for, and in TRN2W with
the write data that its last cycle loads (45_data_phase_sequencer.md R162). -/
structure CanGoOn (s : State) : Prop where
  live : s.phase ≠ .idle
  held : s.phase = .trn2w → s.lWdata.isSome = true

/-- The last cycle of TRN2W loads the write data, so it answers where L_WDATA holds a value (R162). -/
theorem rowTrn2w_answers {s : State} (h : s.lWdata.isSome = true) : ∃ t, rowTrn2w s = .next t := by
  obtain ⟨v, hv⟩ := Option.isSome_iff_exists.1 h
  refine row_answers ?_
  rw [loadWriteData_eq (s := enableOutput (cycleZ s)) hv]
  exact ⟨_, andThen_next _ _⟩

/-- Every row of R181 answers. -/
theorem engineRow_answers {s : State} (h : CanGoOn s) (p : Inputs) : ∃ t, engineRow p s = .next t := by
  cases hp : s.phase with
  | idle => exact absurd hp h.live
  | req => rw [engineRow_req hp]; exact row_answers ⟨_, rfl⟩
  | trn1 => rw [engineRow_trn1 hp]; exact row_answers ⟨_, rfl⟩
  | ack => rw [engineRow_ack hp]; exact row_answers ⟨_, rfl⟩
  | rdata => rw [engineRow_rdata hp]; exact row_answers ⟨_, rfl⟩
  | rpar => rw [engineRow_rpar hp]; exact row_answers ⟨_, rfl⟩
  | trn2r => rw [engineRow_trn2r hp]; exact row_answers ⟨_, rfl⟩
  | trn2w => rw [engineRow_trn2w hp]; exact rowTrn2w_answers (h.held hp)
  | wdata => rw [engineRow_wdata hp]; exact row_answers ⟨_, rfl⟩
  | wpar => rw [engineRow_wpar hp]; exact row_answers ⟨_, rfl⟩
  | post => rw [engineRow_post hp]; exact ⟨_, (apply_ite Host.Outcome.next _ _ _).symm⟩
  | idlec => rw [engineRow_idlec hp]; exact row_answers ⟨_, rfl⟩
  | dummyr => rw [engineRow_dummyr hp]; exact row_answers ⟨_, rfl⟩
  | trnwf =>
    rw [engineRow_trnwf hp]
    exact row_answers ⟨_, (apply_ite Host.Outcome.next _ _ _).symm⟩
  | dummyw => rw [engineRow_dummyw hp]; exact row_answers ⟨_, rfl⟩
  | backoff => rw [engineRow_backoff hp]; exact row_answers ⟨_, rfl⟩
  | finish => exact ⟨_, engineRow_finish hp⟩

/-- A step answers, whatever is driven: a reset, the caller's part, or the row of the transfer in flight. -/
theorem step_answers {s : State} (h : s.busy = true → CanGoOn s) : ∃ t, step s = .next t := by
  unfold step
  rw [stepOn_eq]
  cases (currentInputs s).rst with
  | true => exact ⟨_, rfl⟩
  | false =>
    cases hb : s.busy with
    | false => exact ⟨_, rfl⟩
    | true =>
      rw [afterCaller_busy hb]
      obtain ⟨live, held⟩ := h hb
      exact engineRow_answers (s := withMarks _ _ (base s)) ⟨live, held⟩ (currentInputs s)

/-- Every instruction answers (46_transfers.md R184 to R187, 10_state.md R27). -/
theorem exec_answers (i : Instr) (s : State) : ∃ t, exec i s = .next t := by
  cases i with
  | dpw | apw | dpr | apr | cfg => exact ⟨_, rfl⟩

/-- The invariant shuts out both stops: BUSY = 1 in IDLE, and a write without its data (R33, R40). -/
theorem Inv.canGoOn {s : State} (h : Inv s) (hb : s.busy = true) : CanGoOn s where
  live := h.busyIffPhase.1 hb
  held := fun hp => by
    have hpath := h.path
    rw [onPath, hp] at hpath
    obtain ⟨-, hwrite⟩ := hpath
    rw [h.writeHeld hb, hwrite]; rfl

/-- Settles O39: in a state of the invariant no row stops (`Inv.canGoOn`), so no step does
(`step_answers`); no instruction stops in any state. -/
theorem nothingStopsTheEngine : Obligations.NothingStopsTheEngine :=
  fun s h => ⟨step_answers h.canGoOn, fun i => exec_answers i s⟩

end Sys2Proof.Machine
end

section
/-! PROOFS. The engine between transfers (60_exceptions.md R213), and the times of its captures (R210). -/

namespace Sys2Proof.Machine

open Sys2Proof

/-- A step at rest with a silent caller only takes its inputs (10_state.md R33). -/
theorem step_at_rest {s : State} (hb : s.busy = false) (hs : (currentInputs s).silent = true) :
    step s = .next (base s) := by
  rw [step_silent hs, hb]; rfl

/-- Settles O16, by induction on the number of steps: each one is `base`, which leaves BUSY = 0. -/
theorem holdsBetweenTransfers : Obligations.HoldsBetweenTransfers := by
  intro n
  induction n with
  | zero =>
    intro s hb hq
    rw [run_succ, step_at_rest hb (quiet_now hq), List.drop_one]; rfl
  | succ n ih =>
    intro s hb hq
    obtain ⟨hsilent, hrest⟩ := quiet_succ hq
    have rest := ih (base s) hb (hrest (base s) rfl rfl)
    rw [run_succ, step_at_rest hb hsilent, andThen_next, rest]
    have hinputs : (base s).inputs.drop (n + 1) = s.inputs.drop (n + 1 + 1) := List.drop_tail
    have hstepNo : (base s).stepNo + (n + 1) = s.stepNo + (n + 1 + 1) :=
      Nat.succ_add_eq_add_succ _ _
    rw [hinputs, hstepNo]; rfl

/-- A capture answers: its row is POST. -/
theorem capturing.answers {u : State} (h : capturing u) : ∃ t, step u = .next t := by
  obtain ⟨-, hpost, -, -⟩ := h
  exact step_answers fun _ => ⟨by simp [hpost], by simp [hpost]⟩

/-- The step of a capture writes the time on the ports into TSR (45_data_phase_sequencer.md R163). -/
theorem capturing.tsr {u t : State} (h : capturing u) (ht : step u = .next t) :
    t.tsr = some (currentInputs u).tsNow := by
  obtain ⟨hbusy, hpost, hts, hrst⟩ := h
  obtain ⟨-, hstep, -⟩ := timestampChangesOnlyAtCapture
  rw [hstep u t ht, if_neg (by simp [hrst]), if_pos ⟨hbusy, hpost, hts⟩]

/-- Two times less than 2^32 apart differ by the difference of their 32-bit values. -/
theorem ofNat_sub_toNat {a b : Nat} (hle : a ≤ b) (hnear : b - a < 2 ^ 32) :
    (BitVec.ofNat 32 b - BitVec.ofNat 32 a).toNat = b - a := by
  simp only [BitVec.toNat_sub, BitVec.toNat_ofNat]
  omega

/-- Settles O52: the step of the capture writes the time on its ports (`capturing.tsr`), which are the
ports n steps from now (`run_upcoming`); the rest is arithmetic modulo 2^32. -/
theorem laterCapturesAreNotEarlier : Obligations.LaterCapturesAreNotEarlier := by
  rintro T s ⟨hmono, htime⟩
  refine ⟨fun n u hrun hcap => ?_, fun m n hle => ⟨hmono m n hle, fun hnear => ?_, fun hlow => ?_⟩⟩
  · obtain ⟨t, ht⟩ := hcap.answers
    refine ⟨t, ht, ?_⟩
    rw [hcap.tsr ht, ← upcoming_zero, run_upcoming hrun 0, Nat.add_zero, htime]
  · exact ofNat_sub_toNat (hmono m n hle) hnear
  · have hT := hmono m n hle
    rw [BitVec.toNat_ofNat, BitVec.toNat_ofNat, Nat.mod_eq_of_lt hlow, Nat.mod_eq_of_lt (hT.trans_lt hlow)]
    exact hT

end Sys2Proof.Machine
end

section
/-! PROOFS. The caller's duties (60_exceptions.md R211) and the marks of R204. -/

namespace Sys2Proof.Machine

open Sys2Proof

/-- The breaches of R204 in a step on inputs p, one bit per reason. -/
def breaches (p : Inputs) (s : State) : FaultMark where
  startWhileBusy := !p.rst && p.start && s.busy
  cfgWriteWhileBusy := !p.rst && p.cfgWe && s.busy
  cfgIllegal := !p.rst && p.cfgWe && !s.busy && !legalTrn p.cfgTrn
  readUnwritten := p.reads.any fun r => !readable r s
  resetWhileBusy := p.rst && s.busy

/-- The marks of both. -/
def FaultMark.union (m n : FaultMark) : FaultMark where
  startWhileBusy := m.startWhileBusy || n.startWhileBusy
  cfgWriteWhileBusy := m.cfgWriteWhileBusy || n.cfgWriteWhileBusy
  cfgIllegal := m.cfgIllegal || n.cfgIllegal
  readUnwritten := m.readUnwritten || n.readUnwritten
  resetWhileBusy := m.resetWhileBusy || n.resetWhileBusy

@[simp] theorem FaultMark.union_clear (m : FaultMark) : m.union .clear = m := by
  simp [FaultMark.union, FaultMark.clear]

/-- A union without a mark has none on the right. -/
theorem FaultMark.clear_of_union {m n : FaultMark} (h : m.union n = .clear) : n = .clear := by
  obtain ⟨n1, n2, n3, n4, n5⟩ := n
  simp only [FaultMark.union, FaultMark.clear, FaultMark.mk.injEq, Bool.or_eq_false_iff] at h ⊢
  obtain ⟨⟨-, h1⟩, ⟨-, h2⟩, ⟨-, h3⟩, ⟨-, h4⟩, ⟨-, h5⟩⟩ := h
  exact ⟨h1, h2, h3, h4, h5⟩

/-- A step adds its breaches to the marks. -/
theorem step_faults_eq {s t : State} (h : step s = .next t) :
    t.faults = s.faults.union (breaches (currentInputs s) s) := by
  obtain ⟨hstart, hcfg, hillegal, hread, hreset⟩ := step_faults_bits h
  show FaultMark.mk t.faults.startWhileBusy t.faults.cfgWriteWhileBusy t.faults.cfgIllegal
    t.faults.readUnwritten t.faults.resetWhileBusy = _
  rw [hstart, hcfg, hillegal, hread, hreset]; rfl

/-- The column "when it may" of R211 is kept exactly where R204 finds no breach. -/
theorem dutiful_iff (p : Inputs) (s : State) : dutiful p s = true ↔ breaches p s = .clear := by
  have hreads : p.reads.all (fun r => readable r s) = !p.reads.any fun r => !readable r s := by
    simp [List.all_eq_not_any_not]
  unfold dutiful breaches FaultMark.clear
  rw [hreads]
  cases p.rst <;> cases s.busy <;> cases p.start <;> cases p.cfgWe <;> simp

/-- Settles O42: a step adds its breaches to the marks (`step_faults_eq`), and a dutiful caller is one
without a breach (`dutiful_iff`). -/
theorem marksFollowTheCallersDuties : Obligations.MarksFollowTheCallersDuties := by
  intro s t h p
  have hfaults := step_faults_eq h
  refine ⟨fun hd => ?_, fun hd hclear => ?_, step_faults_bits h⟩
  · rw [hfaults, (dutiful_iff _ _).1 hd, FaultMark.union_clear]
  · have hnone : breaches p s = .clear := FaultMark.clear_of_union (hfaults ▸ hclear)
    simp [(dutiful_iff p s).2 hnone] at hd

end Sys2Proof.Machine
end

section
/-! PROOFS. The path of a transfer (70_reset_and_hazards.md R239): its length, the bounds on it, and BUSY until
the completion. -/

namespace Sys2Proof.Machine

open Sys2Proof

/-! ### The length of the path -/

@[simp] theorem length_packetCycles (pkt : Byte) : (packetCycles pkt).length = 8 := by simp [packetCycles]

@[simp] theorem length_sampledCycles (k n : Nat) (s : State) : (sampledCycles k n s).length = n := by
  simp [sampledCycles]

@[simp] theorem length_writeFrame (d : Data) : (writeFrame d).length = 33 := by simp [writeFrame]

/-- After the acknowledge the wire carries the rest of R239's row: one dummy phase where S_DPEN = 1 on WAIT
and FAULT, before the turnaround in a read and after it in a write. -/
theorem length_tailCycles (d : Data) (t : State) :
    8 + t.sTrn.toNat + 3 + (tailCycles d t).length = transferCycles t := by
  unfold transferCycles cycleCount tailCycles
  cases comingClass t with
  | ok => cases t.lRnw <;> simp <;> omega
  | wait | fault => cases t.sDpen <;> cases t.lRnw <;> simp <;> omega
  | protocolError => simp

/-- The trace of the path is as long as the table of R239 says. -/
theorem length_transferTrace (d : Data) (t : State) : (transferTrace d t).length = transferCycles t := by
  rw [← length_tailCycles d t]
  simp [transferTrace, Nat.add_assoc]

/-- The shortest path is a WAIT or FAULT with S_TRN = 1 and no dummy phase, the longest an OK transfer with
S_TRN = 4 and S_IDLE = 255 (R239). -/
theorem cycleCount_bounds (c : AckClass) (rnw dpen : Bool) {n i : Nat} (hn : 1 ≤ n ∧ n ≤ 4) (hi : i ≤ 255) :
    13 ≤ cycleCount c rnw dpen n i ∧ cycleCount c rnw dpen n i ≤ 307 := by
  cases c with
  | ok => cases rnw <;> simp [cycleCount] <;> omega
  | wait | fault => cases dpen <;> simp [cycleCount] <;> omega
  | protocolError => simp only [cycleCount]; omega

/-! ### BUSY until the completion -/

/-- Whatever steps at rest follow, with a silent caller they leave DONE = 0 (R33). -/
theorem run_at_rest_done {n : Nat} {s u : State} (hb : s.busy = false) (hq : quiet (n + 1) s)
    (h : run (n + 1) s = .next u) : u.done = false := by
  rw [holdsBetweenTransfers n s hb hq] at h
  rw [next_inj h]

/-- With a silent caller, a run that ends with DONE = 1 was busy before each of its steps: after a step with
BUSY = 0 there is only rest, which leaves DONE = 0. -/
theorem run_busy_before_done {n k : Nat} {s u : State} (hq : quiet n s) (hrun : run n s = .next u)
    (hdone : u.done = true) (hk : k < n) : ∃ w, run k s = .next w ∧ w.busy = true := by
  obtain ⟨m, rfl⟩ := Nat.exists_eq_add_of_lt hk
  rw [Nat.add_assoc, run_add] at hrun
  obtain ⟨w, hw, hrest⟩ := andThen_eq_next hrun
  have hquiet : quiet (m + 1) w := fun j hj => by
    rw [run_upcoming hw]
    exact hq _ (by omega)
  cases hb : w.busy with
  | true => exact ⟨w, hw, hb⟩
  | false => exact absurd (hdone.symm.trans (run_at_rest_done hb hquiet hrest)) (by decide)

/-- `Transfer()` ends in the completion (R182, R188). -/
theorem transfer_ends_in_complete {s u : State} (h : transfer s = .next u) : ∃ v, u = complete v := by
  rw [transfer_eq] at h
  obtain ⟨v, -, hu⟩ := andThen_eq_next h
  exact ⟨pass v, next_inj hu⟩

/-- Settles O31: the length and the bounds of R239's table, the end of the transfer (`Started.run_ends`), which
is a completion, and BUSY before it, as it leaves DONE = 1 (`run_busy_before_done`). -/
theorem transferTakesItsPath : Obligations.TransferTakesItsPath := by
  intro s i hi hb hleg
  obtain ⟨apndp, rnw, a, ts, v, hv, he⟩ := exec_transfer hi
  have hst := startTransfer_started hb apndp rnw a ts v
  have hw : (startTransfer apndp rnw a ts v s).lWdata.isSome = !(startTransfer apndp rnw a ts v s).lRnw := by
    rw [startTransfer_lWdata _ _ _ _ _ hb, startTransfer_lRnw _ _ _ _ _ hb, hv]
  refine ⟨_, he s, ?_⟩
  generalize startTransfer apndp rnw a ts v s = t at *
  have htrn : 1 ≤ t.sTrn.toNat ∧ t.sTrn.toNat ≤ 4 := hst.sTrn ▸ (legalTrn_iff _).1 hleg
  obtain ⟨hmin, hmax⟩ := cycleCount_bounds (comingClass t) t.lRnw t.sDpen htrn (Nat.le_of_lt_succ t.sIdle.isLt)
  refine ⟨length_transferTrace _ t, hmin, hmax, fun hq => ?_⟩
  obtain ⟨u, hrun, hends⟩ := hst.run_ends htrn.1 hw hq
  obtain ⟨w, hcomplete⟩ := transfer_ends_in_complete ((hst.runs_transfer htrn.1 hw hq).symm.trans hrun)
  have hdone : u.done = true := hcomplete ▸ complete_done w
  have hidle : u.phase = .idle := hcomplete ▸ rfl
  exact ⟨fun k => run_busy_before_done hq hrun hdone, u, hrun, hends.trace, hcomplete ▸ complete_busy w, hdone,
    hidle, hends.posture⟩

end Sys2Proof.Machine
end
